-- ==== Sys2Proof/Word.lean ====
section
/-! DEFINITION. The word types of the gbx core (00_scope.md R11: data 8 bits, pairs and addresses 16 bits). -/

namespace Sys2Proof

/-- A `u8` (00_scope.md R14). -/
abbrev Byte := BitVec 8

/-- A `u16`: a register pair, PC, SP or an address (00_scope.md R11, R14). -/
abbrev Word := BitVec 16

/-- `high : low`, that is `(high << 8) | low` (00_scope.md R14). -/
def Word.ofBytes (high low : Byte) : Word :=
  BitVec.ofNat 16 (high.toNat * 0x100 + low.toNat)

/-- `v[15:8]`. -/
def Word.high (v : Word) : Byte := BitVec.ofNat 8 (v.toNat / 0x100)

/-- `v[7:0]`. -/
def Word.low (v : Word) : Byte := BitVec.ofNat 8 v.toNat

end Sys2Proof
end

