-- ==== Sys2Proof/Config.lean ====
section
/-! DEFINITION. What an implementation fixes: the named parameters of 00_scope.md R12 that the core reads as it
runs, which the model takes as arguments, and the free values. The parameters that only the construction of an
instance reads (`MEMORY_MAP`, `RESET_PC`, `INIT_REGS`) are `Sys2Proof.Machine.ResetParameters`; the defaults stand
in Sys2Proof/Machine/Params.lean. -/

namespace Sys2Proof.Config

/-- `FLAG_LAYOUT`: the bit of F that holds each flag. The four flags are at four positions of the low nibble
(10_state.md R39). -/
structure FlagLayout where
  z : Fin 4
  n : Fin 4
  h : Fin 4
  cy : Fin 4
  /-- No two flags share a bit: "four flags" in a nibble (10_state.md R39, R41). -/
  distinct : [z, n, h, cy].Nodup
  deriving DecidableEq, Repr

/-- `SP_FLAG_RULE` (41_arithmetic.md R204). -/
inductive SpFlagRule where
  /-- H and CY of the 16-bit addition: carries out of bits 11 and 15 (the default). -/
  | doc16
  /-- H and CY of the low byte's unsigned addition: carries out of bits 3 and 7. -/
  | byte
  deriving DecidableEq, Repr

/-- `STOP_LENGTH` (47_system.md R432): 2 by default, 1 its other value. -/
inductive StopLength where
  | one
  | two
  deriving DecidableEq, Repr

/-- A row of `INDEX_TABLE` (30_encoding.md R146): the word `preOpcode opcode` has the rule of the unprefixed opcode
`base`. The spec asks each row for a rule and gives none; that a row names an instruction of the spec is the form
the model gives the parameter. DESIGN CHOICE, safe. Log 10. -/
structure IndexRow where
  preOpcode : Byte
  opcode : Byte
  base : Byte
  deriving DecidableEq, Repr

/-- A row of `GBX_TABLE` (30_encoding.md R147): `0xFC opcode` is the GBX form (`JPU` or `LDU`) of the instruction whose
unprefixed opcode is `base`. -/
structure GbxRow where
  opcode : Byte
  base : Byte
  deriving DecidableEq, Repr

/-- `HOST_STEP_GRANULARITY`: how the host counts `RunCycle`s (40_control_unit.md R170, 90_conflicts.md C2). -/
inductive HostStepGranularity where
  /-- One whole instruction per `RunCycle` (the default). -/
  | oneInstruction
  /-- The count of the document's end-to-end example: one `RunCycle` more than the instructions executed. -/
  | oneMore
  deriving DecidableEq, Repr

/-- The parameters of 00_scope.md R12 that the core reads as it runs. -/
structure Parameters where
  flagLayout : FlagLayout
  spFlagRule : SpFlagRule
  stopLength : StopLength
  /-- `STRADDLE_FAULT` (20_memory.md R94). -/
  straddleFault : Bool
  indexTable : List IndexRow
  gbxTable : List GbxRow
  hostStepGranularity : HostStepGranularity
  deriving DecidableEq, Repr

/-- The base opcode of the `INDEX_TABLE` row of a word, if it has one. Of several rows for one word the first counts, also
where it adds no instruction. DESIGN CHOICE, unsafe. Log 31. -/
def Parameters.indexBase? (p : Parameters) (preOpcode opcode : Byte) : Option Byte :=
  (p.indexTable.find? fun row => row.preOpcode == preOpcode && row.opcode == opcode).map (·.base)

/-- The base opcode of the `GBX_TABLE` row of `0xFC opcode`, if it has one. Of several rows for one opcode the first counts,
also where it adds no instruction. DESIGN CHOICE, unsafe. Log 31. -/
def Parameters.gbxBase? (p : Parameters) (opcode : Byte) : Option Byte :=
  (p.gbxTable.find? fun row => row.opcode == opcode).map (·.base)

/-- The opcode `GBX_TABLE` gives the GBX form of a base opcode, if it has one; of several rows for one base the first
counts. DESIGN CHOICE, safe: only the encoder asks it. Log 31. -/
def Parameters.gbxOpcode? (p : Parameters) (base : Byte) : Option Byte :=
  (p.gbxTable.find? fun row => row.base == base).map (·.opcode)

/-- `GBX_TABLE` gives no opcode two forms and no form two opcodes. -/
def Parameters.gbxOneToOne (p : Parameters) : Bool :=
  decide (p.gbxTable.map (·.opcode)).Nodup && decide (p.gbxTable.map (·.base)).Nodup

/-- A free byte: what the byte register number `reg` holds after the fault drawn as number `draw`
(60_exceptions.md R476: "every register, flag, signal and Mode is unspecified (a draw)"). No body:
nothing can be proved of its value. Log 13. -/
opaque freeByte (draw reg : Nat) : Byte

/-- A free word, for the 16-bit registers (60_exceptions.md R476). Log 13. -/
opaque freeWord (draw reg : Nat) : Word

/-- A free bit, for the signals and the mode (60_exceptions.md R476). Log 13. -/
opaque freeBit (draw signal : Nat) : Bool

end Sys2Proof.Config
end

