-- ==== Sys2Proof/Machine/Resource.lean ====
section
/-! DEFINITION. The Memory Controller's data: ownership domains, address ranges, resources, the resource
table (20_memory.md R80 to R90). -/

namespace Sys2Proof.Machine

/-- The two ownership domains, which are also the two values of the mode register
(10_state.md R53, 48_gbx_privilege.md R451). -/
inductive Domain where
  | system
  | user
  deriving DecidableEq, Repr

/-- What an access is for: the access kind in the info of an `Unmapped` fault (60_exceptions.md R471). -/
inductive AccessKind where
  | fetch
  | read
  | write
  deriving DecidableEq, Repr

/-- The `RangeType` tag of an address range (20_memory.md R88). -/
inductive RangeType where
  /-- `[first, last)`. -/
  | halfOpen
  /-- `[first, last]`. -/
  | closed
  deriving DecidableEq, Repr

/-- An `AddressRange { begin, end, RangeType }` (20_memory.md R88). -/
structure AddressRange where
  first : Word
  last : Word
  type : RangeType
  deriving DecidableEq, Repr

/-- The three kinds of Memory Resource (20_memory.md R80). -/
inductive ResourceKind where
  | rom
  | ram
  /-- A ROM with `BankSize()` and `CurrentBank()` (20_memory.md R84). -/
  | bankedRom (bankSize currentBank : Nat)
  deriving DecidableEq, Repr

/-- A Memory Resource: a byte array of fixed size (20_memory.md R80). `cells` lists the bytes by offset
in rising order and lists no byte equal to what an unlisted one reads as (`Params.unwrittenByte`). -/
structure Resource where
  kind : ResourceKind
  size : Nat
  cells : List Host.Cell
  deriving DecidableEq, Repr

/-- An entry `{ resource, range, ownership }` of the resource table (20_memory.md R89). The resource is
named by its number, so that one resource may stand in several entries. -/
structure Entry where
  resource : Nat
  range : AddressRange
  ownership : Domain
  deriving DecidableEq, Repr

/-- Everything memory-side (10_state.md R62): the resources with their contents and banks, and the
Memory Controller's resource table. -/
structure Memory where
  resources : List Resource
  table : List Entry
  deriving DecidableEq, Repr

/-! ## Construction -/

/-- The kind of a resource at construction: "bank 0 is active at construction" (10_state.md R65, 20_memory.md R84). -/
def ResourceKind.atConstruction (k : ResourceKind) : ResourceKind :=
  match k with
  | .bankedRom bankSize _ => .bankedRom bankSize 0
  | .rom => .rom
  | .ram => .ram

/-- The resource with its current bank as at construction. -/
def Resource.atConstruction (r : Resource) : Resource := { r with kind := r.kind.atConstruction }

/-- The memory with every current bank as at construction (10_state.md R65). -/
def Memory.atConstruction (m : Memory) : Memory := { m with resources := m.resources.map Resource.atConstruction }

end Sys2Proof.Machine
end

