-- ==== Sys2Proof/Machine/Params.lean ====
section
/-! DEFINITION. The defaults of the named parameters of 00_scope.md R12, and what an unwritten byte reads as. -/

namespace Sys2Proof.Machine.Params

/-- The default `FLAG_LAYOUT`: Z = bit 3, N = bit 2, H = bit 1, CY = bit 0 (10_state.md R39, D2). Log 6. -/
def flagLayout : Config.FlagLayout := { z := 3, n := 2, h := 1, cy := 0, distinct := by decide }

/-- The default `GBX_TABLE`: `FC C3` is JPU, and `FC` before the opcode of a base load from memory is its LDU form
(30_encoding.md R147, D11). Log 10. -/
def gbxTable : List Config.GbxRow :=
  [0xC3#8, 0x0A#8, 0x1A#8, 0x2A#8, 0x3A#8, 0xFA#8, 0xF0#8, 0xF2#8,
    0x46#8, 0x4E#8, 0x56#8, 0x5E#8, 0x66#8, 0x6E#8, 0x7E#8].map fun o => { opcode := o, base := o }

/-- Every parameter the core reads at the spec's default: `FLAG_LAYOUT` (D2), `SP_FLAG_RULE` `doc16` (D24),
`STOP_LENGTH` 2 (D19), `STRADDLE_FAULT` true (D15), `INDEX_TABLE` empty (D10), `GBX_TABLE` (D11),
`HOST_STEP_GRANULARITY` one instruction (D4). `State.reset` takes them; no meaning and no statement about every state
rests on them. DESIGN CHOICE (the parameters at their defaults), unsafe. Log 6 to 11. -/
def default : Config.Parameters :=
  { flagLayout := flagLayout
    spFlagRule := .doc16
    stopLength := .two
    straddleFault := true
    indexTable := []
    gbxTable := gbxTable
    hostStepGranularity := .oneInstruction }

/-- The default `RESET_PC`, 0x0000 (10_state.md R65, D7). DESIGN CHOICE, unsafe. Log 5. -/
def resetPc : Word := 0x0000#16

/-- What a byte that nothing has written reads as. The spec leaves RAM contents at reset unspecified
(10_state.md R65). DESIGN CHOICE, unsafe. Log 4. -/
def unwrittenByte : Byte := 0x00#8

/-- A resource of the given kind and size with nothing written. -/
def blankResource (kind : ResourceKind) (size : Nat) : Resource :=
  { kind := kind, size := size, cells := [] }

/-- The whole address space `0x0000` to `0xFFFF` (20_memory.md R101). -/
def wholeSpace : AddressRange := { first := 0x0000#16, last := 0xFFFF#16, type := .closed }

/-- The `MEMORY_MAP` of `State.reset`: the parameter has no default (20_memory.md R105, D30). DESIGN CHOICE, unsafe:
one RAM over the whole space of each domain, the two RAMs distinct. Log 3. -/
def memoryMap : Memory :=
  { resources := [blankResource .ram 0x10000, blankResource .ram 0x10000]
    table := [{ resource := 0, range := wholeSpace, ownership := .system },
              { resource := 1, range := wholeSpace, ownership := .user }] }

end Sys2Proof.Machine.Params
end

