-- ==== Sys2Proof/Syntax.lean ====
section
/-! DEFINITION. The instructions of the gbx core: one constructor per row of spec/opcode_table.json
(30_encoding.md R152), with its operands already taken apart. A term is the part of the spec's
`DecodedInstruction` record (10_state.md R55) that decode and the operand fetch fill. -/

namespace Sys2Proof

/-- The single registers, exactly those the register bank's single accessor accepts (10_state.md R32). -/
inductive Reg8 where
  | a | f | b | c | d | e | h | l | ir | pir
  deriving DecidableEq, Repr

/-- The register pairs, exactly those the pair accessor accepts (10_state.md R33). -/
inductive Reg16 where
  | af | bc | de | hl | sp | pc | ix | iy
  deriving DecidableEq, Repr

/-- The four flags of F (10_state.md R39). -/
inductive Flag where
  | z | n | h | cy
  deriving DecidableEq, Repr

/-- The four conditions (00_scope.md R21). -/
inductive Cond where
  | nz | z | nc | c
  deriving DecidableEq, Repr

/-- An instruction. Operands: `r` a single register, `rr` a pair of the ALU and load field, `qq` a pair of
the stack field, `cc` a condition, `b` a bit index, `t` an RST page, `n` and `nn` immediates, `e` a signed
displacement (00_scope.md R26). `Instr.wf` says which registers an encoding can name. -/
inductive Instr where
  /-- `NOP` (R430). -/
  | nop
  /-- `LD rr,nn` (R376). -/
  | ldRrNn (rr : Reg16) (nn : Word)
  /-- `LD (BC),A` (R368). -/
  | ldBcA
  /-- `LD (DE),A` (R369). -/
  | ldDeA
  /-- `LD (HL+),A` (R374). -/
  | ldHliA
  /-- `LD (HL-),A` (R375). -/
  | ldHldA
  /-- `LD A,(BC)` (R366). -/
  | ldABc
  /-- `LD A,(DE)` (R367). -/
  | ldADe
  /-- `LD A,(HL+)` (R372). -/
  | ldAHli
  /-- `LD A,(HL-)` (R373). -/
  | ldAHld
  /-- `INC rr` (R229). -/
  | incRr (rr : Reg16)
  /-- `DEC rr` (R230). -/
  | decRr (rr : Reg16)
  /-- `INC r` (R225). -/
  | incR (r : Reg8)
  /-- `INC (HL)` (R226). -/
  | incHl
  /-- `DEC r` (R227). -/
  | decR (r : Reg8)
  /-- `DEC (HL)` (R228). -/
  | decHl
  /-- `LD r,n` (R362). -/
  | ldRN (r : Reg8) (n : Byte)
  /-- `LD (HL),n` (R365). -/
  | ldHlN (n : Byte)
  /-- `RLCA` (R281). -/
  | rlca
  /-- `RRCA` (R282). -/
  | rrca
  /-- `RLA` (R283). -/
  | rla
  /-- `RRA` (R284). -/
  | rra
  /-- `LD (nn),SP` (R378). -/
  | ldNnSp (nn : Word)
  /-- `ADD HL,rr` (R231). -/
  | addHlRr (rr : Reg16)
  /-- `STOP` (R432). -/
  | stop (x : Byte)
  /-- `JR e` (R324). -/
  | jr (e : Byte)
  /-- `JR cc,e` (R325). -/
  | jrCc (cc : Cond) (e : Byte)
  /-- `DAA` (R233). -/
  | daa
  /-- `CPL` (R270). -/
  | cpl
  /-- `SCF` (R271). -/
  | scf
  /-- `CCF` (R272). -/
  | ccf
  /-- `LD r,r'` (R361). -/
  | ldRR (r : Reg8) (r' : Reg8)
  /-- `LD r,(HL)` (R363). -/
  | ldRHl (r : Reg8)
  /-- `LD (HL),r` (R364). -/
  | ldHlR (r : Reg8)
  /-- `HALT` (R431). -/
  | halt
  /-- `ADD A,r` (R210). -/
  | addR (r : Reg8)
  /-- `ADD A,(HL)` (R211). -/
  | addHl
  /-- `ADD A,n` (R212). -/
  | addN (n : Byte)
  /-- `ADC A,r` (R213). -/
  | adcR (r : Reg8)
  /-- `ADC A,(HL)` (R214). -/
  | adcHl
  /-- `ADC A,n` (R215). -/
  | adcN (n : Byte)
  /-- `SUB r` (R216). -/
  | subR (r : Reg8)
  /-- `SUB (HL)` (R217). -/
  | subHl
  /-- `SUB n` (R218). -/
  | subN (n : Byte)
  /-- `SBC A,r` (R219). -/
  | sbcR (r : Reg8)
  /-- `SBC A,(HL)` (R220). -/
  | sbcHl
  /-- `SBC A,n` (R221). -/
  | sbcN (n : Byte)
  /-- `AND r` (R261). -/
  | andR (r : Reg8)
  /-- `AND (HL)` (R262). -/
  | andHl
  /-- `AND n` (R263). -/
  | andN (n : Byte)
  /-- `XOR r` (R264). -/
  | xorR (r : Reg8)
  /-- `XOR (HL)` (R265). -/
  | xorHl
  /-- `XOR n` (R266). -/
  | xorN (n : Byte)
  /-- `OR r` (R267). -/
  | orR (r : Reg8)
  /-- `OR (HL)` (R268). -/
  | orHl
  /-- `OR n` (R269). -/
  | orN (n : Byte)
  /-- `CP r` (R222). -/
  | cpR (r : Reg8)
  /-- `CP (HL)` (R223). -/
  | cpHl
  /-- `CP n` (R224). -/
  | cpN (n : Byte)
  /-- `RET cc` (R329). -/
  | retCc (cc : Cond)
  /-- `RET` (R328). -/
  | ret
  /-- `RETI` (R330). -/
  | reti
  /-- `POP qq` (R412). -/
  | pop (qq : Reg16)
  /-- `PUSH qq` (R411). -/
  | push (qq : Reg16)
  /-- `JP cc,nn` (R322). -/
  | jpCc (cc : Cond) (nn : Word)
  /-- `JP nn` (R321). -/
  | jp (nn : Word)
  /-- `JP HL` (R323). -/
  | jpHl
  /-- `CALL cc,nn` (R327). -/
  | callCc (cc : Cond) (nn : Word)
  /-- `CALL nn` (R326). -/
  | call (nn : Word)
  /-- `RST t` (R331). -/
  | rst (t : BitVec 3)
  /-- `LDH (n),A` (R380). -/
  | ldhNA (n : Byte)
  /-- `LDH A,(n)` (R381). -/
  | ldhAN (n : Byte)
  /-- `LD (C),A` (R382). -/
  | ldCA
  /-- `LD A,(C)` (R383). -/
  | ldAC
  /-- `ADD SP,e` (R232). -/
  | addSpE (e : Byte)
  /-- `LD HL,SP+e` (R379). -/
  | ldHlSpE (e : Byte)
  /-- `LD SP,HL` (R377). -/
  | ldSpHl
  /-- `LD (nn),A` (R371). -/
  | ldNnA (nn : Word)
  /-- `LD A,(nn)` (R370). -/
  | ldANn (nn : Word)
  /-- `DI` (R433). -/
  | di
  /-- `EI` (R434). -/
  | ei
  /-- `RLC r` (R285). -/
  | rlcR (r : Reg8)
  /-- `RLC (HL)` (R286). -/
  | rlcHl
  /-- `RRC r` (R287). -/
  | rrcR (r : Reg8)
  /-- `RRC (HL)` (R288). -/
  | rrcHl
  /-- `RL r` (R289). -/
  | rlR (r : Reg8)
  /-- `RL (HL)` (R290). -/
  | rlHl
  /-- `RR r` (R291). -/
  | rrR (r : Reg8)
  /-- `RR (HL)` (R292). -/
  | rrHl
  /-- `SLA r` (R293). -/
  | slaR (r : Reg8)
  /-- `SLA (HL)` (R294). -/
  | slaHl
  /-- `SRA r` (R295). -/
  | sraR (r : Reg8)
  /-- `SRA (HL)` (R296). -/
  | sraHl
  /-- `SWAP r` (R297). -/
  | swapR (r : Reg8)
  /-- `SWAP (HL)` (R298). -/
  | swapHl
  /-- `SRL r` (R299). -/
  | srlR (r : Reg8)
  /-- `SRL (HL)` (R300). -/
  | srlHl
  /-- `BIT b,r` (R301). -/
  | bitR (b : BitVec 3) (r : Reg8)
  /-- `BIT b,(HL)` (R302). -/
  | bitHl (b : BitVec 3)
  /-- `RES b,r` (R303). -/
  | resR (b : BitVec 3) (r : Reg8)
  /-- `RES b,(HL)` (R304). -/
  | resHl (b : BitVec 3)
  /-- `SET b,r` (R305). -/
  | setR (b : BitVec 3) (r : Reg8)
  /-- `SET b,(HL)` (R306). -/
  | setHl (b : BitVec 3)
  /-- `JPU nn` (R450). -/
  | jpu (nn : Word)
  /-- `LDU r,(HL)` (R453). -/
  | lduRHl (r : Reg8)
  /-- `LDU A,(BC)` (R454). -/
  | lduABc
  /-- `LDU A,(DE)` (R455). -/
  | lduADe
  /-- `LDU A,(HL+)` (R456). -/
  | lduAHli
  /-- `LDU A,(HL-)` (R457). -/
  | lduAHld
  /-- `LDU A,(nn)` (R458). -/
  | lduANn (nn : Word)
  /-- `LDHU A,(n)` (R459). -/
  | ldhuAN (n : Byte)
  /-- `LDU A,(C)` (R460). -/
  | lduAC
  deriving DecidableEq, Repr

end Sys2Proof
end

