-- ==== Sys2Proof/WellFormed.lean ====
section
/-! DEFINITION. Which instruction terms an encoding can name: the register operands are limited to the
values of the 3-bit and 2-bit fields (30_encoding.md R136, R137, R138). -/

namespace Sys2Proof

/-- The registers a 3-bit field names (30_encoding.md R136): B, C, D, E, H, L, A. -/
def Reg8.isOperand : Reg8 → Bool
  | .a | .b | .c | .d | .e | .h | .l => true
  | .f | .ir | .pir => false

/-- The pairs the ALU and load field names (30_encoding.md R137): BC, DE, HL, SP. -/
def Reg16.isAluPair : Reg16 → Bool
  | .bc | .de | .hl | .sp => true
  | .af | .pc | .ix | .iy => false

/-- The pairs the stack field names (30_encoding.md R138): BC, DE, HL, AF. -/
def Reg16.isStackPair : Reg16 → Bool
  | .bc | .de | .hl | .af => true
  | .sp | .pc | .ix | .iy => false

/-- Every register operand is one its field can name. -/
def Instr.wf : Instr → Bool
  | .nop => true
  | .ldRrNn rr _ => rr.isAluPair
  | .ldBcA => true
  | .ldDeA => true
  | .ldHliA => true
  | .ldHldA => true
  | .ldABc => true
  | .ldADe => true
  | .ldAHli => true
  | .ldAHld => true
  | .incRr rr => rr.isAluPair
  | .decRr rr => rr.isAluPair
  | .incR r => r.isOperand
  | .incHl => true
  | .decR r => r.isOperand
  | .decHl => true
  | .ldRN r _ => r.isOperand
  | .ldHlN _ => true
  | .rlca => true
  | .rrca => true
  | .rla => true
  | .rra => true
  | .ldNnSp _ => true
  | .addHlRr rr => rr.isAluPair
  | .stop _ => true
  | .jr _ => true
  | .jrCc _ _ => true
  | .daa => true
  | .cpl => true
  | .scf => true
  | .ccf => true
  | .ldRR r r' => r.isOperand && r'.isOperand
  | .ldRHl r => r.isOperand
  | .ldHlR r => r.isOperand
  | .halt => true
  | .addR r => r.isOperand
  | .addHl => true
  | .addN _ => true
  | .adcR r => r.isOperand
  | .adcHl => true
  | .adcN _ => true
  | .subR r => r.isOperand
  | .subHl => true
  | .subN _ => true
  | .sbcR r => r.isOperand
  | .sbcHl => true
  | .sbcN _ => true
  | .andR r => r.isOperand
  | .andHl => true
  | .andN _ => true
  | .xorR r => r.isOperand
  | .xorHl => true
  | .xorN _ => true
  | .orR r => r.isOperand
  | .orHl => true
  | .orN _ => true
  | .cpR r => r.isOperand
  | .cpHl => true
  | .cpN _ => true
  | .retCc _ => true
  | .ret => true
  | .reti => true
  | .pop qq => qq.isStackPair
  | .push qq => qq.isStackPair
  | .jpCc _ _ => true
  | .jp _ => true
  | .jpHl => true
  | .callCc _ _ => true
  | .call _ => true
  | .rst _ => true
  | .ldhNA _ => true
  | .ldhAN _ => true
  | .ldCA => true
  | .ldAC => true
  | .addSpE _ => true
  | .ldHlSpE _ => true
  | .ldSpHl => true
  | .ldNnA _ => true
  | .ldANn _ => true
  | .di => true
  | .ei => true
  | .rlcR r => r.isOperand
  | .rlcHl => true
  | .rrcR r => r.isOperand
  | .rrcHl => true
  | .rlR r => r.isOperand
  | .rlHl => true
  | .rrR r => r.isOperand
  | .rrHl => true
  | .slaR r => r.isOperand
  | .slaHl => true
  | .sraR r => r.isOperand
  | .sraHl => true
  | .swapR r => r.isOperand
  | .swapHl => true
  | .srlR r => r.isOperand
  | .srlHl => true
  | .bitR _ r => r.isOperand
  | .bitHl _ => true
  | .resR _ r => r.isOperand
  | .resHl _ => true
  | .setR _ r => r.isOperand
  | .setHl _ => true
  | .jpu _ => true
  | .lduRHl r => r.isOperand
  | .lduABc => true
  | .lduADe => true
  | .lduAHli => true
  | .lduAHld => true
  | .lduANn _ => true
  | .ldhuAN _ => true
  | .lduAC => true

end Sys2Proof
end

