-- ==== Sys2Proof/Decode.lean ====
section
/-! DEFINITION. The decoder and the encoder, from the opcode maps and field tables of 30_encoding.md.
`decodeOpcode` is the Decode phase (40_control_unit.md R173): from the pre-opcode and the opcode alone, by
bit patterns, it gives a `Template`, the instruction with its operand bytes still to be fetched. The parameters
`STOP_LENGTH`, `INDEX_TABLE` and `GBX_TABLE` are arguments (00_scope.md R12). -/

namespace Sys2Proof

/-- Why an opcode has no decode branch (40_control_unit.md R174). -/
inductive OpcodeReject where
  /-- An illegal unprefixed opcode (30_encoding.md R145). -/
  | undecodable (opcode : Byte)
  /-- A pre-opcode and opcode outside `INDEX_TABLE` and `GBX_TABLE` (30_encoding.md R146, R147). -/
  | unmodelled (preOpcode opcode : Byte)
  deriving DecidableEq, Repr

/-- Why bytes are no instruction. -/
inductive Reject where
  /-- The opcode has no decode branch. -/
  | opcode (r : OpcodeReject)
  /-- The bytes end inside the instruction (a byte list only; memory has no such end). -/
  | truncated
  deriving DecidableEq, Repr

/-- A decoded opcode and the operand bytes it still needs (30_encoding.md R130, R133). -/
inductive Template where
  /-- No operand byte. -/
  | done (i : Instr)
  /-- One byte: an `n`, an `e`, or STOP's ignored byte. -/
  | imm8 (f : Byte → Instr)
  /-- Two bytes, low byte first. -/
  | imm16 (f : Word → Instr)

/-- The pre-opcodes (30_encoding.md R134). -/
def isPreOpcode (b : Byte) : Bool := b == 0xCB#8 || b == 0xDD#8 || b == 0xFD#8 || b == 0xFC#8

/-- Opcode byte fields (30_encoding.md R131): `o[7:6]`. -/
def fieldX (o : Byte) : Nat := o.toNat / 64
/-- `o[5:3]` (30_encoding.md R131). -/
def fieldY (o : Byte) : Nat := o.toNat / 8 % 8
/-- `o[2:0]` (30_encoding.md R131). -/
def fieldZ (o : Byte) : Nat := o.toNat % 8

/-- The 3-bit register field; `none` is `110`, the memory operand `(HL)` (30_encoding.md R136). -/
def regField : Nat → Option Reg8
  | 0 => some .b
  | 1 => some .c
  | 2 => some .d
  | 3 => some .e
  | 4 => some .h
  | 5 => some .l
  | 7 => some .a
  | _ => none

/-- The 2-bit pair field of ALU and load operations (30_encoding.md R137). -/
def aluPairField : Nat → Reg16
  | 0 => .bc
  | 1 => .de
  | 2 => .hl
  | _ => .sp

/-- The 2-bit pair field of PUSH and POP (30_encoding.md R138). -/
def stackPairField : Nat → Reg16
  | 0 => .bc
  | 1 => .de
  | 2 => .hl
  | _ => .af

/-- The 2-bit condition field (30_encoding.md R139). -/
def condField : Nat → Cond
  | 0 => .nz
  | 1 => .z
  | 2 => .nc
  | _ => .c

/-- A form on the 3-bit operand field: on a register, or on `(HL)`. -/
def onOperand (z : Nat) (reg : Reg8 → Instr) (hl : Instr) : Template :=
  match regField z with
  | some r => .done (reg r)
  | none => .done hl

/-- Opcodes 0x00 to 0x3F (30_encoding.md R140). -/
def decodeX0 (p : Config.Parameters) (y z : Nat) : Template :=
  match z with
  | 0 =>
    match y with
    | 0 => .done .nop
    | 1 => .imm16 .ldNnSp
    | 2 =>
      match p.stopLength with
      | .two => .imm8 .stop
      | .one => .done (.stop 0)
    | 3 => .imm8 .jr
    | _ => .imm8 (.jrCc (condField (y - 4)))
  | 1 => if y % 2 = 0 then .imm16 (.ldRrNn (aluPairField (y / 2))) else .done (.addHlRr (aluPairField (y / 2)))
  | 2 =>
    match y with
    | 0 => .done .ldBcA
    | 1 => .done .ldABc
    | 2 => .done .ldDeA
    | 3 => .done .ldADe
    | 4 => .done .ldHliA
    | 5 => .done .ldAHli
    | 6 => .done .ldHldA
    | _ => .done .ldAHld
  | 3 => if y % 2 = 0 then .done (.incRr (aluPairField (y / 2))) else .done (.decRr (aluPairField (y / 2)))
  | 4 => onOperand y .incR .incHl
  | 5 => onOperand y .decR .decHl
  | 6 =>
    match regField y with
    | some r => .imm8 (.ldRN r)
    | none => .imm8 .ldHlN
  | _ =>
    match y with
    | 0 => .done .rlca
    | 1 => .done .rrca
    | 2 => .done .rla
    | 3 => .done .rra
    | 4 => .done .daa
    | 5 => .done .cpl
    | 6 => .done .scf
    | _ => .done .ccf

/-- Opcodes 0x40 to 0x7F: the loads, with 0x76 HALT tested first (30_encoding.md R140, R144). -/
def decodeX1 (y z : Nat) : Template :=
  match regField y, regField z with
  | none, none => .done .halt
  | some r, none => .done (.ldRHl r)
  | none, some r => .done (.ldHlR r)
  | some r, some r' => .done (.ldRR r r')

/-- Opcodes 0x80 to 0xBF: the ALU operation field on the operand field (30_encoding.md R142). -/
def decodeX2 (y z : Nat) : Template :=
  match y with
  | 0 => onOperand z .addR .addHl
  | 1 => onOperand z .adcR .adcHl
  | 2 => onOperand z .subR .subHl
  | 3 => onOperand z .sbcR .sbcHl
  | 4 => onOperand z .andR .andHl
  | 5 => onOperand z .xorR .xorHl
  | 6 => onOperand z .orR .orHl
  | _ => onOperand z .cpR .cpHl

/-- Opcodes 0xC0 to 0xFF less the pre-opcodes; `none` is an illegal opcode (30_encoding.md R140, R145). -/
def decodeX3 (y z : Nat) : Option Template :=
  match z with
  | 0 =>
    match y with
    | 4 => some (.imm8 .ldhNA)
    | 5 => some (.imm8 .addSpE)
    | 6 => some (.imm8 .ldhAN)
    | 7 => some (.imm8 .ldHlSpE)
    | _ => some (.done (.retCc (condField y)))
  | 1 =>
    match y with
    | 1 => some (.done .ret)
    | 3 => some (.done .reti)
    | 5 => some (.done .jpHl)
    | 7 => some (.done .ldSpHl)
    | _ => some (.done (.pop (stackPairField (y / 2))))
  | 2 =>
    match y with
    | 4 => some (.done .ldCA)
    | 5 => some (.imm16 .ldNnA)
    | 6 => some (.done .ldAC)
    | 7 => some (.imm16 .ldANn)
    | _ => some (.imm16 (.jpCc (condField y)))
  | 3 =>
    match y with
    | 0 => some (.imm16 .jp)
    | 6 => some (.done .di)
    | 7 => some (.done .ei)
    | _ => none
  | 4 => if y < 4 then some (.imm16 (.callCc (condField y))) else none
  | 5 =>
    if y % 2 = 0 then some (.done (.push (stackPairField (y / 2))))
    else if y = 1 then some (.imm16 .call)
    else none
  | 6 =>
    match y with
    | 0 => some (.imm8 .addN)
    | 1 => some (.imm8 .adcN)
    | 2 => some (.imm8 .subN)
    | 3 => some (.imm8 .sbcN)
    | 4 => some (.imm8 .andN)
    | 5 => some (.imm8 .xorN)
    | 6 => some (.imm8 .orN)
    | _ => some (.imm8 .cpN)
  | _ => some (.done (.rst (BitVec.ofNat 3 y)))

/-- The unprefixed opcode map (30_encoding.md R140, R145). -/
def decodeBase (p : Config.Parameters) (o : Byte) : Except OpcodeReject Template :=
  match fieldX o with
  | 0 => .ok (decodeX0 p (fieldY o) (fieldZ o))
  | 1 => .ok (decodeX1 (fieldY o) (fieldZ o))
  | 2 => .ok (decodeX2 (fieldY o) (fieldZ o))
  | _ =>
    match decodeX3 (fieldY o) (fieldZ o) with
    | some t => .ok t
    | none => .error (.undecodable o)

/-- The `0xCB` opcode map: every value is an instruction (30_encoding.md R141, R143). -/
def decodeCb (o : Byte) : Template :=
  let y := fieldY o
  let z := fieldZ o
  match fieldX o with
  | 0 =>
    match y with
    | 0 => onOperand z .rlcR .rlcHl
    | 1 => onOperand z .rrcR .rrcHl
    | 2 => onOperand z .rlR .rlHl
    | 3 => onOperand z .rrR .rrHl
    | 4 => onOperand z .slaR .slaHl
    | 5 => onOperand z .sraR .sraHl
    | 6 => onOperand z .swapR .swapHl
    | _ => onOperand z .srlR .srlHl
  | 1 => onOperand z (.bitR (BitVec.ofNat 3 y)) (.bitHl (BitVec.ofNat 3 y))
  | 2 => onOperand z (.resR (BitVec.ofNat 3 y)) (.resHl (BitVec.ofNat 3 y))
  | _ => onOperand z (.setR (BitVec.ofNat 3 y)) (.setHl (BitVec.ofNat 3 y))

/-- The GBX form of the instruction with an unprefixed opcode: `JPU` of `JP nn`, `LDU` of each load from memory
(30_encoding.md R147; 48_gbx_privilege.md R452). -/
def gbxForm (base : Byte) : Option Template :=
  if base = 0xC3#8 then some (.imm16 .jpu)
  else if base = 0x0A#8 then some (.done .lduABc)
  else if base = 0x1A#8 then some (.done .lduADe)
  else if base = 0x2A#8 then some (.done .lduAHli)
  else if base = 0x3A#8 then some (.done .lduAHld)
  else if base = 0xFA#8 then some (.imm16 .lduANn)
  else if base = 0xF0#8 then some (.imm8 .ldhuAN)
  else if base = 0xF2#8 then some (.done .lduAC)
  else if fieldX base = 1 ∧ fieldZ base = 6 then (regField (fieldY base)).map fun r => .done (.lduRHl r)
  else none

/-- The `0xFC` table: the rows of `GBX_TABLE` (30_encoding.md R147). -/
def decodeGbx (p : Config.Parameters) (o : Byte) : Except OpcodeReject Template :=
  match (p.gbxBase? o).bind gbxForm with
  | some t => .ok t
  | none => .error (.unmodelled 0xFC#8 o)

/-- The `0xDD` and `0xFD` tables: the rows of `INDEX_TABLE`, which is empty by default (30_encoding.md R146). A row
whose base is no instruction adds none. -/
def decodeIndex (p : Config.Parameters) (pir o : Byte) : Except OpcodeReject Template :=
  match p.indexBase? pir o with
  | none => .error (.unmodelled pir o)
  | some base =>
    match decodeBase p base with
    | .ok t => .ok t
    | .error _ => .error (.unmodelled pir o)

/-- The Decode phase: `(PIR, opcode)` selects the table row, PIR 0 if there is no pre-opcode
(30_encoding.md R134; 40_control_unit.md R173, R174). -/
def decodeOpcode (p : Config.Parameters) (pir opcode : Byte) : Except OpcodeReject Template :=
  if pir = 0xCB#8 then .ok (decodeCb opcode)
  else if pir = 0xFC#8 then decodeGbx p opcode
  else if pir = 0xDD#8 ∨ pir = 0xFD#8 then decodeIndex p pir opcode
  else decodeBase p opcode

/-- Takes the operand bytes of a template from a byte list (30_encoding.md R133). -/
def takeOperands (t : Template) (bytes : List Byte) : Except Reject (Instr × List Byte) :=
  match t, bytes with
  | .done i, rest => .ok (i, rest)
  | .imm8 f, n :: rest => .ok (f n, rest)
  | .imm16 f, low :: high :: rest => .ok (f (Word.ofBytes high low), rest)
  | _, _ => .error .truncated

/-- Decodes an opcode and takes its operand bytes. -/
def decodeFrom (p : Config.Parameters) (pir opcode : Byte) (bytes : List Byte) : Except Reject (Instr × List Byte) :=
  match decodeOpcode p pir opcode with
  | .ok t => takeOperands t bytes
  | .error r => .error (.opcode r)

/-- The decoder on a byte list, total: the instruction and the bytes after it, or the name of what is
wrong (30_encoding.md R134, R135). -/
def decode (p : Config.Parameters) : List Byte → Except Reject (Instr × List Byte)
  | [] => .error .truncated
  | b :: rest =>
    if isPreOpcode b then
      match rest with
      | [] => .error .truncated
      | o :: rest' => decodeFrom p b o rest'
    else decodeFrom p 0x00#8 b rest

/-! ## The encoder -/

/-- The 3-bit code of a register (30_encoding.md R136). A register no field names has no code; the value
given it here is never used by a well-formed instruction. -/
def regCode : Reg8 → Nat
  | .b => 0
  | .c => 1
  | .d => 2
  | .e => 3
  | .h => 4
  | .l => 5
  | .a => 7
  | .f | .ir | .pir => 6

/-- The 2-bit code of a pair in either pair field (30_encoding.md R137, R138). -/
def pairCode : Reg16 → Nat
  | .bc => 0
  | .de => 1
  | .hl => 2
  | .sp | .af | .pc | .ix | .iy => 3

/-- The 2-bit code of a condition (30_encoding.md R139). -/
def condCode : Cond → Nat
  | .nz => 0
  | .z => 1
  | .nc => 2
  | .c => 3

/-- An opcode byte from its value. -/
def opByte (v : Nat) : Byte := BitVec.ofNat 8 v

/-- A 16-bit immediate's bytes, low byte first (30_encoding.md R133). -/
def wordBytes (v : Word) : List Byte := [v.low, v.high]

/-- The bytes of the GBX form of a base opcode: `0xFC`, the opcode `GBX_TABLE` gives it, the operand bytes; none where
it gives none (30_encoding.md R147). -/
def gbxBytes (p : Config.Parameters) (base : Byte) (operands : List Byte) : List Byte :=
  match p.gbxOpcode? base with
  | some o => 0xFC#8 :: o :: operands
  | none => []

/-- The bytes of an instruction that has an encoding, from the encoding column of spec/opcode_table.json. -/
def encode (p : Config.Parameters) : Instr → List Byte
  | .nop => [0x00#8]
  | .ldRrNn rr nn => opByte (0x01 + 16 * pairCode rr) :: wordBytes nn
  | .ldBcA => [0x02#8]
  | .ldDeA => [0x12#8]
  | .ldHliA => [0x22#8]
  | .ldHldA => [0x32#8]
  | .ldABc => [0x0A#8]
  | .ldADe => [0x1A#8]
  | .ldAHli => [0x2A#8]
  | .ldAHld => [0x3A#8]
  | .incRr rr => [opByte (0x03 + 16 * pairCode rr)]
  | .decRr rr => [opByte (0x0B + 16 * pairCode rr)]
  | .incR r => [opByte (0x04 + 8 * regCode r)]
  | .incHl => [0x34#8]
  | .decR r => [opByte (0x05 + 8 * regCode r)]
  | .decHl => [0x35#8]
  | .ldRN r n => [opByte (0x06 + 8 * regCode r), n]
  | .ldHlN n => [0x36#8, n]
  | .rlca => [0x07#8]
  | .rrca => [0x0F#8]
  | .rla => [0x17#8]
  | .rra => [0x1F#8]
  | .ldNnSp nn => 0x08#8 :: wordBytes nn
  | .addHlRr rr => [opByte (0x09 + 16 * pairCode rr)]
  | .stop x => 0x10#8 :: (match p.stopLength with | .two => [x] | .one => [])
  | .jr e => [0x18#8, e]
  | .jrCc cc e => [opByte (0x20 + 8 * condCode cc), e]
  | .daa => [0x27#8]
  | .cpl => [0x2F#8]
  | .scf => [0x37#8]
  | .ccf => [0x3F#8]
  | .ldRR r r' => [opByte (0x40 + 8 * regCode r + regCode r')]
  | .ldRHl r => [opByte (0x46 + 8 * regCode r)]
  | .ldHlR r => [opByte (0x70 + regCode r)]
  | .halt => [0x76#8]
  | .addR r => [opByte (0x80 + regCode r)]
  | .addHl => [0x86#8]
  | .addN n => [0xC6#8, n]
  | .adcR r => [opByte (0x88 + regCode r)]
  | .adcHl => [0x8E#8]
  | .adcN n => [0xCE#8, n]
  | .subR r => [opByte (0x90 + regCode r)]
  | .subHl => [0x96#8]
  | .subN n => [0xD6#8, n]
  | .sbcR r => [opByte (0x98 + regCode r)]
  | .sbcHl => [0x9E#8]
  | .sbcN n => [0xDE#8, n]
  | .andR r => [opByte (0xA0 + regCode r)]
  | .andHl => [0xA6#8]
  | .andN n => [0xE6#8, n]
  | .xorR r => [opByte (0xA8 + regCode r)]
  | .xorHl => [0xAE#8]
  | .xorN n => [0xEE#8, n]
  | .orR r => [opByte (0xB0 + regCode r)]
  | .orHl => [0xB6#8]
  | .orN n => [0xF6#8, n]
  | .cpR r => [opByte (0xB8 + regCode r)]
  | .cpHl => [0xBE#8]
  | .cpN n => [0xFE#8, n]
  | .retCc cc => [opByte (0xC0 + 8 * condCode cc)]
  | .ret => [0xC9#8]
  | .reti => [0xD9#8]
  | .pop qq => [opByte (0xC1 + 16 * pairCode qq)]
  | .push qq => [opByte (0xC5 + 16 * pairCode qq)]
  | .jpCc cc nn => opByte (0xC2 + 8 * condCode cc) :: wordBytes nn
  | .jp nn => 0xC3#8 :: wordBytes nn
  | .jpHl => [0xE9#8]
  | .callCc cc nn => opByte (0xC4 + 8 * condCode cc) :: wordBytes nn
  | .call nn => 0xCD#8 :: wordBytes nn
  | .rst t => [opByte (0xC7 + 8 * t.toNat)]
  | .ldhNA n => [0xE0#8, n]
  | .ldhAN n => [0xF0#8, n]
  | .ldCA => [0xE2#8]
  | .ldAC => [0xF2#8]
  | .addSpE e => [0xE8#8, e]
  | .ldHlSpE e => [0xF8#8, e]
  | .ldSpHl => [0xF9#8]
  | .ldNnA nn => 0xEA#8 :: wordBytes nn
  | .ldANn nn => 0xFA#8 :: wordBytes nn
  | .di => [0xF3#8]
  | .ei => [0xFB#8]
  | .rlcR r => [0xCB#8, opByte (0x00 + regCode r)]
  | .rlcHl => [0xCB#8, 0x06#8]
  | .rrcR r => [0xCB#8, opByte (0x08 + regCode r)]
  | .rrcHl => [0xCB#8, 0x0E#8]
  | .rlR r => [0xCB#8, opByte (0x10 + regCode r)]
  | .rlHl => [0xCB#8, 0x16#8]
  | .rrR r => [0xCB#8, opByte (0x18 + regCode r)]
  | .rrHl => [0xCB#8, 0x1E#8]
  | .slaR r => [0xCB#8, opByte (0x20 + regCode r)]
  | .slaHl => [0xCB#8, 0x26#8]
  | .sraR r => [0xCB#8, opByte (0x28 + regCode r)]
  | .sraHl => [0xCB#8, 0x2E#8]
  | .swapR r => [0xCB#8, opByte (0x30 + regCode r)]
  | .swapHl => [0xCB#8, 0x36#8]
  | .srlR r => [0xCB#8, opByte (0x38 + regCode r)]
  | .srlHl => [0xCB#8, 0x3E#8]
  | .bitR b r => [0xCB#8, opByte (0x40 + 8 * b.toNat + regCode r)]
  | .bitHl b => [0xCB#8, opByte (0x46 + 8 * b.toNat)]
  | .resR b r => [0xCB#8, opByte (0x80 + 8 * b.toNat + regCode r)]
  | .resHl b => [0xCB#8, opByte (0x86 + 8 * b.toNat)]
  | .setR b r => [0xCB#8, opByte (0xC0 + 8 * b.toNat + regCode r)]
  | .setHl b => [0xCB#8, opByte (0xC6 + 8 * b.toNat)]
  | .jpu nn => gbxBytes p 0xC3#8 (wordBytes nn)
  | .lduRHl r => gbxBytes p (opByte (0x46 + 8 * regCode r)) []
  | .lduABc => gbxBytes p 0x0A#8 []
  | .lduADe => gbxBytes p 0x1A#8 []
  | .lduAHli => gbxBytes p 0x2A#8 []
  | .lduAHld => gbxBytes p 0x3A#8 []
  | .lduANn nn => gbxBytes p 0xFA#8 (wordBytes nn)
  | .ldhuAN n => gbxBytes p 0xF0#8 [n]
  | .lduAC => gbxBytes p 0xF2#8 []

/-- The instruction has an encoding under the parameters: it is well-formed, a GBX form has a row of `GBX_TABLE`, and
STOP carries an ignored byte only where it has one. -/
def Instr.encodable (p : Config.Parameters) (i : Instr) : Bool :=
  i.wf && (encode p i != []) && (match i with
    | .stop x => decide (p.stopLength = .two) || x == 0#8
    | _ => true)

/-- The bytes of a table word, in the order the core fetches them. A row of spec/opcode_table.json with a
pre-opcode numbers it above the opcode (`0xCB06` is the bytes CB 06), so a number whose top byte is a
pre-opcode is read top byte first; any other number has its first byte at bits 7:0. Log 16. -/
def tableBytes (nbits w : Nat) : List Byte :=
  let upward := (List.range (nbits / 8)).map (fun k => BitVec.ofNat 8 (w / 256 ^ k))
  match upward.reverse with
  | top :: _ => if isPreOpcode top then upward.reverse else upward
  | [] => []

/-- The instruction the decoder reads from a table word; every operand byte the word does not reach is 0
(30_encoding.md R130: an instruction has at most 4 bytes), at the parameters' defaults, under which the table stands.
Log 16. -/
def decodeTableWord (nbits w : Nat) : Option Instr :=
  match decode Machine.Params.default (tableBytes nbits w ++ List.replicate 3 0x00#8) with
  | .ok (i, _) => some i
  | .error _ => none

end Sys2Proof
end

