-- ==== Sys2Proof/Machine/Flags.lean ====
section
/-! DEFINITION. The flags of F and every flag and result computation the spec gives: additions and
subtractions (41_arithmetic.md R201 to R204), decimal adjust (R233), shifts (43_bit_rotate.md R280). -/

namespace Sys2Proof.Machine

/-! ## Flags in F (10_state.md R39, R40, R41) -/

/-- `position(f)` of a `FLAG_LAYOUT`. -/
def flagPosition (l : Config.FlagLayout) (f : Flag) : Fin 4 :=
  match f with
  | .z => l.z
  | .n => l.n
  | .h => l.h
  | .cy => l.cy

/-- `mask(f) = 1 << position(f)`. -/
def flagMask (l : Config.FlagLayout) (f : Flag) : Byte := 1#8 <<< (flagPosition l f).val

/-- `SetFlag(f)`: `F | mask(f)`. -/
def setFlag (l : Config.FlagLayout) (v : Byte) (f : Flag) : Byte := v ||| flagMask l f

/-- `ClearFlag(f)`: `F & ~mask(f)`. -/
def clearFlag (l : Config.FlagLayout) (v : Byte) (f : Flag) : Byte := v &&& ~~~flagMask l f

/-- `ReadFlag(f)`: whether `F & mask(f) != 0`. -/
def readFlag (l : Config.FlagLayout) (v : Byte) (f : Flag) : Bool := v &&& flagMask l f != 0#8

/-- `WriteFlag(f, b)` (10_state.md R40). Only the bit at `f`'s position can change, so that `readFlag` of `f` answers `b` and
no other flag and no other bit of F is perturbed (R41). -/
def writeFlag (l : Config.FlagLayout) (v : Byte) (f : Flag) (b : Bool) : Byte :=
  if b then setFlag l v f else clearFlag l v f

/-- The bits of F that no flag lies in: bits 7:4, under every layout (10_state.md R39). -/
def nonFlagBits (v : Byte) : Byte := v &&& 0xF0#8

/-! ## Arithmetic (00_scope.md R14: exact integers, narrowed at the end) -/

/-- `(res, h, cy)` of an 8-bit operation. -/
structure Alu8 where
  res : Byte
  h : Bool
  cy : Bool
  deriving DecidableEq, Repr

/-- `(res, h, cy)` of a 16-bit operation. -/
structure Alu16 where
  res : Word
  h : Bool
  cy : Bool
  deriving DecidableEq, Repr

/-- `add8(a, b, c)` (41_arithmetic.md R201). -/
def add8 (a b : Byte) (c : Bool) : Alu8 :=
  { res := BitVec.ofNat 8 (a.toNat + b.toNat + c.toNat)
    h := decide (a.toNat % 16 + b.toNat % 16 + c.toNat > 0xF)
    cy := decide (a.toNat + b.toNat + c.toNat > 0xFF) }

/-- `sub8(a, b, c)` (41_arithmetic.md R202). -/
def sub8 (a b : Byte) (c : Bool) : Alu8 :=
  { res := BitVec.ofInt 8 ((a.toNat : Int) - (b.toNat : Int) - (c.toNat : Int))
    h := decide (a.toNat % 16 < b.toNat % 16 + c.toNat)
    cy := decide (a.toNat < b.toNat + c.toNat) }

/-- `add16(a, b)` (41_arithmetic.md R203). -/
def add16 (a b : Word) : Alu16 :=
  { res := BitVec.ofNat 16 (a.toNat + b.toNat)
    h := decide (a.toNat % 0x1000 + b.toNat % 0x1000 > 0xFFF)
    cy := decide (a.toNat + b.toNat > 0xFFFF) }

/-- `sext_16(v)` (00_scope.md R15). -/
def sext16 (v : Byte) : Word :=
  if v.toNat < 0x80 then BitVec.ofNat 16 v.toNat else BitVec.ofNat 16 (v.toNat + 0xFF00)

/-- `zext_16(v)` (00_scope.md R15). -/
def zext16 (v : Byte) : Word := BitVec.ofNat 16 v.toNat

/-- `addsp(s, e)` under either value of `SP_FLAG_RULE` (41_arithmetic.md R204). -/
def addsp (rule : Config.SpFlagRule) (s : Word) (e : Byte) : Alu16 :=
  match rule with
  | .doc16 => add16 s (sext16 e)
  | .byte =>
    { res := (add16 s (sext16 e)).res
      h := decide (s.toNat % 16 + e.toNat % 16 > 0xF)
      cy := decide (s.toNat % 0x100 + e.toNat > 0xFF) }

/-- The decimal adjust of `a` under N, H, CY: the new A and the new CY (41_arithmetic.md R233). -/
def daaAdjust (a : Byte) (n h cy : Bool) : Byte × Bool :=
  let v : Int := a.toNat
  if !n then
    let c := cy || decide (v > 0x99)
    let v1 := if c then v + 0x60 else v
    let v2 := if h || decide (a.toNat % 16 > 0x09) then v1 + 0x06 else v1
    (BitVec.ofInt 8 v2, c)
  else
    let v1 := if cy then v - 0x60 else v
    let v2 := if h then v1 - 0x06 else v1
    (BitVec.ofInt 8 v2, cy)

/-! ## Shifts (43_bit_rotate.md R280): `(res, out)` -/

/-- A shift's result and the bit it shifted out. -/
structure ShiftOut where
  res : Byte
  out : Bool
  deriving DecidableEq, Repr

/-- One bit as a byte. -/
def bitByte (b : Bool) : Byte := if b then 1#8 else 0#8

def rlc (v : Byte) : ShiftOut := { res := (v <<< 1) ||| bitByte (v.getLsbD 7), out := v.getLsbD 7 }
def rrc (v : Byte) : ShiftOut := { res := (v >>> 1) ||| (bitByte (v.getLsbD 0) <<< 7), out := v.getLsbD 0 }
def rl (v : Byte) (c : Bool) : ShiftOut := { res := (v <<< 1) ||| bitByte c, out := v.getLsbD 7 }
def rr (v : Byte) (c : Bool) : ShiftOut := { res := (v >>> 1) ||| (bitByte c <<< 7), out := v.getLsbD 0 }
def sla (v : Byte) : ShiftOut := { res := v <<< 1, out := v.getLsbD 7 }
def sra (v : Byte) : ShiftOut := { res := (v >>> 1) ||| (v &&& 0x80#8), out := v.getLsbD 0 }
def srl (v : Byte) : ShiftOut := { res := v >>> 1, out := v.getLsbD 0 }

/-- SWAP shifts no bit out: `out` is the 0 that CY receives (43_bit_rotate.md R280, R297, C9). -/
def swap (v : Byte) : ShiftOut := { res := (v <<< 4) ||| (v >>> 4), out := false }

/-- `1 << b` for a bit index (43_bit_rotate.md R308). -/
def bitMask (b : BitVec 3) : Byte := 1#8 <<< b.toNat

end Sys2Proof.Machine
end

