-- ==== Sys2Proof/Machine/State.lean ====
section
/-! DEFINITION. The state of the gbx core as plain data (10_state.md), the reasons a step can stop, and
the state after reset. -/

namespace Sys2Proof.Machine

/-- One register bank (10_state.md R30): the ten single registers, and SP, PC, IX, IY, whose two byte
cells are held as one word, high cell in bits 15:8 (log 14). -/
structure RegBank where
  a : Byte
  f : Byte
  b : Byte
  c : Byte
  d : Byte
  e : Byte
  h : Byte
  l : Byte
  sp : Word
  pc : Word
  ix : Word
  iy : Word
  ir : Byte
  pir : Byte
  deriving DecidableEq, Repr

/-- The seven signals of the ALU (10_state.md R45). -/
structure Signals where
  haltSignal : Bool
  stopSignal : Bool
  interruptMasterEnable : Bool
  clearInterruptStatusSignal : Bool
  isExecutionAborted : Bool
  userModeRequested : Bool
  userModeSourceOperandRequested : Bool
  deriving DecidableEq, Repr

/-- The exceptions of 60_exceptions.md R470. The last three are reserved names that nothing raises (R477). -/
inductive ExceptionName where
  | memoryAccess
  | memoryController
  | bankedMemory
  | registerBank
  | instruction
  | arithmeticLogicUnit
  | clockSource
  | channel
  deriving DecidableEq, Repr

/-- Every register name of the bank (10_state.md R30 to R33). -/
inductive RegisterName where
  | single (r : Reg8)
  | pair (rr : Reg16)
  /-- A byte cell of SP, PC, IX or IY, such as SPH. -/
  | half (rr : Reg16) (high : Bool)
  /-- The `NoRegister` sentinel (10_state.md R55). -/
  | noRegister
  deriving DecidableEq, Repr

/-- The causes of 60_exceptions.md R471 with their info fields. -/
inductive FaultCause where
  /-- A write reached a ROM or Banked ROM (20_memory.md R82, R85). Raised by any storing instruction. -/
  | readOnlyWrite (address : Word) (domain : Domain)
  /-- A resource offset, or the one after it for a word, is not below the size (20_memory.md R81, R83); the info is the
  access's own offset (log 30). No `RunCycle` raises it (60_exceptions.md R471). Host calls only. -/
  | outOfBounds (offset : Nat)
  /-- A `Load` payload does not fit (20_memory.md R87). Host calls only. -/
  | loadOverflow (offset size : Nat)
  /-- No entry of the domain covers the address (20_memory.md R93, R95, R97). Raised by any fetch, read
  or write. -/
  | unmapped (address : Word) (domain : Domain) (kind : AccessKind)
  /-- A 16-bit access fails the straddle check (20_memory.md R94) or a word read crosses the bound (R93). -/
  | straddle (address : Word) (domain : Domain)
  /-- `RegisterMemoryResource` with a size that is not the range's length (20_memory.md R90). Host only. -/
  | sizeMismatch (range : AddressRange)
  /-- `RegisterMemoryResource` overlapping an entry of the same domain (20_memory.md R90). Host only. -/
  | overlap (range : AddressRange)
  /-- `UnregisterMemoryResource` of a resource with no entry in the domain (20_memory.md R92). Host only. -/
  | notRegistered (domain : Domain)
  /-- `SelectBank(n)` with `n >= BankCount()` (20_memory.md R84). Host only. -/
  | badBank (n : Nat)
  /-- An access to a register the accessor does not accept (10_state.md R32, R33). Host only. -/
  | badRegister (register : RegisterName)
  /-- An illegal unprefixed opcode (30_encoding.md R145). Raised by the Execute phase of a `RunCycle`. -/
  | undecodable (opcode : Byte)
  /-- An instruction outside `INDEX_TABLE` or `GBX_TABLE` (30_encoding.md R146, R147). -/
  | unmodelled (preOpcode opcode : Byte)
  deriving DecidableEq, Repr

/-- A fault record `(exception, cause, info)` with the address of the faulting instruction's first byte
(60_exceptions.md R471). The exception is a function of the cause (`exceptionOf`). -/
structure FaultRecord where
  cause : FaultCause
  instruction : Word
  deriving DecidableEq, Repr

/-- Why a step stops. -/
inductive Fault where
  /-- A meaning raised `cause` (00_scope.md R20), with memory holding the writes that completed before it
  (60_exceptions.md R476); `step` turns it into `recorded`. Safe: the spec names the fault, and it stops the core. -/
  | raised (cause : FaultCause) (memory : Memory)
  /-- A `RunCycle` raised a fault: the record the fault state then holds, and memory as the fault left it
  (60_exceptions.md R471, R476). Raised by `step`. Safe: the spec's core takes no further step. -/
  | recorded (record : FaultRecord) (memory : Memory)
  /-- The fault state already holds a record, so `Run()` has no step (10_state.md R60,
  40_control_unit.md R171): the core is stuck. Raised by `step`. Safe: the spec gives no step. -/
  | stopped (record : FaultRecord)
  deriving DecidableEq, Repr

/-- Why an instruction has no meaning. -/
inductive Refusal where
  /-- `exec` has no meaning for the instruction of this mnemonic yet. Raised by `exec`'s arms only. Safe:
  no state follows. No arm answers it: every instruction has its meaning. -/
  | notModelled (mnemonic : String)
  deriving DecidableEq, Repr

/-- The whole state of the core (10_state.md). -/
structure State where
  /-- The register bank (10_state.md R30). -/
  regs : RegBank
  /-- The alternate bank: "an identical alternates shadow array" (10_state.md R38). -/
  alt : RegBank
  /-- The seven signals (10_state.md R45). -/
  signals : Signals
  /-- The Memory Controller's mode register (10_state.md R53). -/
  mode : Domain
  /-- The resources and the resource table (10_state.md R62). -/
  mem : Memory
  /-- The fault state: none or one record (10_state.md R60). -/
  fault : Option FaultRecord
  /-- The model's own counter that indexes free values (log 13); no state of the spec. -/
  draws : Nat
  /-- The parameters of 00_scope.md R12 this instance was constructed with. No step and no host call changes them. -/
  params : Config.Parameters
  deriving DecidableEq, Repr

/-- The parameters that only the construction of an instance reads (00_scope.md R12, D6, D7, D30). -/
structure ResetParameters where
  /-- `MEMORY_MAP`: the resources with their contents and ranges (D30). The current banks in it are not read. -/
  memoryMap : Memory
  /-- `RESET_PC` (D7). -/
  resetPc : Word
  /-- `INIT_REGS` (D6): every register but PC, whose cells are not read. -/
  initRegs : RegBank
  /-- `INIT_REGS` of the alternate bank (D6). -/
  initAlternate : RegBank
  deriving DecidableEq, Repr

/-- A bank of zeros. The spec leaves the registers unspecified at reset (10_state.md R65). DESIGN CHOICE,
unsafe. Log 1, 2. -/
def RegBank.zero : RegBank :=
  { a := 0, f := 0, b := 0, c := 0, d := 0, e := 0, h := 0, l := 0
    sp := 0, pc := 0, ix := 0, iy := 0, ir := 0, pir := 0 }

/-- The machine right after the construction of an instance with the given parameters (10_state.md R65,
70_reset_and_hazards.md R510): PC at `RESET_PC`, System mode, current bank 0 of
every Banked ROM, all seven signals 0, no fault recorded. -/
def State.resetWith (p : Config.Parameters) (r : ResetParameters) : State :=
  { regs := { r.initRegs with pc := r.resetPc }
    alt := r.initAlternate
    signals :=
      { haltSignal := false, stopSignal := false, interruptMasterEnable := false
        clearInterruptStatusSignal := false, isExecutionAborted := false
        userModeRequested := false, userModeSourceOperandRequested := false }
    mode := .system
    mem := r.memoryMap.atConstruction
    fault := none
    draws := 0
    params := p }

/-- The reset parameters of `State.reset`. DESIGN CHOICE, unsafe. Log 1, 2, 3, 5. -/
def ResetParameters.default : ResetParameters :=
  { memoryMap := Params.memoryMap, resetPc := Params.resetPc, initRegs := RegBank.zero
    initAlternate := RegBank.zero }

/-- The machine right after reset, at the parameters' defaults. -/
def State.reset : State := State.resetWith Params.default ResetParameters.default

end Sys2Proof.Machine
end

