-- ==== Sys2Proof/Machine/Memory.lean ====
section
/-! DEFINITION. The Memory Controller and the Memory Resources: routing, reading, writing, the straddle
check, the canonical form (20_memory.md R80 to R95). -/

namespace Sys2Proof.Machine

/-! ## Contents -/

/-- The byte a cell list holds at offset `o`; an unlisted one reads `Params.unwrittenByte`. -/
def cellGet : List Host.Cell → Nat → Byte
  | [], _ => Params.unwrittenByte
  | (k, v) :: rest, o => if k = o then v else cellGet rest o

/-- The cell list with byte `v` at offset `o`, in canonical form: writing what an unlisted offset reads as
removes the entry. -/
def cellSet : List Host.Cell → Nat → Byte → List Host.Cell
  | [], o, v => if v = Params.unwrittenByte then [] else [(o, v)]
  | (k, b) :: rest, o, v =>
    if o < k then (if v = Params.unwrittenByte then (k, b) :: rest else (o, v) :: (k, b) :: rest)
    else if o = k then (if v = Params.unwrittenByte then rest else (o, v) :: rest)
    else (k, b) :: cellSet rest o v

/-- The canonical form of a cell list: offsets strictly rising from `low`, all below `size`, no byte equal
to what an unlisted offset reads as. -/
def cellsWf (size : Nat) : Nat → List Host.Cell → Bool
  | _, [] => true
  | low, (k, v) :: rest =>
    decide (low ≤ k) && decide (k < size) && decide (v ≠ Params.unwrittenByte) && cellsWf size (k + 1) rest

/-! ## Memory Resources -/

/-- `BankCount() = Size() / BankSize()`; `none` for a resource without banks (20_memory.md R84). -/
def Resource.bankCount? (r : Resource) : Option Nat :=
  match r.kind with
  | .bankedRom bankSize _ => some (r.size / bankSize)
  | .rom | .ram => none

/-- Where offset `o` lands in the contents: for a Banked ROM
`CurrentBank() * BankSize() + (o mod BankSize())`, else `o` (20_memory.md R81, R84). -/
def Resource.effectiveOffset (r : Resource) (o : Nat) : Nat :=
  match r.kind with
  | .bankedRom bankSize currentBank => currentBank * bankSize + o % bankSize
  | .rom | .ram => o

/-- `Read(o, Byte)` (20_memory.md R81, R84). -/
def Resource.readByte (r : Resource) (o : Nat) : Except FaultCause Byte :=
  if o < r.size then .ok (cellGet r.cells (r.effectiveOffset o)) else .error (.outOfBounds o)

/-- The resource with byte `v` at contents offset `o`. -/
def Resource.put (r : Resource) (o : Nat) (v : Byte) : Resource :=
  { r with cells := cellSet r.cells o v }

/-- `Write(v, o)`: stores in a RAM, raises on a ROM or Banked ROM for every offset (20_memory.md R82, R83,
R85). `a` and `d` are the address and domain of the fault's info (60_exceptions.md R471). -/
def Resource.writeByte (r : Resource) (o : Nat) (v : Byte) (a : Word) (d : Domain) :
    Except FaultCause Resource :=
  match r.kind with
  | .rom | .bankedRom _ _ => .error (.readOnlyWrite a d)
  | .ram => if o < r.size then .ok (r.put o v) else .error (.outOfBounds o)

/-- The current bank is a bank, or the initial bank 0 (20_memory.md R84). -/
def ResourceKind.bankOk (k : ResourceKind) (size : Nat) : Bool :=
  match k with
  | .bankedRom bankSize currentBank => decide (currentBank < size / bankSize) || currentBank == 0
  | .rom | .ram => true

/-- A resource's contents are canonical and its bank legal. -/
def Resource.wf (r : Resource) : Bool := cellsWf r.size 0 r.cells && r.kind.bankOk r.size

/-! ## Address ranges and the resource table -/

/-- Whether a range contains an address (20_memory.md R88). -/
def AddressRange.contains (g : AddressRange) (a : Word) : Bool :=
  match g.type with
  | .halfOpen => decide (g.first.toNat ≤ a.toNat) && decide (a.toNat < g.last.toNat)
  | .closed => decide (g.first.toNat ≤ a.toNat) && decide (a.toNat ≤ g.last.toNat)

/-- One past the last address of a range. -/
def AddressRange.bound (g : AddressRange) : Nat :=
  match g.type with
  | .halfOpen => g.last.toNat
  | .closed => g.last.toNat + 1

/-- The length of a range (20_memory.md R88). The spec's `end - begin` is integer arithmetic (00_scope.md R14), so a range
whose end lies below its begin has a negative length, which is no resource's size. DEDUCED, safe. Log 27. -/
def AddressRange.length (g : AddressRange) : Int := (g.bound : Int) - g.first.toNat

/-- Whether two ranges share at least one address (20_memory.md R90). -/
def AddressRange.overlaps (g g' : AddressRange) : Bool :=
  decide (max g.first.toNat g'.first.toNat < min g.bound g'.bound)

/-- The local offset of an address in an entry (20_memory.md R88, R93). -/
def Entry.offset (e : Entry) (a : Word) : Nat := a.toNat - e.range.first.toNat

/-- The entry of domain `d` whose range contains `a` (20_memory.md R93; at most one matches, D33). -/
def Memory.route (m : Memory) (d : Domain) (a : Word) : Option Entry :=
  m.table.find? fun e => e.ownership == d && e.range.contains a

/-- Whether some entry of domain `d` covers `a`. -/
def Memory.covers (m : Memory) (d : Domain) (a : Word) : Bool := (m.route d a).isSome

/-- The resource an address is routed to, with its number and the local offset. An entry whose number
names no resource routes nowhere; `Memory.wf` excludes such an entry (log 18). -/
def Memory.target (m : Memory) (d : Domain) (a : Word) : Option (Nat × Resource × Nat) :=
  match m.route d a with
  | none => none
  | some e =>
    match m.resources[e.resource]? with
    | none => none
    | some r => some (e.resource, r, e.offset a)

/-- `Read(a, Byte)` in domain `d` (20_memory.md R93). -/
def Memory.readByte (m : Memory) (d : Domain) (a : Word) (kind : AccessKind) : Except FaultCause Byte :=
  match m.target d a with
  | none => .error (.unmapped a d kind)
  | some (_, r, o) => r.readByte o

/-- `Write(v, a)` in domain `d` with an 8-bit `v` (20_memory.md R95). -/
def Memory.writeByte (m : Memory) (d : Domain) (a : Word) (v : Byte) : Except FaultCause Memory :=
  match m.target d a with
  | none => .error (.unmapped a d .write)
  | some (n, r, o) =>
    match r.writeByte o v a d with
    | .error c => .error c
    | .ok r' => .ok { m with resources := m.resources.set n r' }

/-- The last byte of a Banked ROM's window (20_memory.md R94). -/
def Resource.atBankEdge (r : Resource) (o : Nat) : Bool :=
  match r.kind with
  | .bankedRom bankSize _ => decide (o % bankSize + 1 = bankSize)
  | .rom | .ram => false

/-- Whether the two bytes at `a` and `a + 1` are one 16-bit access that does not straddle: both in the entry
that covers `a`, not across a bank window, `a` not 0xFFFF (20_memory.md R94). -/
def Memory.pairInOneEntry (m : Memory) (d : Domain) (a : Word) : Bool :=
  match m.route d a with
  | none => false
  | some e =>
    match m.resources[e.resource]? with
    | none => false
    | some r => e.range.contains (a + 1) && !(r.atBankEdge (e.offset a)) && a != 0xFFFF#16

/-- The straddle check for either value of `STRADDLE_FAULT` (20_memory.md R94): the cause to raise before
the first byte is accessed, if any. -/
def Memory.straddleCheck (m : Memory) (enabled : Bool) (d : Domain) (a : Word) (kind : AccessKind) :
    Option FaultCause :=
  if !enabled then none
  else if (m.target d a).isNone then some (.unmapped a d kind)
  else if m.pairInOneEntry d a then none
  else some (.straddle a d)

/-! ## Views used by statements -/

/-- The byte at an address as `Read(a, Byte)` gives it, if it gives one: the model's read of one byte. -/
def Memory.peek (m : Memory) (d : Domain) (a : Word) : Option Byte :=
  match m.readByte d a .read with
  | .ok b => some b
  | .error _ => none

/-- The place an address names: the resource's number and the offset in its contents. -/
def Memory.locate (m : Memory) (d : Domain) (a : Word) : Option (Nat × Nat) :=
  match m.target d a with
  | none => none
  | some (n, r, o) => if o < r.size then some (n, r.effectiveOffset o) else none

/-- Whether `Write(v, a)` stores: `a` is routed to a RAM byte (20_memory.md R83, R95). -/
def Memory.writable (m : Memory) (d : Domain) (a : Word) : Bool :=
  match m.target d a with
  | none => false
  | some (_, r, o) => r.kind == .ram && decide (o < r.size)

/-- The byte of resource `n` at contents offset `o`. -/
def Memory.cell (m : Memory) (n o : Nat) : Option Byte :=
  match m.resources[n]? with
  | none => none
  | some r => some (cellGet r.cells o)

/-! ## The canonical form -/

/-- An entry names a resource whose size is the range's length (20_memory.md R90). -/
def Entry.wf (rs : List Resource) (e : Entry) : Bool :=
  match rs[e.resource]? with
  | none => false
  | some r => (r.size : Int) == e.range.length

/-- The invariant of the resource table (20_memory.md R89): sorted by range start, no two entries of one
domain overlapping. -/
def tableWf : List Entry → Bool
  | [] => true
  | e :: rest =>
    rest.all (fun e' => decide (e.range.first.toNat ≤ e'.range.first.toNat)
      && (e.ownership != e'.ownership || !(e.range.overlaps e'.range)))
    && tableWf rest

/-- The form every memory has: canonical contents, legal banks, a sorted table without overlaps, each
entry's size its resource's. -/
def Memory.wf (m : Memory) : Bool :=
  m.resources.all Resource.wf && m.table.all (Entry.wf m.resources) && tableWf m.table

end Sys2Proof.Machine
end

