-- ==== Sys2Proof/Machine/Ops.lean ====
section
/-! DEFINITION. The named operations over registers, flags, signals and memory that the meanings are written
with, and raising a fault (00_scope.md R16 to R21). -/

namespace Sys2Proof.Machine

/-- What a meaning answers. -/
abbrev Result := Host.Outcome State Fault Refusal

/-! ## The register bank (10_state.md R31 to R35) -/

/-- `Read(r)`. -/
def RegBank.reg (k : RegBank) (r : Reg8) : Byte :=
  match r with
  | .a => k.a
  | .f => k.f
  | .b => k.b
  | .c => k.c
  | .d => k.d
  | .e => k.e
  | .h => k.h
  | .l => k.l
  | .ir => k.ir
  | .pir => k.pir

/-- `Write(r, v)`. -/
def RegBank.setReg (k : RegBank) (r : Reg8) (v : Byte) : RegBank :=
  match r with
  | .a => { k with a := v }
  | .f => { k with f := v }
  | .b => { k with b := v }
  | .c => { k with c := v }
  | .d => { k with d := v }
  | .e => { k with e := v }
  | .h => { k with h := v }
  | .l => { k with l := v }
  | .ir => { k with ir := v }
  | .pir => { k with pir := v }

/-- `ReadPair(rr)`: `(high << 8) | low`. -/
def RegBank.pair (k : RegBank) (rr : Reg16) : Word :=
  match rr with
  | .af => Word.ofBytes k.a k.f
  | .bc => Word.ofBytes k.b k.c
  | .de => Word.ofBytes k.d k.e
  | .hl => Word.ofBytes k.h k.l
  | .sp => k.sp
  | .pc => k.pc
  | .ix => k.ix
  | .iy => k.iy

/-- `WritePair(rr, v)`: `v[15:8]` to the high cell, `v[7:0]` to the low cell. -/
def RegBank.setPair (k : RegBank) (rr : Reg16) (v : Word) : RegBank :=
  match rr with
  | .af => { k with a := v.high, f := v.low }
  | .bc => { k with b := v.high, c := v.low }
  | .de => { k with d := v.high, e := v.low }
  | .hl => { k with h := v.high, l := v.low }
  | .sp => { k with sp := v }
  | .pc => { k with pc := v }
  | .ix => { k with ix := v }
  | .iy => { k with iy := v }

/-! ## The same through the state (00_scope.md R16) -/

/-- `x[r]`. -/
def State.reg (s : State) (r : Reg8) : Byte := s.regs.reg r

/-- `x[r] <- v`. -/
def State.setReg (s : State) (r : Reg8) (v : Byte) : State := { s with regs := s.regs.setReg r v }

/-- `xp[rr]`. -/
def State.pair (s : State) (rr : Reg16) : Word := s.regs.pair rr

/-- `xp[rr] <- v`. -/
def State.setPair (s : State) (rr : Reg16) (v : Word) : State := { s with regs := s.regs.setPair rr v }

/-- `F.f` (10_state.md R40). -/
def State.flag (s : State) (f : Flag) : Bool := readFlag s.params.flagLayout (s.reg .f) f

/-- `F.f <- b` (10_state.md R40). -/
def State.writeFlag (s : State) (f : Flag) (b : Bool) : State :=
  s.setReg .f (Sys2Proof.Machine.writeFlag s.params.flagLayout (s.reg .f) f b)

/-- Writes all four flags, the other bits of F unchanged. -/
def State.writeFlags (s : State) (z n h cy : Bool) : State :=
  (((s.writeFlag .z z).writeFlag .n n).writeFlag .h h).writeFlag .cy cy

/-- `cond(cc)` (00_scope.md R21). -/
def State.cond (s : State) (cc : Cond) : Bool :=
  match cc with
  | .nz => !s.flag .z
  | .z => s.flag .z
  | .nc => !s.flag .cy
  | .c => s.flag .cy

/-! ## Signals (10_state.md R45 to R52) -/

def State.setHalt (s : State) (v : Bool) : State := { s with signals := { s.signals with haltSignal := v } }
def State.setStop (s : State) (v : Bool) : State := { s with signals := { s.signals with stopSignal := v } }
def State.setAborted (s : State) (v : Bool) : State :=
  { s with signals := { s.signals with isExecutionAborted := v } }
def State.setUserModeRequested (s : State) (v : Bool) : State :=
  { s with signals := { s.signals with userModeRequested := v } }
def State.setUserSourceRequested (s : State) (v : Bool) : State :=
  { s with signals := { s.signals with userModeSourceOperandRequested := v } }

/-- `InterruptMasterEnable <- ime; ClearInterruptStatusSignal <- clear` (R48, R49). -/
def State.setInterruptSignals (s : State) (ime clear : Bool) : State :=
  { s with signals :=
      { s.signals with interruptMasterEnable := ime, clearInterruptStatusSignal := clear } }

/-! ## Raising (00_scope.md R20) -/

/-- `raise E(info)`: the instruction stops at this access, with memory as the writes before it left it
(60_exceptions.md R476); the exception is the cause's. -/
def State.raise (s : State) (c : FaultCause) : Result := .fault (.raised c s.mem)

/-- Goes on with a value, or raises. -/
def State.orRaise {α : Type} (s : State) (r : Except FaultCause α) (k : α → Result) : Result :=
  match r with
  | .ok v => k v
  | .error c => s.raise c

/-- Goes on unless there is a cause to raise. -/
def State.unlessRaised (s : State) (c : Option FaultCause) (k : Result) : Result :=
  match c with
  | none => k
  | some c => s.raise c

/-- The straddle check of a 16-bit access at `a` (20_memory.md R94). -/
def State.checkStraddle (s : State) (a : Word) (kind : AccessKind) (k : Result) : Result :=
  s.unlessRaised (s.mem.straddleCheck s.params.straddleFault s.mode a kind) k

/-! ## Memory through the state (00_scope.md R17, R19) -/

/-- `MemRead_D(a, 1)` as a data read, and on with the byte. -/
def State.readIn (s : State) (d : Domain) (a : Word) (k : Byte → Result) : Result :=
  s.orRaise (s.mem.readByte d a .read) k

/-- `MemRead(a, 1)` as a data read, and on with the byte. -/
def State.read (s : State) (a : Word) (k : Byte → Result) : Result := s.readIn s.mode a k

/-- `MemWrite(a, 1, v)`, and on with the state that has the byte stored. -/
def State.write (s : State) (a : Word) (v : Byte) (k : State → Result) : Result :=
  s.orRaise (s.mem.writeByte s.mode a v) fun m => k { s with mem := m }

/-- `push16(v)`: the straddle check on `sp - 2`, the high byte at `sp - 1`, the low byte at `sp - 2`,
`sp <- sp - 2` (00_scope.md R19, 46_stack.md R410). -/
def State.push16 (s : State) (v : Word) (k : State → Result) : Result :=
  s.checkStraddle (s.pair .sp - 2) .write <|
    s.write (s.pair .sp - 1) v.high fun s1 =>
      s1.write (s.pair .sp - 2) v.low fun s2 => k (s2.setPair .sp (s.pair .sp - 2))

/-- `pop16()`: the straddle check on `sp`, the low byte at `sp`, the high byte at `sp + 1`,
`sp <- sp + 2` (00_scope.md R19, 46_stack.md R410). -/
def State.pop16 (s : State) (k : Word → State → Result) : Result :=
  s.checkStraddle (s.pair .sp) .read <|
    s.read (s.pair .sp) fun low =>
      s.read (s.pair .sp + 1) fun high =>
        k (Word.ofBytes high low) (s.setPair .sp (s.pair .sp + 2))

/-- `MemWrite(a, 2, v)`: the straddle check on `a`, the low byte at `a`, the high byte at `a + 1`
(00_scope.md R17). -/
def State.write16 (s : State) (a v : Word) (k : State → Result) : Result :=
  s.checkStraddle a .write <|
    s.write a v.low fun s1 => s1.write (a + 1) v.high k

/-! ## The exception of a cause (60_exceptions.md R470, R471) -/

/-- The exception a cause belongs to. -/
def exceptionOf (c : FaultCause) : ExceptionName :=
  match c with
  | .readOnlyWrite _ _ | .outOfBounds _ | .loadOverflow _ _ => .memoryAccess
  | .unmapped _ _ _ | .straddle _ _ | .sizeMismatch _ | .overlap _ | .notRegistered _ => .memoryController
  | .badBank _ => .bankedMemory
  | .badRegister _ => .registerBank
  | .undecodable _ | .unmodelled _ _ => .instruction

/-- The code of an exception (60_exceptions.md R470, D28). -/
def exceptionCode (e : ExceptionName) : Nat :=
  match e with
  | .memoryAccess => 1
  | .memoryController => 2
  | .bankedMemory => 3
  | .registerBank => 4
  | .instruction => 5
  | .arithmeticLogicUnit => 6
  | .clockSource => 7
  | .channel => 8

end Sys2Proof.Machine
end

