-- ==== Sys2Proof/Machine/Operands.lean ====
section
/-! DEFINITION. Every operand form: effective addresses (45_load_store.md R360), the acquire and write-back
steps of the Control Unit (40_control_unit.md R177, R182), and the shapes of computation that the families
share. -/

namespace Sys2Proof.Machine

/-! ## Effective addresses (45_load_store.md R360) -/

/-- A memory operand of a load or store. -/
inductive MemOperand where
  /-- `(HL)`, `(BC)`, `(DE)`, and `(HL+)`, `(HL-)` before their update. -/
  | atPair (rr : Reg16)
  /-- `(nn)`. -/
  | absolute (nn : Word)
  /-- `(n)` of `LDH`: `0xFF00 + n`. -/
  | page (n : Byte)
  /-- `(C)`: `0xFF00 + x[C]`. -/
  | pageC
  deriving DecidableEq, Repr

/-- The effective address of a memory operand (45_load_store.md R360, 30_encoding.md R133). -/
def State.address (s : State) (o : MemOperand) : Word :=
  match o with
  | .atPair rr => s.pair rr
  | .absolute nn => nn
  | .page n => 0xFF00#16 + zext16 n
  | .pageC => 0xFF00#16 + zext16 (s.reg .c)

/-! ## Acquire and write-back steps (40_control_unit.md R177, R182) -/

/-- `AcquireOperand1AtRegister`, `AcquireOperand1Implicitly`, `AcquireOperand2AtComposedAddress`,
`AcquireOperand3`: the byte at the operand's address in domain `d`. -/
def State.acquire (s : State) (d : Domain) (o : MemOperand) (k : Byte → Result) : Result :=
  s.readIn d (s.address o) k

/-- `WriteBackAtRegisterAddress`, `WriteBackAtOperandAddress`, `WriteBackAtComposedAddress`,
`WriteBackAtImplicitRegisterAddress`, `WriteBackAtImplicitImmediateAddress`: stores a byte at the operand's
address. -/
def State.writeBack (s : State) (o : MemOperand) (v : Byte) (k : State → Result) : Result :=
  s.write (s.address o) v k

/-- The byte at `xp[HL]` in the current domain (41_arithmetic.md R205). -/
def State.acquireHl (s : State) (k : Byte → Result) : Result := s.acquire s.mode (.atPair .hl) k

/-- The read-modify-write of the byte at `xp[HL]` (40_control_unit.md R181 mode 11): `f` gives the byte to
store and the state with the flags written. -/
def State.modifyHl (s : State) (f : Byte → Byte × State) : Result :=
  s.acquireHl fun m => (f m).2.writeBack (.atPair .hl) (f m).1 .next

/-! ## 8-bit arithmetic and logic on A -/

/-- Writes a result and the flags of the add and subtract families (41_arithmetic.md R200). -/
def State.flagsOf (s : State) (o : Alu8) (n : Bool) : State := s.writeFlags (o.res == 0#8) n o.h o.cy

/-- `(res, h, cy) <- add8(x[A], v, c); x[A] <- res` and the flags (41_arithmetic.md R210, R213). -/
def State.addA (s : State) (v : Byte) (c : Bool) : State :=
  (s.setReg .a (add8 (s.reg .a) v c).res).flagsOf (add8 (s.reg .a) v c) false

/-- `(res, h, cy) <- sub8(x[A], v, c); x[A] <- res` and the flags (41_arithmetic.md R216, R219). -/
def State.subA (s : State) (v : Byte) (c : Bool) : State :=
  (s.setReg .a (sub8 (s.reg .a) v c).res).flagsOf (sub8 (s.reg .a) v c) true

/-- `sub8(x[A], v, 0)`, the flags only (41_arithmetic.md R222). -/
def State.cpA (s : State) (v : Byte) : State := s.flagsOf (sub8 (s.reg .a) v false) true

/-- `x[A] <- v` and the flags of AND, XOR, OR, with `h` 1 for AND (42_logical.md R260). -/
def State.logicA (s : State) (v : Byte) (h : Bool) : State :=
  (s.setReg .a v).writeFlags (v == 0#8) false h false

/-- The flags of INC: Z, N = 0, H; CY unchanged (41_arithmetic.md R225). -/
def State.incFlags (s : State) (v : Byte) : State :=
  ((s.writeFlag .z ((add8 v 1 false).res == 0#8)).writeFlag .n false).writeFlag .h (add8 v 1 false).h

/-- The flags of DEC: Z, N = 1, H; CY unchanged (41_arithmetic.md R227). -/
def State.decFlags (s : State) (v : Byte) : State :=
  ((s.writeFlag .z ((sub8 v 1 false).res == 0#8)).writeFlag .n true).writeFlag .h (sub8 v 1 false).h

/-- The flags of `ADD SP,e` and `LD HL,SP+e`: Z = 0, N = 0, H, CY (41_arithmetic.md R232). -/
def State.spFlags (s : State) (o : Alu16) : State := s.writeFlags false false o.h o.cy

/-! ## Shifts and bits -/

/-- The flags of a `0xCB` rotate or shift: Z of the result, N = 0, H = 0, CY the bit out
(43_bit_rotate.md R280). -/
def State.shiftFlags (s : State) (o : ShiftOut) : State := s.writeFlags (o.res == 0#8) false false o.out

/-- A `0xCB` rotate or shift of a register (43_bit_rotate.md R280, R307). -/
def State.shiftReg (s : State) (r : Reg8) (o : ShiftOut) : State := (s.setReg r o.res).shiftFlags o

/-- A `0xCB` rotate or shift of the byte at `xp[HL]` (43_bit_rotate.md R280, R307). -/
def State.shiftHl (s : State) (f : Byte → ShiftOut) : Result :=
  s.modifyHl fun m => ((f m).res, s.shiftFlags (f m))

/-- An accumulator rotate: Z = 0, N = 0, H = 0, CY the bit out (43_bit_rotate.md R280, C8). -/
def State.rotateA (s : State) (o : ShiftOut) : State :=
  (s.setReg .a o.res).writeFlags false false false o.out

/-- The flags of BIT: Z = the tested bit complemented, N = 0, H = 1, CY unchanged (43_bit_rotate.md R301). -/
def State.bitFlags (s : State) (v : Byte) (b : BitVec 3) : State :=
  ((s.writeFlag .z (!v.getLsbD b.toNat)).writeFlag .n false).writeFlag .h true

/-! ## Loads, stores, control transfer -/

/-- `x[r] <- MemRead_D(address, 1)` (45_load_store.md R360). -/
def State.loadReg (s : State) (r : Reg8) (d : Domain) (o : MemOperand) : Result :=
  s.acquire d o fun m => .next (s.setReg r m)

/-- `x[A] <- MemRead_D(xp[HL], 1); xp[HL] <- xp[HL] + delta` (45_load_store.md R372, R373). -/
def State.loadAStep (s : State) (d : Domain) (delta : Word) : Result :=
  s.acquire d (.atPair .hl) fun m => .next ((s.setReg .a m).setPair .hl (s.pair .hl + delta))

/-- `MemWrite(address, 1, v)` (45_load_store.md R360). -/
def State.storeByte (s : State) (o : MemOperand) (v : Byte) : Result := s.writeBack o v .next

/-- `MemWrite(xp[HL], 1, x[A]); xp[HL] <- xp[HL] + delta` (45_load_store.md R374, R375). -/
def State.storeAStep (s : State) (delta : Word) : Result :=
  s.writeBack (.atPair .hl) (s.reg .a) fun s1 => .next (s1.setPair .hl (s.pair .hl + delta))

/-- `pc <- target` (00_scope.md R16). -/
def State.jump (s : State) (target : Word) : State := s.setPair .pc target

/-- The target of a relative jump: `pc_next + sext_16(e)` (44_control_flow.md R320). -/
def State.relativeTarget (s : State) (e : Byte) : Word := s.pair .pc + sext16 e

/-- `push16(pc); pc <- target` (44_control_flow.md R326). -/
def State.callTo (s : State) (target : Word) : Result :=
  s.push16 (s.pair .pc) fun s1 => .next (s1.jump target)

/-- `pc <- pop16()` (44_control_flow.md R328), and on. -/
def State.returnThen (s : State) (k : State → Result) : Result :=
  s.pop16 fun v s1 => k (s1.jump v)

/-- `ConditionallyExecute`: the taken work if `cond(cc)`, else `IsExecutionAborted <- 1` and nothing more
(40_control_unit.md R183). -/
def State.conditionally (s : State) (cc : Cond) (taken : Result) : Result :=
  if s.cond cc then taken else .next (s.setAborted true)

/-- The User-domain source request an `LDU` form makes at decode (48_gbx_privilege.md R452). -/
def State.requestUserSource (s : State) : State := s.setUserSourceRequested true

end Sys2Proof.Machine
end

