-- ==== Sys2Proof/Machine/Arithmetic.lean ====
section
/-! DEFINITION. The arithmetic instructions (41_arithmetic.md). -/

namespace Sys2Proof.Machine

/-- `INC rr` (R229). -/
def execIncRr (rr : Reg16) (s : State) : Result :=
  .next (s.setPair rr (s.pair rr + 1))

/-- `DEC rr` (R230). -/
def execDecRr (rr : Reg16) (s : State) : Result :=
  .next (s.setPair rr (s.pair rr - 1))

/-- `INC r` (R225). -/
def execIncR (r : Reg8) (s : State) : Result :=
  .next ((s.setReg r (add8 (s.reg r) 1 false).res).incFlags (s.reg r))

/-- `INC (HL)` (R226). -/
def execIncHl (s : State) : Result :=
  s.modifyHl fun m => ((add8 m 1 false).res, s.incFlags m)

/-- `DEC r` (R227). -/
def execDecR (r : Reg8) (s : State) : Result :=
  .next ((s.setReg r (sub8 (s.reg r) 1 false).res).decFlags (s.reg r))

/-- `DEC (HL)` (R228). -/
def execDecHl (s : State) : Result :=
  s.modifyHl fun m => ((sub8 m 1 false).res, s.decFlags m)

/-- `ADD HL,rr` (R231). -/
def execAddHlRr (rr : Reg16) (s : State) : Result :=
  let o := add16 (s.pair .hl) (s.pair rr)
  .next ((((s.setPair .hl o.res).writeFlag .n false).writeFlag .h o.h).writeFlag .cy o.cy)

/-- `DAA` (R233). -/
def execDaa (s : State) : Result :=
  let o := daaAdjust (s.reg .a) (s.flag .n) (s.flag .h) (s.flag .cy)
  .next ((((s.setReg .a o.1).writeFlag .z (o.1 == 0#8)).writeFlag .h false).writeFlag .cy o.2)

/-- `ADD A,r` (R210). -/
def execAddR (r : Reg8) (s : State) : Result :=
  .next (s.addA (s.reg r) false)

/-- `ADD A,(HL)` (R211). -/
def execAddHl (s : State) : Result :=
  s.acquireHl fun m => .next (s.addA m false)

/-- `ADD A,n` (R212). -/
def execAddN (n : Byte) (s : State) : Result :=
  .next (s.addA n false)

/-- `ADC A,r` (R213). -/
def execAdcR (r : Reg8) (s : State) : Result :=
  .next (s.addA (s.reg r) (s.flag .cy))

/-- `ADC A,(HL)` (R214). -/
def execAdcHl (s : State) : Result :=
  s.acquireHl fun m => .next (s.addA m (s.flag .cy))

/-- `ADC A,n` (R215). -/
def execAdcN (n : Byte) (s : State) : Result :=
  .next (s.addA n (s.flag .cy))

/-- `SUB r` (R216). -/
def execSubR (r : Reg8) (s : State) : Result :=
  .next (s.subA (s.reg r) false)

/-- `SUB (HL)` (R217). -/
def execSubHl (s : State) : Result :=
  s.acquireHl fun m => .next (s.subA m false)

/-- `SUB n` (R218). -/
def execSubN (n : Byte) (s : State) : Result :=
  .next (s.subA n false)

/-- `SBC A,r` (R219). -/
def execSbcR (r : Reg8) (s : State) : Result :=
  .next (s.subA (s.reg r) (s.flag .cy))

/-- `SBC A,(HL)` (R220). -/
def execSbcHl (s : State) : Result :=
  s.acquireHl fun m => .next (s.subA m (s.flag .cy))

/-- `SBC A,n` (R221). -/
def execSbcN (n : Byte) (s : State) : Result :=
  .next (s.subA n (s.flag .cy))

/-- `CP r` (R222). -/
def execCpR (r : Reg8) (s : State) : Result :=
  .next (s.cpA (s.reg r))

/-- `CP (HL)` (R223). -/
def execCpHl (s : State) : Result :=
  s.acquireHl fun m => .next (s.cpA m)

/-- `CP n` (R224). -/
def execCpN (n : Byte) (s : State) : Result :=
  .next (s.cpA n)

/-- `ADD SP,e` (R232). -/
def execAddSpE (e : Byte) (s : State) : Result :=
  let o := addsp s.params.spFlagRule (s.pair .sp) e
  .next ((s.setPair .sp o.res).spFlags o)

end Sys2Proof.Machine
end

