-- ==== Sys2Proof/Machine/BitRotate.lean ====
section
/-! DEFINITION. The rotate, shift and bit instructions (43_bit_rotate.md). -/

namespace Sys2Proof.Machine

/-- `RLCA` (R281). -/
def execRlca (s : State) : Result :=
  .next (s.rotateA (rlc (s.reg .a)))

/-- `RRCA` (R282). -/
def execRrca (s : State) : Result :=
  .next (s.rotateA (rrc (s.reg .a)))

/-- `RLA` (R283). -/
def execRla (s : State) : Result :=
  .next (s.rotateA (rl (s.reg .a) (s.flag .cy)))

/-- `RRA` (R284). -/
def execRra (s : State) : Result :=
  .next (s.rotateA (rr (s.reg .a) (s.flag .cy)))

/-- `RLC r` (R285). -/
def execRlcR (r : Reg8) (s : State) : Result :=
  .next (s.shiftReg r (rlc (s.reg r)))

/-- `RLC (HL)` (R286). -/
def execRlcHl (s : State) : Result :=
  s.shiftHl rlc

/-- `RRC r` (R287). -/
def execRrcR (r : Reg8) (s : State) : Result :=
  .next (s.shiftReg r (rrc (s.reg r)))

/-- `RRC (HL)` (R288). -/
def execRrcHl (s : State) : Result :=
  s.shiftHl rrc

/-- `RL r` (R289). -/
def execRlR (r : Reg8) (s : State) : Result :=
  .next (s.shiftReg r (rl (s.reg r) (s.flag .cy)))

/-- `RL (HL)` (R290). -/
def execRlHl (s : State) : Result :=
  s.shiftHl fun m => rl m (s.flag .cy)

/-- `RR r` (R291). -/
def execRrR (r : Reg8) (s : State) : Result :=
  .next (s.shiftReg r (rr (s.reg r) (s.flag .cy)))

/-- `RR (HL)` (R292). -/
def execRrHl (s : State) : Result :=
  s.shiftHl fun m => rr m (s.flag .cy)

/-- `SLA r` (R293). -/
def execSlaR (r : Reg8) (s : State) : Result :=
  .next (s.shiftReg r (sla (s.reg r)))

/-- `SLA (HL)` (R294). -/
def execSlaHl (s : State) : Result :=
  s.shiftHl sla

/-- `SRA r` (R295). -/
def execSraR (r : Reg8) (s : State) : Result :=
  .next (s.shiftReg r (sra (s.reg r)))

/-- `SRA (HL)` (R296). -/
def execSraHl (s : State) : Result :=
  s.shiftHl sra

/-- `SWAP r` (R297). -/
def execSwapR (r : Reg8) (s : State) : Result :=
  .next (s.shiftReg r (swap (s.reg r)))

/-- `SWAP (HL)` (R298). -/
def execSwapHl (s : State) : Result :=
  s.shiftHl swap

/-- `SRL r` (R299). -/
def execSrlR (r : Reg8) (s : State) : Result :=
  .next (s.shiftReg r (srl (s.reg r)))

/-- `SRL (HL)` (R300). -/
def execSrlHl (s : State) : Result :=
  s.shiftHl srl

/-- `BIT b,r` (R301). -/
def execBitR (b : BitVec 3) (r : Reg8) (s : State) : Result :=
  .next (s.bitFlags (s.reg r) b)

/-- `BIT b,(HL)` (R302). -/
def execBitHl (b : BitVec 3) (s : State) : Result :=
  s.acquireHl fun m => .next (s.bitFlags m b)

/-- `RES b,r` (R303). -/
def execResR (b : BitVec 3) (r : Reg8) (s : State) : Result :=
  .next (s.setReg r (s.reg r &&& ~~~(bitMask b)))

/-- `RES b,(HL)` (R304). -/
def execResHl (b : BitVec 3) (s : State) : Result :=
  s.modifyHl fun m => (m &&& ~~~(bitMask b), s)

/-- `SET b,r` (R305). -/
def execSetR (b : BitVec 3) (r : Reg8) (s : State) : Result :=
  .next (s.setReg r (s.reg r ||| bitMask b))

/-- `SET b,(HL)` (R306). -/
def execSetHl (b : BitVec 3) (s : State) : Result :=
  s.modifyHl fun m => (m ||| bitMask b, s)

end Sys2Proof.Machine
end

