-- ==== Sys2Proof/Machine/ControlFlow.lean ====
section
/-! DEFINITION. The control-transfer instructions (44_control_flow.md). PC already holds `pc_next`. -/

namespace Sys2Proof.Machine

/-- `JR e` (R324). -/
def execJr (e : Byte) (s : State) : Result :=
  .next (s.jump (s.relativeTarget e))

/-- `JR cc,e` (R325). -/
def execJrCc (cc : Cond) (e : Byte) (s : State) : Result :=
  s.conditionally cc (.next (s.jump (s.relativeTarget e)))

/-- `RET cc` (R329). -/
def execRetCc (cc : Cond) (s : State) : Result :=
  s.conditionally cc (s.returnThen .next)

/-- `RET` (R328). -/
def execRet (s : State) : Result :=
  s.returnThen .next

/-- `RETI` (R330). -/
def execReti (s : State) : Result :=
  s.returnThen fun s1 => .next (s1.setInterruptSignals true false)

/-- `JP cc,nn` (R322). -/
def execJpCc (cc : Cond) (nn : Word) (s : State) : Result :=
  s.conditionally cc (.next (s.jump nn))

/-- `JP nn` (R321). -/
def execJp (nn : Word) (s : State) : Result :=
  .next (s.jump nn)

/-- `JP HL` (R323). -/
def execJpHl (s : State) : Result :=
  .next (s.jump (s.pair .hl))

/-- `CALL cc,nn` (R327). -/
def execCallCc (cc : Cond) (nn : Word) (s : State) : Result :=
  s.conditionally cc (s.callTo nn)

/-- `CALL nn` (R326). -/
def execCall (nn : Word) (s : State) : Result :=
  s.callTo nn

/-- `RST t` (R331). -/
def execRst (t : BitVec 3) (s : State) : Result :=
  s.callTo (zext16 (BitVec.ofNat 8 (t.toNat * 8)))

end Sys2Proof.Machine
end

