-- ==== Sys2Proof/Machine/LoadStore.lean ====
section
/-! DEFINITION. The load and store instructions (45_load_store.md). -/

namespace Sys2Proof.Machine

/-- `LD rr,nn` (R376). -/
def execLdRrNn (rr : Reg16) (nn : Word) (s : State) : Result :=
  .next (s.setPair rr nn)

/-- `LD (BC),A` (R368). -/
def execLdBcA (s : State) : Result :=
  s.storeByte (.atPair .bc) (s.reg .a)

/-- `LD (DE),A` (R369). -/
def execLdDeA (s : State) : Result :=
  s.storeByte (.atPair .de) (s.reg .a)

/-- `LD (HL+),A` (R374). -/
def execLdHliA (s : State) : Result :=
  s.storeAStep 1

/-- `LD (HL-),A` (R375). -/
def execLdHldA (s : State) : Result :=
  s.storeAStep (-1)

/-- `LD A,(BC)` (R366). -/
def execLdABc (s : State) : Result :=
  s.loadReg .a s.mode (.atPair .bc)

/-- `LD A,(DE)` (R367). -/
def execLdADe (s : State) : Result :=
  s.loadReg .a s.mode (.atPair .de)

/-- `LD A,(HL+)` (R372). -/
def execLdAHli (s : State) : Result :=
  s.loadAStep s.mode 1

/-- `LD A,(HL-)` (R373). -/
def execLdAHld (s : State) : Result :=
  s.loadAStep s.mode (-1)

/-- `LD r,n` (R362). -/
def execLdRN (r : Reg8) (n : Byte) (s : State) : Result :=
  .next (s.setReg r n)

/-- `LD (HL),n` (R365). -/
def execLdHlN (n : Byte) (s : State) : Result :=
  s.storeByte (.atPair .hl) n

/-- `LD (nn),SP` (R378). -/
def execLdNnSp (nn : Word) (s : State) : Result :=
  s.write16 nn (s.pair .sp) .next

/-- `LD r,r'` (R361). -/
def execLdRR (r : Reg8) (r' : Reg8) (s : State) : Result :=
  .next (s.setReg r (s.reg r'))

/-- `LD r,(HL)` (R363). -/
def execLdRHl (r : Reg8) (s : State) : Result :=
  s.loadReg r s.mode (.atPair .hl)

/-- `LD (HL),r` (R364). -/
def execLdHlR (r : Reg8) (s : State) : Result :=
  s.storeByte (.atPair .hl) (s.reg r)

/-- `LDH (n),A` (R380). -/
def execLdhNA (n : Byte) (s : State) : Result :=
  s.storeByte (.page n) (s.reg .a)

/-- `LDH A,(n)` (R381). -/
def execLdhAN (n : Byte) (s : State) : Result :=
  s.loadReg .a s.mode (.page n)

/-- `LD (C),A` (R382). -/
def execLdCA (s : State) : Result :=
  s.storeByte .pageC (s.reg .a)

/-- `LD A,(C)` (R383). -/
def execLdAC (s : State) : Result :=
  s.loadReg .a s.mode .pageC

/-- `LD HL,SP+e` (R379). -/
def execLdHlSpE (e : Byte) (s : State) : Result :=
  let o := addsp s.params.spFlagRule (s.pair .sp) e
  .next ((s.setPair .hl o.res).spFlags o)

/-- `LD SP,HL` (R377). -/
def execLdSpHl (s : State) : Result :=
  .next (s.setPair .sp (s.pair .hl))

/-- `LD (nn),A` (R371). -/
def execLdNnA (nn : Word) (s : State) : Result :=
  s.storeByte (.absolute nn) (s.reg .a)

/-- `LD A,(nn)` (R370). -/
def execLdANn (nn : Word) (s : State) : Result :=
  s.loadReg .a s.mode (.absolute nn)

end Sys2Proof.Machine
end

