-- ==== Sys2Proof/Machine/Logical.lean ====
section
/-! DEFINITION. The logical instructions and flag operations (42_logical.md). -/

namespace Sys2Proof.Machine

/-- `CPL` (R270). -/
def execCpl (s : State) : Result :=
  .next (((s.setReg .a (~~~(s.reg .a))).writeFlag .n true).writeFlag .h true)

/-- `SCF` (R271). -/
def execScf (s : State) : Result :=
  .next (((s.writeFlag .n false).writeFlag .h false).writeFlag .cy true)

/-- `CCF` (R272). -/
def execCcf (s : State) : Result :=
  .next (((s.writeFlag .n false).writeFlag .h false).writeFlag .cy (!s.flag .cy))

/-- `AND r` (R261). -/
def execAndR (r : Reg8) (s : State) : Result :=
  .next (s.logicA (s.reg .a &&& (s.reg r)) true)

/-- `AND (HL)` (R262). -/
def execAndHl (s : State) : Result :=
  s.acquireHl fun m => .next (s.logicA (s.reg .a &&& m) true)

/-- `AND n` (R263). -/
def execAndN (n : Byte) (s : State) : Result :=
  .next (s.logicA (s.reg .a &&& n) true)

/-- `XOR r` (R264). -/
def execXorR (r : Reg8) (s : State) : Result :=
  .next (s.logicA (s.reg .a ^^^ (s.reg r)) false)

/-- `XOR (HL)` (R265). -/
def execXorHl (s : State) : Result :=
  s.acquireHl fun m => .next (s.logicA (s.reg .a ^^^ m) false)

/-- `XOR n` (R266). -/
def execXorN (n : Byte) (s : State) : Result :=
  .next (s.logicA (s.reg .a ^^^ n) false)

/-- `OR r` (R267). -/
def execOrR (r : Reg8) (s : State) : Result :=
  .next (s.logicA (s.reg .a ||| (s.reg r)) false)

/-- `OR (HL)` (R268). -/
def execOrHl (s : State) : Result :=
  s.acquireHl fun m => .next (s.logicA (s.reg .a ||| m) false)

/-- `OR n` (R269). -/
def execOrN (n : Byte) (s : State) : Result :=
  .next (s.logicA (s.reg .a ||| n) false)

end Sys2Proof.Machine
end

