-- ==== Sys2Proof/Machine/Privilege.lean ====
section
/-! DEFINITION. The GBX privilege instructions (48_gbx_privilege.md). -/

namespace Sys2Proof.Machine

/-- `JPU nn` (R450). The post-cycle step then switches the mode (40_control_unit.md R179). -/
def execJpu (nn : Word) (s : State) : Result :=
  .next ((s.jump nn).setUserModeRequested true)

/-- `LDU r,(HL)` (R453). The source byte comes from the User domain whatever the mode (R452). -/
def execLduRHl (r : Reg8) (s : State) : Result :=
  s.requestUserSource.loadReg r .user (.atPair .hl)

/-- `LDU A,(BC)` (R454). -/
def execLduABc (s : State) : Result :=
  s.requestUserSource.loadReg .a .user (.atPair .bc)

/-- `LDU A,(DE)` (R455). -/
def execLduADe (s : State) : Result :=
  s.requestUserSource.loadReg .a .user (.atPair .de)

/-- `LDU A,(HL+)` (R456). -/
def execLduAHli (s : State) : Result :=
  s.requestUserSource.loadAStep .user 1

/-- `LDU A,(HL-)` (R457). -/
def execLduAHld (s : State) : Result :=
  s.requestUserSource.loadAStep .user (-1)

/-- `LDU A,(nn)` (R458). -/
def execLduANn (nn : Word) (s : State) : Result :=
  s.requestUserSource.loadReg .a .user (.absolute nn)

/-- `LDHU A,(n)` (R459). -/
def execLdhuAN (n : Byte) (s : State) : Result :=
  s.requestUserSource.loadReg .a .user (.page n)

/-- `LDU A,(C)` (R460). -/
def execLduAC (s : State) : Result :=
  s.requestUserSource.loadReg .a .user .pageC

end Sys2Proof.Machine
end

