-- ==== Sys2Proof/Machine/Stack.lean ====
section
/-! DEFINITION. The stack instructions (46_stack.md). -/

namespace Sys2Proof.Machine

/-- `POP qq` (R412). `POP AF` stores all 8 bits of F (C10). -/
def execPop (qq : Reg16) (s : State) : Result :=
  s.pop16 fun v s1 => .next (s1.setPair qq v)

/-- `PUSH qq` (R411). -/
def execPush (qq : Reg16) (s : State) : Result :=
  s.push16 (s.pair qq) .next

end Sys2Proof.Machine
end

