-- ==== Sys2Proof/Machine/System.lean ====
section
/-! DEFINITION. The system and control instructions (47_system.md): they set signals, the core never stops on them. -/

namespace Sys2Proof.Machine

/-- `NOP` (R430). -/
def execNop (s : State) : Result :=
  .next s

/-- `STOP` (R432). The ignored byte was fetched with the operands. -/
def execStop (_x : Byte) (s : State) : Result :=
  .next (s.setStop true)

/-- `HALT` (R431). The core does not stop. -/
def execHalt (s : State) : Result :=
  .next (s.setHalt true)

/-- `DI` (R433). -/
def execDi (s : State) : Result :=
  .next (s.setInterruptSignals false true)

/-- `EI` (R434). -/
def execEi (s : State) : Result :=
  .next (s.setInterruptSignals true false)

end Sys2Proof.Machine
end

