-- ==== Sys2Proof/Machine/Dispatch.lean ====
section
/-! DEFINITION. One arm per instruction: a direct call of its meaning. -/

namespace Sys2Proof.Machine

def exec (i : Instr) (s : State) : Host.Outcome State Fault Refusal :=
  match i with
  | .nop => Sys2Proof.Machine.execNop s
  | .ldRrNn rr nn => Sys2Proof.Machine.execLdRrNn rr nn s
  | .ldBcA => Sys2Proof.Machine.execLdBcA s
  | .ldDeA => Sys2Proof.Machine.execLdDeA s
  | .ldHliA => Sys2Proof.Machine.execLdHliA s
  | .ldHldA => Sys2Proof.Machine.execLdHldA s
  | .ldABc => Sys2Proof.Machine.execLdABc s
  | .ldADe => Sys2Proof.Machine.execLdADe s
  | .ldAHli => Sys2Proof.Machine.execLdAHli s
  | .ldAHld => Sys2Proof.Machine.execLdAHld s
  | .incRr rr => Sys2Proof.Machine.execIncRr rr s
  | .decRr rr => Sys2Proof.Machine.execDecRr rr s
  | .incR r => Sys2Proof.Machine.execIncR r s
  | .incHl => Sys2Proof.Machine.execIncHl s
  | .decR r => Sys2Proof.Machine.execDecR r s
  | .decHl => Sys2Proof.Machine.execDecHl s
  | .ldRN r n => Sys2Proof.Machine.execLdRN r n s
  | .ldHlN n => Sys2Proof.Machine.execLdHlN n s
  | .rlca => Sys2Proof.Machine.execRlca s
  | .rrca => Sys2Proof.Machine.execRrca s
  | .rla => Sys2Proof.Machine.execRla s
  | .rra => Sys2Proof.Machine.execRra s
  | .ldNnSp nn => Sys2Proof.Machine.execLdNnSp nn s
  | .addHlRr rr => Sys2Proof.Machine.execAddHlRr rr s
  | .stop x => Sys2Proof.Machine.execStop x s
  | .jr e => Sys2Proof.Machine.execJr e s
  | .jrCc cc e => Sys2Proof.Machine.execJrCc cc e s
  | .daa => Sys2Proof.Machine.execDaa s
  | .cpl => Sys2Proof.Machine.execCpl s
  | .scf => Sys2Proof.Machine.execScf s
  | .ccf => Sys2Proof.Machine.execCcf s
  | .ldRR r r' => Sys2Proof.Machine.execLdRR r r' s
  | .ldRHl r => Sys2Proof.Machine.execLdRHl r s
  | .ldHlR r => Sys2Proof.Machine.execLdHlR r s
  | .halt => Sys2Proof.Machine.execHalt s
  | .addR r => Sys2Proof.Machine.execAddR r s
  | .addHl => Sys2Proof.Machine.execAddHl s
  | .addN n => Sys2Proof.Machine.execAddN n s
  | .adcR r => Sys2Proof.Machine.execAdcR r s
  | .adcHl => Sys2Proof.Machine.execAdcHl s
  | .adcN n => Sys2Proof.Machine.execAdcN n s
  | .subR r => Sys2Proof.Machine.execSubR r s
  | .subHl => Sys2Proof.Machine.execSubHl s
  | .subN n => Sys2Proof.Machine.execSubN n s
  | .sbcR r => Sys2Proof.Machine.execSbcR r s
  | .sbcHl => Sys2Proof.Machine.execSbcHl s
  | .sbcN n => Sys2Proof.Machine.execSbcN n s
  | .andR r => Sys2Proof.Machine.execAndR r s
  | .andHl => Sys2Proof.Machine.execAndHl s
  | .andN n => Sys2Proof.Machine.execAndN n s
  | .xorR r => Sys2Proof.Machine.execXorR r s
  | .xorHl => Sys2Proof.Machine.execXorHl s
  | .xorN n => Sys2Proof.Machine.execXorN n s
  | .orR r => Sys2Proof.Machine.execOrR r s
  | .orHl => Sys2Proof.Machine.execOrHl s
  | .orN n => Sys2Proof.Machine.execOrN n s
  | .cpR r => Sys2Proof.Machine.execCpR r s
  | .cpHl => Sys2Proof.Machine.execCpHl s
  | .cpN n => Sys2Proof.Machine.execCpN n s
  | .retCc cc => Sys2Proof.Machine.execRetCc cc s
  | .ret => Sys2Proof.Machine.execRet s
  | .reti => Sys2Proof.Machine.execReti s
  | .pop qq => Sys2Proof.Machine.execPop qq s
  | .push qq => Sys2Proof.Machine.execPush qq s
  | .jpCc cc nn => Sys2Proof.Machine.execJpCc cc nn s
  | .jp nn => Sys2Proof.Machine.execJp nn s
  | .jpHl => Sys2Proof.Machine.execJpHl s
  | .callCc cc nn => Sys2Proof.Machine.execCallCc cc nn s
  | .call nn => Sys2Proof.Machine.execCall nn s
  | .rst t => Sys2Proof.Machine.execRst t s
  | .ldhNA n => Sys2Proof.Machine.execLdhNA n s
  | .ldhAN n => Sys2Proof.Machine.execLdhAN n s
  | .ldCA => Sys2Proof.Machine.execLdCA s
  | .ldAC => Sys2Proof.Machine.execLdAC s
  | .addSpE e => Sys2Proof.Machine.execAddSpE e s
  | .ldHlSpE e => Sys2Proof.Machine.execLdHlSpE e s
  | .ldSpHl => Sys2Proof.Machine.execLdSpHl s
  | .ldNnA nn => Sys2Proof.Machine.execLdNnA nn s
  | .ldANn nn => Sys2Proof.Machine.execLdANn nn s
  | .di => Sys2Proof.Machine.execDi s
  | .ei => Sys2Proof.Machine.execEi s
  | .rlcR r => Sys2Proof.Machine.execRlcR r s
  | .rlcHl => Sys2Proof.Machine.execRlcHl s
  | .rrcR r => Sys2Proof.Machine.execRrcR r s
  | .rrcHl => Sys2Proof.Machine.execRrcHl s
  | .rlR r => Sys2Proof.Machine.execRlR r s
  | .rlHl => Sys2Proof.Machine.execRlHl s
  | .rrR r => Sys2Proof.Machine.execRrR r s
  | .rrHl => Sys2Proof.Machine.execRrHl s
  | .slaR r => Sys2Proof.Machine.execSlaR r s
  | .slaHl => Sys2Proof.Machine.execSlaHl s
  | .sraR r => Sys2Proof.Machine.execSraR r s
  | .sraHl => Sys2Proof.Machine.execSraHl s
  | .swapR r => Sys2Proof.Machine.execSwapR r s
  | .swapHl => Sys2Proof.Machine.execSwapHl s
  | .srlR r => Sys2Proof.Machine.execSrlR r s
  | .srlHl => Sys2Proof.Machine.execSrlHl s
  | .bitR b r => Sys2Proof.Machine.execBitR b r s
  | .bitHl b => Sys2Proof.Machine.execBitHl b s
  | .resR b r => Sys2Proof.Machine.execResR b r s
  | .resHl b => Sys2Proof.Machine.execResHl b s
  | .setR b r => Sys2Proof.Machine.execSetR b r s
  | .setHl b => Sys2Proof.Machine.execSetHl b s
  | .jpu nn => Sys2Proof.Machine.execJpu nn s
  | .lduRHl r => Sys2Proof.Machine.execLduRHl r s
  | .lduABc => Sys2Proof.Machine.execLduABc s
  | .lduADe => Sys2Proof.Machine.execLduADe s
  | .lduAHli => Sys2Proof.Machine.execLduAHli s
  | .lduAHld => Sys2Proof.Machine.execLduAHld s
  | .lduANn nn => Sys2Proof.Machine.execLduANn nn s
  | .ldhuAN n => Sys2Proof.Machine.execLdhuAN n s
  | .lduAC => Sys2Proof.Machine.execLduAC s

end Sys2Proof.Machine
end

