-- ==== Sys2Proof/Machine/ControlUnit.lean ====
section
/-! DEFINITION. The Control Unit: the phases of one `RunCycle` (40_control_unit.md R170 to R179). -/

namespace Sys2Proof.Machine

/-- Start of a `RunCycle`: `IsExecutionAborted <- 0` (40_control_unit.md R171). -/
def State.beginCycle (s : State) : State := s.setAborted false

/-- `b <- MemRead(pc, 1); pc <- pc + 1` as a fetch (40_control_unit.md R172, R176). -/
def State.fetchByte (s : State) : Except FaultCause (Byte × State) :=
  match s.mem.readByte s.mode (s.pair .pc) .fetch with
  | .error c => .error c
  | .ok b => .ok (b, s.setPair .pc (s.pair .pc + 1))

/-- The Fetch phase: the pre-opcode to PIR if there is one, else 0 to PIR, and the opcode to IR
(40_control_unit.md R172, 30_encoding.md R134). -/
def State.fetchOpcode (s : State) : Except FaultCause State :=
  match s.fetchByte with
  | .error c => .error c
  | .ok (b, s1) =>
    if isPreOpcode b then
      match (s1.setReg .pir b).fetchByte with
      | .error c => .error c
      | .ok (o, s2) => .ok (s2.setReg .ir o)
    else .ok ((s1.setReg .pir 0).setReg .ir b)

/-- The operand bytes at PC: `imm8()`, or `imm16()` under the straddle check (40_control_unit.md R176,
00_scope.md R18). -/
def State.fetchOperands (s : State) (t : Template) : Except FaultCause (Instr × State) :=
  match t with
  | .done i => .ok (i, s)
  | .imm8 f =>
    match s.fetchByte with
    | .error c => .error c
    | .ok (n, s1) => .ok (f n, s1)
  | .imm16 f =>
    match s.mem.straddleCheck s.params.straddleFault s.mode (s.pair .pc) .fetch with
    | some c => .error c
    | none =>
      match s.fetchByte with
      | .error c => .error c
      | .ok (low, s1) =>
        match s1.fetchByte with
        | .error c => .error c
        | .ok (high, s2) => .ok (f (Word.ofBytes high low), s2)

/-- The cause of the `InstructionException` of an opcode with no decode branch (60_exceptions.md R471,
R475). -/
def causeOfReject (r : OpcodeReject) : FaultCause :=
  match r with
  | .undecodable o => .undecodable o
  | .unmodelled p o => .unmodelled p o

/-- Fetch, decode and the acquire steps at PC. The `InstructionException` comes after the opcode and before
any operand byte (60_exceptions.md R475, R479). -/
def State.fetchInstr (s : State) : Except FaultCause (Instr × State) :=
  match s.fetchOpcode with
  | .error c => .error c
  | .ok s1 =>
    match decodeOpcode s.params (s1.reg .pir) (s1.reg .ir) with
    | .error r => .error (causeOfReject r)
    | .ok t => s1.fetchOperands t

/-- The post-cycle step: a requested switch to User mode is made, and both request signals are cleared
(40_control_unit.md R179). -/
def State.postCycle (s : State) : State :=
  if s.signals.userModeRequested then
    ({ s with mode := .user }.setUserModeRequested false).setUserSourceRequested false
  else s.setUserSourceRequested false

/-- What Execute and write-back answered becomes what the `RunCycle` answers: the post-cycle step after a
next state, the fault record with the address of the instruction's first byte after a raise
(40_control_unit.md R178, R179, 60_exceptions.md R471). -/
def finishCycle (start : Word) (r : Result) : Result :=
  match r with
  | .next t => .next t.postCycle
  | .fault (.raised c m) => .fault (.recorded { cause := c, instruction := start } m)
  | .fault f => .fault f
  | .refused q => .refused q

/-- One `RunCycle` (40_control_unit.md R178). -/
def State.runCycle (s : State) : Result :=
  match s.beginCycle.fetchInstr with
  | .error c => .fault (.recorded { cause := c, instruction := s.pair .pc } s.mem)
  | .ok (i, s1) => finishCycle (s.pair .pc) (exec i s1)

/-- The step: no step while a fault is recorded (40_control_unit.md R171, 10_state.md R60), else one
`RunCycle`. -/
def State.cycle (s : State) : Result :=
  match s.fault with
  | some r => .fault (.stopped r)
  | none => s.runCycle

end Sys2Proof.Machine
end

