-- ==== Sys2Proof/Machine/HostInterface.lean ====
section
/-! DEFINITION. What the host can do to the core between `RunCycle`s (70_reset_and_hazards.md R530, R531).
A call that fails answers its cause, has no effect, and records nothing (60_exceptions.md R478). -/

namespace Sys2Proof.Machine

/-! ## `Run()` (40_control_unit.md R170, R171; 60_exceptions.md R476) -/

/-- A bank of free values (60_exceptions.md R476). Log 13. -/
def freeBank (draw : Nat) : RegBank :=
  { a := Config.freeByte draw 0, f := Config.freeByte draw 1, b := Config.freeByte draw 2
    c := Config.freeByte draw 3, d := Config.freeByte draw 4, e := Config.freeByte draw 5
    h := Config.freeByte draw 6, l := Config.freeByte draw 7
    sp := Config.freeWord draw 0, pc := Config.freeWord draw 1
    ix := Config.freeWord draw 2, iy := Config.freeWord draw 3
    ir := Config.freeByte draw 8, pir := Config.freeByte draw 9 }

/-- Signals of free values (60_exceptions.md R476). Log 13. -/
def freeSignals (draw : Nat) : Signals :=
  { haltSignal := Config.freeBit draw 0, stopSignal := Config.freeBit draw 1
    interruptMasterEnable := Config.freeBit draw 2, clearInterruptStatusSignal := Config.freeBit draw 3
    isExecutionAborted := Config.freeBit draw 4, userModeRequested := Config.freeBit draw 5
    userModeSourceOperandRequested := Config.freeBit draw 6 }

/-- The state after a fault: the record in the fault state, memory with exactly the writes that completed before
it, every register, flag, signal and Mode a free value (60_exceptions.md R476). -/
def State.afterFault (s : State) (r : FaultRecord) (m : Memory) : State :=
  { s with
    regs := freeBank s.draws
    signals := freeSignals s.draws
    mode := if Config.freeBit s.draws 7 then .user else .system
    mem := m
    fault := some r
    draws := s.draws + 1 }

/-- The façade's `Run()`: one `RunCycle`, or nothing if a fault is recorded (70_reset_and_hazards.md R530). -/
def State.run (s : State) : State :=
  match s.cycle with
  | .next t => t
  | .fault (.recorded r m) => s.afterFault r m
  | .fault _ => s
  | .refused _ => s

/-- How many instructions `n` counted `RunCycle`s execute (40_control_unit.md R170; 90_conflicts.md C2). That the
extra `RunCycle` of the document's count is the first, which executes nothing, is the model's choice: the spec
says only how many there are. DESIGN CHOICE, unsafe. Log 11. -/
def instructionsOf (g : Config.HostStepGranularity) (n : Nat) : Nat :=
  match g with
  | .oneInstruction => n
  | .oneMore => n - 1

/-- `n` instructions through `Run()`. -/
def State.runInstructions : Nat → State → State
  | 0, s => s
  | n + 1, s => State.runInstructions n s.run

/-- `n` `RunCycle`s as `HOST_STEP_GRANULARITY` counts them (00_scope.md R12, D4). -/
def State.runCycles (n : Nat) (s : State) : State :=
  State.runInstructions (instructionsOf s.params.hostStepGranularity n) s

/-! ## Registers and flags -/

/-- `ReadRegister(r)` (10_state.md R32). -/
def State.readRegister (s : State) (n : RegisterName) : Except FaultCause Byte :=
  match n with
  | .single r => .ok (s.reg r)
  | .pair _ | .half _ _ | .noRegister => .error (.badRegister n)

/-- `WriteRegister(r, v)` (10_state.md R32). -/
def State.writeRegister (s : State) (n : RegisterName) (v : Byte) : Except FaultCause State :=
  match n with
  | .single r => .ok (s.setReg r v)
  | .pair _ | .half _ _ | .noRegister => .error (.badRegister n)

/-- `ReadPair(rr)` (10_state.md R33). -/
def State.readPair (s : State) (n : RegisterName) : Except FaultCause Word :=
  match n with
  | .pair rr => .ok (s.pair rr)
  | .single _ | .half _ _ | .noRegister => .error (.badRegister n)

/-- `WritePair(rr, v)` (10_state.md R33). -/
def State.writePair (s : State) (n : RegisterName) (v : Word) : Except FaultCause State :=
  match n with
  | .pair rr => .ok (s.setPair rr v)
  | .single _ | .half _ _ | .noRegister => .error (.badRegister n)

/-- `SetFlag(f)` (10_state.md R40); `ReadFlag(f)` is `State.flag` and `WriteFlag(f, b)` is
`State.writeFlag`. -/
def State.setFlagOf (s : State) (f : Flag) : State := s.writeFlag f true

/-- `ClearFlag(f)` (10_state.md R40). -/
def State.clearFlagOf (s : State) (f : Flag) : State := s.writeFlag f false

/-! ## Signals, mode, fault state -/

/-- The signals by name (10_state.md R45). -/
inductive SignalName where
  | haltSignal
  | stopSignal
  | interruptMasterEnable
  | clearInterruptStatusSignal
  | isExecutionAborted
  | userModeRequested
  | userModeSourceOperandRequested
  deriving DecidableEq, Repr

/-- Reading a signal (70_reset_and_hazards.md R530). -/
def State.readSignal (s : State) (n : SignalName) : Bool :=
  match n with
  | .haltSignal => s.signals.haltSignal
  | .stopSignal => s.signals.stopSignal
  | .interruptMasterEnable => s.signals.interruptMasterEnable
  | .clearInterruptStatusSignal => s.signals.clearInterruptStatusSignal
  | .isExecutionAborted => s.signals.isExecutionAborted
  | .userModeRequested => s.signals.userModeRequested
  | .userModeSourceOperandRequested => s.signals.userModeSourceOperandRequested

/-- Clearing `HaltSignal` (10_state.md R46). -/
def State.clearHalt (s : State) : State := s.setHalt false

/-- Clearing `StopSignal` (10_state.md R47). -/
def State.clearStop (s : State) : State := s.setStop false

/-- `SetMode(m)` (10_state.md R53); `Mode()` is the field `State.mode`, and the fault state is the field
`State.fault`. -/
def State.setMode (s : State) (m : Domain) : State := { s with mode := m }

/-! ## Memory Resources (20_memory.md R80 to R87) -/

/-- `Read(o, Word)`: the byte at the effective offset and the one after it, little-endian (R81, R84). The info of
`OutOfBounds` is `o`, the row's "resource offset", whichever of the two bytes is out of bounds (60_exceptions.md R471).
DEDUCED, unsafe. Log 30. -/
def Resource.readWord (r : Resource) (o : Nat) : Except FaultCause Word :=
  if o + 1 < r.size ∧ r.effectiveOffset o + 1 < r.size then
    .ok (Word.ofBytes (cellGet r.cells (r.effectiveOffset o + 1)) (cellGet r.cells (r.effectiveOffset o)))
  else .error (.outOfBounds o)

/-- `Write(v, o)` with a 16-bit `v`, low byte first (R82, R83, D31). The info of `OutOfBounds` is `o`, whichever of the two
bytes is out of bounds (60_exceptions.md R471). DEDUCED, unsafe. Log 30. -/
def Resource.writeWord (r : Resource) (o : Nat) (v : Word) (a : Word) (d : Domain) :
    Except FaultCause Resource :=
  match r.kind with
  | .rom | .bankedRom _ _ => .error (.readOnlyWrite a d)
  | .ram => if o + 1 < r.size then .ok ((r.put o v.low).put (o + 1) v.high) else .error (.outOfBounds o)

/-- The bytes of `data` put from offset `o` on. -/
def Resource.putAll (r : Resource) : Nat → List Byte → Resource
  | _, [] => r
  | o, v :: rest => (r.put o v).putAll (o + 1) rest

/-- `Load(data, size, optionalOffset)`: all or nothing, the bank ignored (R87, D32). -/
def Resource.load (r : Resource) (data : List Byte) (offset : Nat) : Except FaultCause Resource :=
  if offset + data.length ≤ r.size then .ok (r.putAll offset data)
  else .error (.loadOverflow offset data.length)

/-- `SelectBank(n)` (R84). A resource without banks has no such call; it is refused as a bad bank (log 19). -/
def Resource.selectBank (r : Resource) (n : Nat) : Except FaultCause Resource :=
  match r.kind with
  | .bankedRom bankSize _ =>
    if n < r.size / bankSize then .ok { r with kind := .bankedRom bankSize n } else .error (.badBank n)
  | .rom | .ram => .error (.badBank n)

/-! ## The Memory Controller (20_memory.md R88 to R97) -/

/-- A new resource with nothing written, current bank 0 (R80, R84): its number is the old count. -/
def Memory.construct (m : Memory) (kind : ResourceKind) (size : Nat) : Memory :=
  { m with resources := m.resources ++ [Params.blankResource kind.atConstruction size] }

/-- Inserts an entry, keeping the table sorted by range start (R89, R90). That it goes after the entries with the same
start is the model's choice: the spec gives them no order among themselves. DESIGN CHOICE, safe. Log 29. -/
def insertEntry (e : Entry) : List Entry → List Entry
  | [] => [e]
  | x :: rest =>
    if e.range.first.toNat < x.range.first.toNat then e :: x :: rest else x :: insertEntry e rest

/-- `RegisterMemoryResource(resource, range, ownership)` (R90). -/
def Memory.register (m : Memory) (n : Nat) (range : AddressRange) (own : Domain) :
    Except FaultCause Memory :=
  match m.resources[n]? with
  | none => .error (.sizeMismatch range)
  | some r =>
    if (r.size : Int) ≠ range.length then .error (.sizeMismatch range)
    else if m.table.any (fun e => e.ownership == own && e.range.overlaps range) then .error (.overlap range)
    else .ok { m with table := insertEntry { resource := n, range := range, ownership := own } m.table }

/-- Whether an entry is one of resource `n` in domain `own`. -/
def Entry.isOf (e : Entry) (n : Nat) (own : Domain) : Bool := e.resource == n && e.ownership == own

/-- `UnregisterMemoryResource(resource, ownership)` (R92, D35). -/
def Memory.unregister (m : Memory) (n : Nat) (own : Domain) : Except FaultCause Memory :=
  if m.table.any (fun e => e.isOf n own) then
    .ok { m with table := m.table.filter fun e => !(e.isOf n own) }
  else .error (.notRegistered own)

/-- The memory with resource `n` replaced by what `f` makes of it. -/
def Memory.onResource (m : Memory) (n : Nat) (f : Resource → Except FaultCause Resource) :
    Except FaultCause Memory :=
  match m.resources[n]? with
  | none => .ok m
  | some r =>
    match f r with
    | .error c => .error c
    | .ok r' => .ok { m with resources := m.resources.set n r' }

/-- A resource's `Load` (R87). -/
def Memory.loadResource (m : Memory) (n : Nat) (data : List Byte) (offset : Nat) :
    Except FaultCause Memory :=
  m.onResource n fun r => r.load data offset

/-- A Banked ROM's `SelectBank` (R84). -/
def Memory.selectBank (m : Memory) (n bank : Nat) : Except FaultCause Memory :=
  m.onResource n fun r => r.selectBank bank

/-- The controller's `Load(data, size, baseAddress, optionalOffset)` (R97). -/
def Memory.load (m : Memory) (d : Domain) (data : List Byte) (base : Word) (offset : Option Nat) :
    Except FaultCause Memory :=
  match m.target d base with
  | none => .error (.unmapped base d .write)
  | some (n, _, o) => m.loadResource n data (offset.getD o)

/-- The controller's `Read(a, Word)` (R93). -/
def Memory.readWord (m : Memory) (d : Domain) (a : Word) : Except FaultCause Word :=
  match m.route d a with
  | none => .error (.unmapped a d .read)
  | some e =>
    match m.resources[e.resource]? with
    | none => .error (.unmapped a d .read)
    | some r => if ((e.offset a : Int) + 1) ≥ e.range.length then .error (.straddle a d) else r.readWord (e.offset a)

/-- The controller's `Write(v, a)` with a 16-bit `v` (R83, R95). -/
def Memory.writeWord (m : Memory) (d : Domain) (a v : Word) : Except FaultCause Memory :=
  match m.target d a with
  | none => .error (.unmapped a d .write)
  | some (n, r, o) =>
    match r.writeWord o v a d with
    | .error c => .error c
    | .ok r' => .ok { m with resources := m.resources.set n r' }

/-! ## `ReadROM` (70_reset_and_hazards.md R531) -/

/-- The contents offset `ReadROM` reads for `bank`, or why it is refused. -/
def Resource.romOffset (r : Resource) (o bank : Nat) : Except FaultCause Nat :=
  match r.kind with
  | .bankedRom bankSize _ =>
    if bank < r.size / bankSize then .ok (bank * bankSize + o % bankSize) else .error (.badBank bank)
  | .rom | .ram => if bank = 0 then .ok o else .error (.badBank bank)

/-- `ReadROM(address, bank, Byte)`. -/
def Memory.readRomByte (m : Memory) (d : Domain) (a : Word) (bank : Nat) : Except FaultCause Byte :=
  match m.target d a with
  | none => .error (.unmapped a d .read)
  | some (_, r, o) =>
    match r.romOffset o bank with
    | .error c => .error c
    | .ok p => if o < r.size then .ok (cellGet r.cells p) else .error (.outOfBounds o)

/-- Whether the byte after offset `o` lies in the same bank, or in the resource if it has no banks: for `ReadROM` a ROM or
RAM is one bank. DESIGN CHOICE, unsafe. Log 32. -/
def Resource.nextInBank (r : Resource) (o : Nat) : Bool :=
  match r.kind with
  | .bankedRom bankSize _ => decide (o % bankSize + 1 < bankSize)
  | .rom | .ram => decide (o + 1 < r.size)

/-- `ReadROM(address, bank, Word)`: refused with `MemoryControllerException` if no entry covers `address`
or `address + 1`, with `MemoryAccessException` if the second byte lies past the bank, whose info is the offset of the
first byte (DEDUCED, unsafe; log 30). The refusals are tried in the order R531 lists them (DESIGN CHOICE, unsafe; log 19).
That a word which crosses the end of a ROM or RAM is `OutOfBounds`, and no `Straddle` as in `Memory.readWord`, where
another entry covers `address + 1`, and that `0xFFFF + 1` is `0x0000`, are the model's choice (DESIGN CHOICE, unsafe;
log 32). -/
def Memory.readRomWord (m : Memory) (d : Domain) (a : Word) (bank : Nat) : Except FaultCause Word :=
  match m.target d a with
  | none => .error (.unmapped a d .read)
  | some (_, r, o) =>
    if m.covers d (a + 1) then
      match r.romOffset o bank with
      | .error c => .error c
      | .ok p =>
        if r.nextInBank o then .ok (Word.ofBytes (cellGet r.cells (p + 1)) (cellGet r.cells p))
        else .error (.outOfBounds o)
    else .error (.unmapped (a + 1) d .read)

/-! ## The same on the state, in the current mode's domain -/

/-- A memory result put back into the state. -/
def State.withMemory (s : State) (r : Except FaultCause Memory) : Except FaultCause State :=
  match r with
  | .error c => .error c
  | .ok m => .ok { s with mem := m }

def State.hostRead (s : State) (a : Word) : Except FaultCause Byte := s.mem.readByte s.mode a .read
def State.hostReadWord (s : State) (a : Word) : Except FaultCause Word := s.mem.readWord s.mode a
def State.hostWrite (s : State) (a : Word) (v : Byte) : Except FaultCause State :=
  s.withMemory (s.mem.writeByte s.mode a v)
def State.hostWriteWord (s : State) (a v : Word) : Except FaultCause State :=
  s.withMemory (s.mem.writeWord s.mode a v)
def State.constructResource (s : State) (kind : ResourceKind) (size : Nat) : State :=
  { s with mem := s.mem.construct kind size }
def State.registerResource (s : State) (n : Nat) (range : AddressRange) (own : Domain) :
    Except FaultCause State := s.withMemory (s.mem.register n range own)
def State.unregisterResource (s : State) (n : Nat) (own : Domain) : Except FaultCause State :=
  s.withMemory (s.mem.unregister n own)
def State.loadResource (s : State) (n : Nat) (data : List Byte) (offset : Nat) : Except FaultCause State :=
  s.withMemory (s.mem.loadResource n data offset)
def State.selectBank (s : State) (n bank : Nat) : Except FaultCause State :=
  s.withMemory (s.mem.selectBank n bank)

/-- The controller's `Load`. -/
def State.load (s : State) (data : List Byte) (base : Word) (offset : Option Nat) : Except FaultCause State :=
  s.withMemory (s.mem.load s.mode data base offset)

/-- `LoadGame(bytes)` and `LoadBIOS(bytes)`: the controller's `Load` at the image's address
(70_reset_and_hazards.md R511, R530). -/
def State.loadImage (s : State) (image : List Byte) (base : Word) : Except FaultCause State :=
  s.load image base none

/-- `ReadROM(address, bank, Byte)`. -/
def State.readRom (s : State) (a : Word) (bank : Nat) : Except FaultCause Byte := s.mem.readRomByte s.mode a bank

/-- `ReadROM(address, bank, Word)`. -/
def State.readRomWord (s : State) (a : Word) (bank : Nat) : Except FaultCause Word := s.mem.readRomWord s.mode a bank

/-! ## Placing an instruction where the next fetch reads it -/

/-- The memory with byte `v` in the contents that `a` names in domain `d`, whatever the resource's kind. -/
def Memory.poke (m : Memory) (d : Domain) (a : Word) (v : Byte) : Memory :=
  match m.target d a with
  | none => m
  | some (n, r, o) =>
    if o < r.size then { m with resources := m.resources.set n (r.put (r.effectiveOffset o) v) } else m

/-- Bytes poked at rising addresses. -/
def Memory.pokeAll (m : Memory) (d : Domain) (a : Word) : List Byte → Memory
  | [] => m
  | v :: rest => (m.poke d a v).pokeAll d (a + 1) rest

/-- Whether the four addresses from `a` on lie in one entry of domain `d` on a resource without banks. -/
def Memory.holdsFour (m : Memory) (d : Domain) (a : Word) : Bool :=
  match m.route d a with
  | none => false
  | some e =>
    match m.resources[e.resource]? with
    | none => false
    | some r =>
      r.bankCount?.isNone && decide (e.offset a + 3 < r.size) && decide (a.toNat + 3 < 0x10000)
        && e.range.contains (a + 3)

/-- The memory with domain `d` served by one new RAM over the whole space. -/
def Memory.withFreshRam (m : Memory) (d : Domain) : Memory :=
  { resources := m.resources ++ [Params.blankResource .ram 0x10000]
    table := { resource := m.resources.length, range := Params.wholeSpace, ownership := d }
      :: m.table.filter fun e => e.ownership != d }

/-- The state with the bytes at PC, in the current mode's domain, and no fault recorded, so that the next
step fetches them. Where no resource can hold them, the domain gets one that can. Log 15. -/
def State.placeAtPc (s : State) (bytes : List Byte) : State :=
  let m := if s.mem.holdsFour s.mode (s.pair .pc) then s.mem else s.mem.withFreshRam s.mode
  { s with mem := m.pokeAll s.mode (s.pair .pc) bytes, fault := none }

/-- A table word's bytes, and zeros up to the longest instruction's four (30_encoding.md R130). -/
def fetchWordBytes (nbits w : Nat) : List Byte :=
  tableBytes nbits w ++ List.replicate (4 - nbits / 8) 0x00#8

end Sys2Proof.Machine
end

