-- ==== Sys2Proof/Machine/Step.lean ====
section
/-! DEFINITION. The step of the gbx core: one `RunCycle` (40_control_unit.md R170). -/

namespace Sys2Proof.Machine

/-- One step. -/
def step (s : State) : Host.Outcome State Fault Refusal := s.cycle

/-- `s` with the instruction of table word `w` where `step` fetches its next instruction. Log 15, 16. -/
def State.withFetchWord (s : State) (nbits w : Nat) : State := s.placeAtPc (fetchWordBytes nbits w)

end Sys2Proof.Machine
end

