-- ==== Sys2Proof/Machine/AddressingMode.lean ====
section
/-! DEFINITION. The addressing-mode microcode as the constant table it is (40_control_unit.md R180 to R182,
10_state.md R56): which acquire and write-back steps each mode runs, and each instruction's mode. The
meanings are written from the instruction rules, which govern; the table says which of the steps they take. -/

namespace Sys2Proof.Machine

/-- The addressing modes of 40_control_unit.md R181. -/
inductive AddressingMode where
  /-- 1. Implied. -/
  | implied
  /-- 2. Register. -/
  | register
  /-- 3. Immediate. -/
  | immediate
  /-- 4. ImmediatePair. -/
  | immediatePair
  /-- 5. RegisterIndirectSource. -/
  | registerIndirectSource
  /-- 6. RegisterIndirectSourceIncrement. -/
  | registerIndirectSourceIncrement
  /-- 7. RegisterIndirectSourceDecrement. -/
  | registerIndirectSourceDecrement
  /-- 8. RegisterIndirectDestination. -/
  | registerIndirectDestination
  /-- 9. RegisterIndirectDestinationIncrement. -/
  | registerIndirectDestinationIncrement
  /-- 10. RegisterIndirectDestinationDecrement. -/
  | registerIndirectDestinationDecrement
  /-- 11. RegisterIndirectSourceAndDestination. -/
  | registerIndirectSourceAndDestination
  /-- 12. ImmediateRegisterIndirect. -/
  | immediateRegisterIndirect
  /-- 13. ExtendedSource. -/
  | extendedSource
  /-- 14. ExtendedDestination. -/
  | extendedDestination
  /-- 15. ExtendedPairDestination. -/
  | extendedPairDestination
  /-- 16. ImplicitRegisterSource. -/
  | implicitRegisterSource
  /-- 17. ImplicitRegisterDestination. -/
  | implicitRegisterDestination
  /-- 18. ImplicitImmediateSource. -/
  | implicitImmediateSource
  /-- 19. ImplicitImmediateDestination. -/
  | implicitImmediateDestination
  /-- 20. ImmediateSigned. -/
  | immediateSigned
  /-- 21. RegisterPair. -/
  | registerPair
  /-- 22. StackPop. -/
  | stackPop
  /-- 23. StackPush. -/
  | stackPush
  /-- 24. Relative. -/
  | relative
  /-- 25. Jump. -/
  | jump
  /-- 26. RegisterJump. -/
  | registerJump
  /-- 27. SubRoutineCall. -/
  | subRoutineCall
  /-- 28. Return. -/
  | returnFrom
  /-- 29. Restart. -/
  | restart
  /-- 30. SystemJump. -/
  | systemJump
  /-- 31. UserSource: as the base mode, with the memory source read in the User domain. -/
  | userSource (base : AddressingMode)
  deriving DecidableEq, Repr

/-- `AddressingModeFormat`: one flag per acquire step (40_control_unit.md R177), one per write-back step
(R182), and `changesPC`. A step of a conditional instruction that runs only if taken has its flag set. -/
structure AddressingModeFormat where
  operand1AtPC : Bool := false
  operand2AtPC : Bool := false
  operand1AtRegister : Bool := false
  operand1Implicitly : Bool := false
  operand2Implicitly : Bool := false
  operand2AtComposedAddress : Bool := false
  operand2Directly : Bool := false
  operand3 : Bool := false
  atRegisterAddress : Bool := false
  atOperandAddress : Bool := false
  atComposedAddress : Bool := false
  atImplicitRegisterAddress : Bool := false
  atImplicitImmediateAddress : Bool := false
  pairAtRegisterAddress : Bool := false
  pairAtImmediateAddress : Bool := false
  changesPC : Bool := false
  deriving DecidableEq, Repr

/-- The descriptor of a mode (40_control_unit.md R181). -/
def addressingModeFormat : AddressingMode → AddressingModeFormat
  | .implied => {}
  | .register => {}
  | .immediate => { operand1AtPC := true }
  | .immediatePair => { operand1AtPC := true, operand2AtPC := true }
  | .registerIndirectSource => { operand1AtRegister := true }
  | .registerIndirectSourceIncrement => { operand1AtRegister := true }
  | .registerIndirectSourceDecrement => { operand1AtRegister := true }
  | .registerIndirectDestination => { atRegisterAddress := true }
  | .registerIndirectDestinationIncrement => { atRegisterAddress := true }
  | .registerIndirectDestinationDecrement => { atRegisterAddress := true }
  | .registerIndirectSourceAndDestination => { operand1AtRegister := true, atOperandAddress := true }
  | .immediateRegisterIndirect => { operand1AtPC := true, atRegisterAddress := true }
  | .extendedSource => { operand1AtPC := true, operand2AtPC := true, operand3 := true }
  | .extendedDestination => { operand1AtPC := true, operand2AtPC := true, atComposedAddress := true }
  | .extendedPairDestination => { operand1AtPC := true, operand2AtPC := true, pairAtImmediateAddress := true }
  | .implicitRegisterSource => { operand1Implicitly := true }
  | .implicitRegisterDestination => { atImplicitRegisterAddress := true }
  | .implicitImmediateSource => { operand1AtPC := true, operand2AtComposedAddress := true }
  | .implicitImmediateDestination => { operand1AtPC := true, atImplicitImmediateAddress := true }
  | .immediateSigned => { operand1AtPC := true }
  | .registerPair => {}
  | .stackPop => { operand1Implicitly := true, operand2Implicitly := true }
  | .stackPush => { pairAtRegisterAddress := true }
  | .relative => { operand1AtPC := true, changesPC := true }
  | .jump => { operand1AtPC := true, operand2AtPC := true, changesPC := true }
  | .registerJump => { changesPC := true }
  | .subRoutineCall => { operand1AtPC := true, operand2AtPC := true, pairAtRegisterAddress := true, changesPC := true }
  | .returnFrom => { operand1Implicitly := true, operand2Implicitly := true, changesPC := true }
  | .restart => { pairAtRegisterAddress := true, changesPC := true }
  | .systemJump => { operand1AtPC := true, operand2AtPC := true, changesPC := true }
  | .userSource base => addressingModeFormat base

/-- The mode reads memory beyond the bytes at PC. -/
def AddressingModeFormat.readsMemory (f : AddressingModeFormat) : Bool :=
  f.operand1AtRegister || f.operand1Implicitly || f.operand2Implicitly || f.operand2AtComposedAddress
    || f.operand2Directly || f.operand3

/-- The mode writes memory. -/
def AddressingModeFormat.writesMemory (f : AddressingModeFormat) : Bool :=
  f.atRegisterAddress || f.atOperandAddress || f.atComposedAddress || f.atImplicitRegisterAddress
    || f.atImplicitImmediateAddress || f.pairAtRegisterAddress || f.pairAtImmediateAddress

/-- The operand bytes the mode fetches at PC. -/
def AddressingModeFormat.bytesAtPC (f : AddressingModeFormat) : Nat :=
  f.operand1AtPC.toNat + f.operand2AtPC.toNat

/-- The addressing mode of each instruction (40_control_unit.md R181, its column "used by"). STOP's byte is fetched only
where `STOP_LENGTH` is 2 (47_system.md R432). -/
def addressingMode (p : Config.Parameters) : Instr → AddressingMode
  | .nop => .implied
  | .ldRrNn _ _ => .immediatePair
  | .ldBcA => .registerIndirectDestination
  | .ldDeA => .registerIndirectDestination
  | .ldHliA => .registerIndirectDestinationIncrement
  | .ldHldA => .registerIndirectDestinationDecrement
  | .ldABc => .registerIndirectSource
  | .ldADe => .registerIndirectSource
  | .ldAHli => .registerIndirectSourceIncrement
  | .ldAHld => .registerIndirectSourceDecrement
  | .incRr _ => .implied
  | .decRr _ => .implied
  | .incR _ => .register
  | .incHl => .registerIndirectSourceAndDestination
  | .decR _ => .register
  | .decHl => .registerIndirectSourceAndDestination
  | .ldRN _ _ => .immediate
  | .ldHlN _ => .immediateRegisterIndirect
  | .rlca => .implied
  | .rrca => .implied
  | .rla => .implied
  | .rra => .implied
  | .ldNnSp _ => .extendedPairDestination
  | .addHlRr _ => .implied
  | .stop _ =>
    match p.stopLength with
    | .two => .immediate
    | .one => .implied
  | .jr _ => .relative
  | .jrCc _ _ => .relative
  | .daa => .implied
  | .cpl => .implied
  | .scf => .implied
  | .ccf => .implied
  | .ldRR _ _ => .register
  | .ldRHl _ => .registerIndirectSource
  | .ldHlR _ => .registerIndirectDestination
  | .halt => .implied
  | .addR _ => .register
  | .addHl => .registerIndirectSource
  | .addN _ => .immediate
  | .adcR _ => .register
  | .adcHl => .registerIndirectSource
  | .adcN _ => .immediate
  | .subR _ => .register
  | .subHl => .registerIndirectSource
  | .subN _ => .immediate
  | .sbcR _ => .register
  | .sbcHl => .registerIndirectSource
  | .sbcN _ => .immediate
  | .andR _ => .register
  | .andHl => .registerIndirectSource
  | .andN _ => .immediate
  | .xorR _ => .register
  | .xorHl => .registerIndirectSource
  | .xorN _ => .immediate
  | .orR _ => .register
  | .orHl => .registerIndirectSource
  | .orN _ => .immediate
  | .cpR _ => .register
  | .cpHl => .registerIndirectSource
  | .cpN _ => .immediate
  | .retCc _ => .returnFrom
  | .ret => .returnFrom
  | .reti => .returnFrom
  | .pop _ => .stackPop
  | .push _ => .stackPush
  | .jpCc _ _ => .jump
  | .jp _ => .jump
  | .jpHl => .registerJump
  | .callCc _ _ => .subRoutineCall
  | .call _ => .subRoutineCall
  | .rst _ => .restart
  | .ldhNA _ => .implicitImmediateDestination
  | .ldhAN _ => .implicitImmediateSource
  | .ldCA => .implicitRegisterDestination
  | .ldAC => .implicitRegisterSource
  | .addSpE _ => .immediateSigned
  | .ldHlSpE _ => .immediateSigned
  | .ldSpHl => .registerPair
  | .ldNnA _ => .extendedDestination
  | .ldANn _ => .extendedSource
  | .di => .implied
  | .ei => .implied
  | .rlcR _ => .register
  | .rlcHl => .registerIndirectSourceAndDestination
  | .rrcR _ => .register
  | .rrcHl => .registerIndirectSourceAndDestination
  | .rlR _ => .register
  | .rlHl => .registerIndirectSourceAndDestination
  | .rrR _ => .register
  | .rrHl => .registerIndirectSourceAndDestination
  | .slaR _ => .register
  | .slaHl => .registerIndirectSourceAndDestination
  | .sraR _ => .register
  | .sraHl => .registerIndirectSourceAndDestination
  | .swapR _ => .register
  | .swapHl => .registerIndirectSourceAndDestination
  | .srlR _ => .register
  | .srlHl => .registerIndirectSourceAndDestination
  | .bitR _ _ => .register
  | .bitHl _ => .registerIndirectSource
  | .resR _ _ => .register
  | .resHl _ => .registerIndirectSourceAndDestination
  | .setR _ _ => .register
  | .setHl _ => .registerIndirectSourceAndDestination
  | .jpu _ => .systemJump
  | .lduRHl _ => .userSource .registerIndirectSource
  | .lduABc => .userSource .registerIndirectSource
  | .lduADe => .userSource .registerIndirectSource
  | .lduAHli => .userSource .registerIndirectSourceIncrement
  | .lduAHld => .userSource .registerIndirectSourceDecrement
  | .lduANn _ => .userSource .extendedSource
  | .ldhuAN _ => .userSource .implicitImmediateSource
  | .lduAC => .userSource .implicitRegisterSource

end Sys2Proof.Machine
end

