-- ==== Sys2Proof/Safety.lean ====
section
/-! DEFINITION. What counts as a safe state and a safe run, and the terms statements are made in: the
invariant, the end of a run (70_reset_and_hazards.md R527), what an instruction leaves unchanged, what a
store stores, and the spec's helper functions as relations on numbers. -/

namespace Sys2Proof.Machine

/-! ## The invariant -/

/-- What holds between two `RunCycle`s: memory has its canonical form, with the table sorted and without
overlaps (20_memory.md R89), and the two request signals are 0 (10_state.md R51, R52). -/
structure State.Inv (s : State) : Prop where
  memory : s.mem.wf = true
  noModeRequest : s.signals.userModeRequested = false
  noSourceRequest : s.signals.userModeSourceOperandRequested = false

/-! ## The end of a run (70_reset_and_hazards.md R527) -/

/-- A launch premise that may be assumed: no signal the end test reads is set, and no fault is recorded. -/
def State.launchable (s : State) : Bool :=
  !s.signals.haltSignal && !s.signals.stopSignal && s.fault.isNone

/-- How a run ended. -/
inductive RunEnd where
  /-- At the state after the first `RunCycle` that executed `HALT` or `STOP`. -/
  | normal (final : State)
  /-- At the first `RunCycle` that recorded a fault: the record and the memory. -/
  | fault (record : FaultRecord) (memory : Memory)
  deriving DecidableEq, Repr

/-- The run of at most `n` `RunCycle`s from `s`; `none` is "no end within the bound". -/
def runToEnd : Nat → State → Option RunEnd
  | 0, _ => none
  | n + 1, s =>
    match step s with
    | .next t =>
      if t.signals.haltSignal || t.signals.stopSignal then some (.normal t) else runToEnd n t
    | .fault (.recorded r m) => some (.fault r m)
    | .fault _ => none
    | .refused _ => none

/-! ## What an instruction leaves unchanged -/

/-- The 16-bit registers that are no pair of single registers (10_state.md R30). -/
def isWordRegister : Reg16 → Bool
  | .sp | .pc | .ix | .iy => true
  | .af | .bc | .de | .hl => false

/-- The two single registers of a pair; none for SP, PC, IX and IY (10_state.md R31). -/
def pairHalves : Reg16 → List Reg8
  | .af => [.a, .f]
  | .bc => [.b, .c]
  | .de => [.d, .e]
  | .hl => [.h, .l]
  | .sp | .pc | .ix | .iy => []

/-- From `s` to `t` only the listed single registers, 16-bit registers and flags may differ, signals and
memory apart. Listing F lets all of F differ; otherwise the bits of F outside the flags stay. -/
structure Frame (s t : State) (rs : List Reg8) (ws : List Reg16) (fs : List Flag) : Prop where
  registers : ∀ r, r ≠ .f → r ∉ rs → t.reg r = s.reg r
  words : ∀ w, isWordRegister w = true → w ∉ ws → t.pair w = s.pair w
  flags : ∀ f, f ∉ fs → .f ∉ rs → t.flag f = s.flag f
  otherBitsOfF : .f ∉ rs → nonFlagBits (t.reg .f) = nonFlagBits (s.reg .f)
  alternate : t.alt = s.alt
  mode : t.mode = s.mode
  faultState : t.fault = s.fault
  draws : t.draws = s.draws
  parameters : t.params = s.params

/-- No byte of memory, no bank and no table entry differs; in particular every address of both domains reads
as before. -/
structure SameMemory (s t : State) : Prop where
  memory : t.mem = s.mem
  bytes : ∀ d a, t.mem.peek d a = s.mem.peek d a

/-- `Frame`, and no signal and no memory differs. -/
structure Quiet (s t : State) (rs : List Reg8) (ws : List Reg16) (fs : List Flag) : Prop where
  frame : Frame s t rs ws fs
  signals : t.signals = s.signals
  memory : SameMemory s t

/-! ## What a store stores -/

/-- Byte `v` was stored at address `a` of the current domain, and nothing else: every address of either domain
that names the same byte of the same resource reads `v`, every other address reads as before, and the table is
unchanged (20_memory.md R89: a resource in several entries shares its contents). -/
structure StoredByte (s t : State) (a : Word) (v : Byte) : Prop where
  stored : ∀ d a', s.mem.locate d a' = s.mem.locate s.mode a → t.mem.peek d a' = some v
  others : ∀ d a', s.mem.locate d a' ≠ s.mem.locate s.mode a → t.mem.peek d a' = s.mem.peek d a'
  table : t.mem.table = s.mem.table

/-- Byte `v` was stored at `a` and then byte `w` at `b`, and nothing else. Where both addresses name one byte, which
only a table with a resource in two entries allows, the second store is the one that stays. -/
structure StoredBytes (s t : State) (a : Word) (v : Byte) (b : Word) (w : Byte) : Prop where
  second : ∀ d a', s.mem.locate d a' = s.mem.locate s.mode b → t.mem.peek d a' = some w
  first : ∀ d a', s.mem.locate d a' = s.mem.locate s.mode a → s.mem.locate d a' ≠ s.mem.locate s.mode b →
    t.mem.peek d a' = some v
  others : ∀ d a', s.mem.locate d a' ≠ s.mem.locate s.mode a →
    s.mem.locate d a' ≠ s.mem.locate s.mode b → t.mem.peek d a' = s.mem.peek d a'
  table : t.mem.table = s.mem.table

/-- `v` was stored with its low byte at `a` and its high byte at `a + 1`, the low byte first
(00_scope.md R17, 20_memory.md R102). -/
def StoredWord (s t : State) (a v : Word) : Prop := StoredBytes s t a v.low (a + 1) v.high

/-- `v` was pushed: its high byte stored at `sp - 1`, then its low byte at `sp - 2` (46_stack.md R410). -/
def PushedWord (s t : State) (v : Word) : Prop :=
  StoredBytes s t (s.pair .sp - 1) v.high (s.pair .sp - 2) v.low

/-- `i`, executed in `s`, is one of the instructions that store two bytes, and the first of them is byte `v` at address
`a`: `push16` stores the high byte at `sp - 1` first (46_stack.md R410; 44_control_flow.md R326, R327, R331), and
`LD (nn),SP` the low byte at `nn` (00_scope.md R17, 45_load_store.md R378). -/
inductive FirstOfTwoStores (s : State) : Instr → Word → Byte → Prop where
  | push (rr : Reg16) : FirstOfTwoStores s (.push rr) (s.pair .sp - 1) (s.pair rr).high
  | call (nn : Word) : FirstOfTwoStores s (.call nn) (s.pair .sp - 1) (s.pair .pc).high
  | callCc (cc : Cond) (nn : Word) : s.cond cc = true →
      FirstOfTwoStores s (.callCc cc nn) (s.pair .sp - 1) (s.pair .pc).high
  | rst (p : BitVec 3) : FirstOfTwoStores s (.rst p) (s.pair .sp - 1) (s.pair .pc).high
  | ldNnSp (nn : Word) : FirstOfTwoStores s (.ldNnSp nn) nn (s.pair .sp).low

/-- `Frame`, no signal differs, and memory differs only by byte `v` at `a`. -/
structure Stores (s t : State) (a : Word) (v : Byte) (rs : List Reg8) (fs : List Flag) : Prop where
  frame : Frame s t rs [] fs
  signals : t.signals = s.signals
  memory : StoredByte s t a v

/-! ## Where an access is refused -/

/-- A raise of `c` with memory as before the instruction. -/
def raised (s : State) (c : FaultCause) : Result := .fault (.raised c s.mem)

/-- A data read of `a` in domain `d` stops with `MemoryControllerException`, `Unmapped`
(20_memory.md R93, 60_exceptions.md R471). -/
def unmappedRead (s : State) (d : Domain) (a : Word) : Result := raised s (.unmapped a d .read)

/-- A write of `a` stops with `MemoryControllerException`, `Unmapped` (20_memory.md R95). -/
def unmappedWrite (s : State) (a : Word) : Result := raised s (.unmapped a s.mode .write)

/-- A write of `a` stops with `MemoryAccessException`, `ReadOnlyWrite` (20_memory.md R82, R85). -/
def readOnly (s : State) (a : Word) : Result := raised s (.readOnlyWrite a s.mode)

/-- A 16-bit access at `a` stops with `MemoryControllerException`, `Straddle` (20_memory.md R94). -/
def straddles (s : State) (a : Word) : Result := raised s (.straddle a s.mode)

/-- `a` of domain `d` lies in a ROM or Banked ROM. -/
def Memory.inRom (m : Memory) (d : Domain) (a : Word) : Prop :=
  ∃ n r o, m.target d a = some (n, r, o) ∧ r.kind ≠ .ram

/-- The two bytes at `a` pass the straddle check: they do not straddle, or `STRADDLE_FAULT` is false
(20_memory.md R94). -/
def State.unstraddled (s : State) (a : Word) : Prop :=
  s.params.straddleFault = true → s.mem.pairInOneEntry s.mode a = true

/-- Of the answer `r` of an instruction that reads one byte at `a` of domain `d`: it is the fault if nothing
covers `a`. -/
def ReadFaults (s : State) (d : Domain) (a : Word) (r : Result) : Prop :=
  s.mem.covers d a = false → r = unmappedRead s d a

/-- Of the answer `r` of an instruction that stores one byte at `a`: it is the fault if nothing covers `a`, and
the fault if a ROM does. -/
def StoreFaults (s : State) (a : Word) (r : Result) : Prop :=
  (s.mem.covers s.mode a = false → r = unmappedWrite s a) ∧
  (s.mem.inRom s.mode a → r = readOnly s a)

/-- Of the answer `r` of an instruction that reads and then stores the byte at `a`: the read faults first. -/
def ModifyFaults (s : State) (a : Word) (r : Result) : Prop :=
  (s.mem.covers s.mode a = false → r = unmappedRead s s.mode a) ∧
  (∀ m, s.mem.peek s.mode a = some m → s.mem.inRom s.mode a → r = readOnly s a)

/-- Of the answer `r` of an instruction that stores byte `v` at `x` and then a byte at `y`, the two addresses `a` and
`a + 1` in one order or the other. With `STRADDLE_FAULT` true `a` is checked first: unmapped, then straddling; in a
ROM the byte stored first faults. With it false each byte faults on its own, and a second byte that faults leaves
the first one stored (20_memory.md R94, R95; 60_exceptions.md R476). -/
def TwoStoresFault (s : State) (a x : Word) (v : Byte) (y : Word) (r : Result) : Prop :=
  (s.params.straddleFault = true → s.mem.covers s.mode a = false → r = unmappedWrite s a) ∧
  (s.params.straddleFault = true → s.mem.wf = true → s.mem.covers s.mode a = true →
    s.mem.pairInOneEntry s.mode a = false → r = straddles s a) ∧
  (s.unstraddled a → s.mem.inRom s.mode x → r = readOnly s x) ∧
  (s.params.straddleFault = false → s.mem.covers s.mode x = false → r = unmappedWrite s x) ∧
  (s.params.straddleFault = false → ∀ m, s.mem.writeByte s.mode x v = .ok m →
    (s.mem.covers s.mode y = false → r = unmappedWrite { s with mem := m } y) ∧
    (s.mem.inRom s.mode y → r = readOnly { s with mem := m } y))

/-- Of the answer `r` of an instruction that pushes `v`. -/
def PushFaults (s : State) (v : Word) (r : Result) : Prop :=
  TwoStoresFault s (s.pair .sp - 2) (s.pair .sp - 1) v.high (s.pair .sp - 2) r

/-- Of the answer `r` of an instruction that stores the 16-bit value `v` at `a`. -/
def WordStoreFaults (s : State) (a v : Word) (r : Result) : Prop := TwoStoresFault s a a v.low (a + 1) r

/-- Of the answer `r` of an instruction that pops: the byte at SP unmapped; the two bytes straddling, with
`STRADDLE_FAULT` true; the byte above SP unmapped, with it false. -/
def PopFaults (s : State) (r : Result) : Prop :=
  (s.mem.covers s.mode (s.pair .sp) = false → r = unmappedRead s s.mode (s.pair .sp)) ∧
  (s.params.straddleFault = true → s.mem.wf = true → s.mem.covers s.mode (s.pair .sp) = true →
    s.mem.pairInOneEntry s.mode (s.pair .sp) = false → r = straddles s (s.pair .sp)) ∧
  (s.params.straddleFault = false → ∀ low, s.mem.peek s.mode (s.pair .sp) = some low →
    s.mem.covers s.mode (s.pair .sp + 1) = false → r = unmappedRead s s.mode (s.pair .sp + 1))

/-- The acquire step of a one-byte immediate raises `MemoryControllerException` when its address is unmapped
(40_control_unit.md R175, R176). -/
def FaultsOnByte (f : Byte → Instr) : Prop :=
  ∀ s : State, s.mem.covers s.mode (s.pair .pc) = false →
    s.fetchOperands (.imm8 f) = .error (.unmapped (s.pair .pc) s.mode .fetch)

/-- The acquire steps of a two-byte immediate raise `MemoryControllerException` when its first address is
unmapped, when the two bytes straddle with `STRADDLE_FAULT` true, and when its second address is unmapped with it
false (20_memory.md R94; 40_control_unit.md R175, R176). -/
def FaultsOnWord (f : Word → Instr) : Prop :=
  (∀ s : State, s.mem.covers s.mode (s.pair .pc) = false →
    s.fetchOperands (.imm16 f) = .error (.unmapped (s.pair .pc) s.mode .fetch)) ∧
  (∀ s : State, s.params.straddleFault = true → s.mem.wf = true → s.mem.covers s.mode (s.pair .pc) = true →
    s.mem.pairInOneEntry s.mode (s.pair .pc) = false →
    s.fetchOperands (.imm16 f) = .error (.straddle (s.pair .pc) s.mode)) ∧
  (∀ (s : State) (low : Byte), s.params.straddleFault = false → s.mem.peek s.mode (s.pair .pc) = some low →
    s.mem.covers s.mode (s.pair .pc + 1) = false →
    s.fetchOperands (.imm16 f) = .error (.unmapped (s.pair .pc + 1) s.mode .fetch))

/-! ## The forms of the operands -/

/-- `i` is one of the three forms of an ALU instruction, on a register, on `(HL)` or on an immediate, and `v` is
its 8-bit source operand in `s` (41_arithmetic.md R205). -/
inductive Source8 (s : State) (reg : Reg8 → Instr) (hl : Instr) (imm : Byte → Instr) : Instr → Byte → Prop where
  | register (r : Reg8) : Source8 s reg hl imm (reg r) (s.reg r)
  | memory (m : Byte) : s.mem.peek s.mode (s.pair .hl) = some m → Source8 s reg hl imm hl m
  | immediate (n : Byte) : Source8 s reg hl imm (imm n) n

/-- The exceptions of the three forms: the `(HL)` form faults if HL's address is unmapped, the immediate form if
the immediate's is, the register form never. -/
def Source8Faults (hl : Instr) (imm : Byte → Instr) : Prop :=
  (∀ s, ReadFaults s s.mode (s.pair .hl) (exec hl s)) ∧ FaultsOnByte imm

/-- `i` loads `r` with the byte at `a` of the current domain (45_load_store.md R360). -/
inductive LoadForm (s : State) : Instr → Reg8 → Word → Prop where
  | hl (r : Reg8) : LoadForm s (.ldRHl r) r (s.address (.atPair .hl))
  | bc : LoadForm s .ldABc .a (s.address (.atPair .bc))
  | de : LoadForm s .ldADe .a (s.address (.atPair .de))
  | absolute (nn : Word) : LoadForm s (.ldANn nn) .a (s.address (.absolute nn))
  | page (n : Byte) : LoadForm s (.ldhAN n) .a (s.address (.page n))
  | pageC : LoadForm s .ldAC .a (s.address .pageC)

/-- `i` loads `r` with the byte at `a` of the User domain (48_gbx_privilege.md R452). -/
inductive UserLoadForm (s : State) : Instr → Reg8 → Word → Prop where
  | hl (r : Reg8) : UserLoadForm s (.lduRHl r) r (s.address (.atPair .hl))
  | bc : UserLoadForm s .lduABc .a (s.address (.atPair .bc))
  | de : UserLoadForm s .lduADe .a (s.address (.atPair .de))
  | absolute (nn : Word) : UserLoadForm s (.lduANn nn) .a (s.address (.absolute nn))
  | page (n : Byte) : UserLoadForm s (.ldhuAN n) .a (s.address (.page n))
  | pageC : UserLoadForm s .lduAC .a (s.address .pageC)

/-- `i` stores `v` at `a` (45_load_store.md R360). -/
inductive StoreForm (s : State) : Instr → Word → Byte → Prop where
  | hl (r : Reg8) : StoreForm s (.ldHlR r) (s.address (.atPair .hl)) (s.reg r)
  | hlImmediate (n : Byte) : StoreForm s (.ldHlN n) (s.address (.atPair .hl)) n
  | bc : StoreForm s .ldBcA (s.address (.atPair .bc)) (s.reg .a)
  | de : StoreForm s .ldDeA (s.address (.atPair .de)) (s.reg .a)
  | absolute (nn : Word) : StoreForm s (.ldNnA nn) (s.address (.absolute nn)) (s.reg .a)
  | page (n : Byte) : StoreForm s (.ldhNA n) (s.address (.page n)) (s.reg .a)
  | pageC : StoreForm s .ldCA (s.address .pageC) (s.reg .a)

/-- `cond(cc)` (00_scope.md R21). -/
def condHolds (cc : Cond) (s : State) : Prop :=
  match cc with
  | .nz => s.flag .z = false
  | .z => s.flag .z = true
  | .nc => s.flag .cy = false
  | .c => s.flag .cy = true

/-- Not taken: `IsExecutionAborted` is set, PC stays `pc_next`, nothing else changes
(40_control_unit.md R183). -/
structure NotTaken (s t : State) : Prop where
  frame : Frame s t [] [] []
  signals : t.signals = { s.signals with isExecutionAborted := true }
  memory : SameMemory s t

/-- Called: PC is the target, the old PC lies on the stack, SP is lowered by 2, nothing else changes
(44_control_flow.md R326). -/
structure Called (s t : State) (target : Word) : Prop where
  pc : t.pair .pc = target
  sp : t.pair .sp = s.pair .sp - 2
  stack : PushedWord s t (s.pair .pc)
  frame : Frame s t [] [.sp, .pc] []
  signals : t.signals = s.signals

/-- Returned to `high : low`: SP is raised by 2, nothing else changes but signals (44_control_flow.md R328). -/
structure Returned (s t : State) (high low : Byte) : Prop where
  pc : (t.pair .pc).toNat = 256 * high.toNat + low.toNat
  sp : t.pair .sp = s.pair .sp + 2
  frame : Frame s t [] [.sp, .pc] []
  memory : SameMemory s t

/-- The two bytes at `a` can be stored: RAM of a well-formed memory, passing the straddle check. -/
structure CanStoreWord (s : State) (a : Word) : Prop where
  wf : s.mem.wf = true
  unstraddled : s.unstraddled a
  lower : s.mem.writable s.mode a = true
  upper : s.mem.writable s.mode (a + 1) = true

/-- The two stack bytes a push stores can be. -/
def CanPush (s : State) : Prop := CanStoreWord s (s.pair .sp - 2)

/-- The two stack bytes a pop reads: passing the straddle check, `low` at SP and `high` above it. -/
structure CanPop (s : State) (high low : Byte) : Prop where
  unstraddled : s.unstraddled (s.pair .sp)
  low : s.mem.peek s.mode (s.pair .sp) = some low
  high : s.mem.peek s.mode (s.pair .sp + 1) = some high

/-- The byte at HL: RAM of a well-formed memory, holding `m`. -/
structure CanModify (s : State) (m : Byte) : Prop where
  wf : s.mem.wf = true
  ram : s.mem.writable s.mode (s.pair .hl) = true
  byte : s.mem.peek s.mode (s.pair .hl) = some m

/-! ## The shift functions in numbers (43_bit_rotate.md R280) -/

/-- The eight rotates and shifts of the `0xCB` table (30_encoding.md R143). -/
inductive ShiftKind where
  | rlc | rrc | rl | rr | sla | sra | swap | srl
  deriving DecidableEq, Repr

/-- The form on a register. -/
def ShiftKind.onRegister : ShiftKind → Reg8 → Instr
  | .rlc => .rlcR
  | .rrc => .rrcR
  | .rl => .rlR
  | .rr => .rrR
  | .sla => .slaR
  | .sra => .sraR
  | .swap => .swapR
  | .srl => .srlR

/-- The form on `(HL)`. -/
def ShiftKind.onHl : ShiftKind → Instr
  | .rlc => .rlcHl
  | .rrc => .rrcHl
  | .rl => .rlHl
  | .rr => .rrHl
  | .sla => .slaHl
  | .sra => .sraHl
  | .swap => .swapHl
  | .srl => .srlHl

/-- The result, as a number, for the number `v` and carry-in `c`. -/
def ShiftKind.result (k : ShiftKind) (v : Nat) (c : Bool) : Nat :=
  match k with
  | .rlc => v * 2 % 256 + v / 128
  | .rrc => v / 2 + v % 2 * 128
  | .rl => v * 2 % 256 + (if c then 1 else 0)
  | .rr => v / 2 + (if c then 128 else 0)
  | .sla => v * 2 % 256
  | .sra => v / 2 + v / 128 * 128
  | .swap => v % 16 * 16 + v / 16
  | .srl => v / 2

/-- The bit shifted out: bit 7 to the left, bit 0 to the right, none (0) for SWAP. -/
def ShiftKind.out (k : ShiftKind) (v : Nat) : Bool :=
  match k with
  | .rlc | .rl | .sla => v / 128 == 1
  | .rrc | .rr | .sra | .srl => v % 2 == 1
  | .swap => false

/-! ## The signals an instruction writes (10_state.md R46 to R52) -/

/-- The seven signals at the end of Execute. -/
def signalsAfter (i : Instr) (s : State) : Signals :=
  match i with
  | .halt => { s.signals with haltSignal := true }
  | .stop _ => { s.signals with stopSignal := true }
  | .di => { s.signals with interruptMasterEnable := false, clearInterruptStatusSignal := true }
  | .ei | .reti => { s.signals with interruptMasterEnable := true, clearInterruptStatusSignal := false }
  | .jrCc cc _ | .jpCc cc _ | .callCc cc _ | .retCc cc =>
    { s.signals with isExecutionAborted := s.signals.isExecutionAborted || !s.cond cc }
  | .jpu _ => { s.signals with userModeRequested := true }
  | .lduRHl _ | .lduABc | .lduADe | .lduAHli | .lduAHld | .lduANn _ | .ldhuAN _ | .lduAC =>
    { s.signals with userModeSourceOperandRequested := true }
  | _ => s.signals

/-! ## Two states User mode cannot tell apart (20_memory.md R106) -/

/-- The two states agree on everything but the contents of resources that no User entry names. -/
structure AgreeForUser (s s' : State) : Prop where
  regs : s'.regs = s.regs
  alternate : s'.alt = s.alt
  signals : s'.signals = s.signals
  mode : s'.mode = s.mode
  faultState : s'.fault = s.fault
  draws : s'.draws = s.draws
  parameters : s'.params = s.params
  table : s'.mem.table = s.mem.table
  userResources : ∀ e, e ∈ s.mem.table → e.ownership = .user →
    s'.mem.resources[e.resource]? = s.mem.resources[e.resource]?

/-! ## The spec's helpers as relations on numbers -/

/-- A bit as a number. -/
def bitNat (b : Bool) : Nat := if b then 1 else 0

/-- `(res, h, cy) = add8(a, b, c)` (41_arithmetic.md R201). -/
structure Sum8 (a b : Byte) (c : Bool) (res : Byte) (h cy : Bool) : Prop where
  result : res.toNat = (a.toNat + b.toNat + bitNat c) % 2 ^ 8
  half : h = decide (a.toNat % 16 + b.toNat % 16 + bitNat c > 0xF)
  carry : cy = decide (a.toNat + b.toNat + bitNat c > 0xFF)

/-- `(res, h, cy) = sub8(a, b, c)` (41_arithmetic.md R202). -/
structure Difference8 (a b : Byte) (c : Bool) (res : Byte) (h cy : Bool) : Prop where
  result : (res.toNat : Int) = ((a.toNat : Int) - b.toNat - bitNat c) % 2 ^ 8
  half : h = decide (a.toNat % 16 < b.toNat % 16 + bitNat c)
  carry : cy = decide (a.toNat < b.toNat + bitNat c)

/-- `(res, h, cy) = add16(a, b)` (41_arithmetic.md R203). -/
structure Sum16 (a b : Word) (res : Word) (h cy : Bool) : Prop where
  result : res.toNat = (a.toNat + b.toNat) % 2 ^ 16
  half : h = decide (a.toNat % 2 ^ 12 + b.toNat % 2 ^ 12 > 0xFFF)
  carry : cy = decide (a.toNat + b.toNat > 0xFFFF)

/-- `h` and `cy` of `addsp(a, e)`, whose 16-bit displacement is `x` and whose result is `res`
(41_arithmetic.md R204). -/
def SpFlags (rule : Config.SpFlagRule) (a : Word) (e : Byte) (x res : Word) (h cy : Bool) : Prop :=
  match rule with
  | .doc16 => Sum16 a x res h cy
  | .byte => h = decide (a.toNat % 16 + e.toNat % 16 > 0xF) ∧ cy = decide (a.toNat % 256 + e.toNat > 0xFF)

/-- `s8(e)`, the signed value of a displacement (00_scope.md R15). -/
def s8 (e : Byte) : Int := if e.toNat < 128 then e.toNat else (e.toNat : Int) - 256

/-- `t` is `a + s8(e)` modulo 2^16 (00_scope.md R15). -/
def Displaced (a : Word) (e : Byte) (t : Word) : Prop := (t.toNat : Int) = ((a.toNat : Int) + s8 e) % 2 ^ 16

/-- Bit `k` of a byte. -/
def bitOf (v : Byte) (k : Nat) : Bool := v.toNat / 2 ^ k % 2 == 1

/-- The four flags of `t`. -/
structure FlagsAre (t : State) (z n h cy : Bool) : Prop where
  z : t.flag .z = z
  n : t.flag .n = n
  h : t.flag .h = h
  cy : t.flag .cy = cy

/-! ## The fetched instruction -/

/-- Whether an instruction's last two bytes are a 16-bit immediate, which is one straddle-checked quantity
(20_memory.md R94; 40_control_unit.md R181). -/
def hasWordOperand (p : Config.Parameters) (i : Instr) : Bool :=
  (addressingModeFormat (addressingMode p i)).operand2AtPC

/-- The `RunCycle` stops and records `c` with the address of the instruction's first byte, memory as before
(60_exceptions.md R471, R476). -/
def State.stopsAt (s : State) (c : FaultCause) : Result :=
  .fault (.recorded { cause := c, instruction := s.pair .pc } s.mem)

/-- Pre-opcode `p` (0 if there is none) and opcode `o` are readable at PC, and `a` is the address after them
(30_encoding.md R134; 40_control_unit.md R172). -/
inductive OpcodeRead (s : State) : Byte → Byte → Word → Prop where
  | unprefixed (o : Byte) : isPreOpcode o = false → s.mem.peek s.mode (s.pair .pc) = some o →
      OpcodeRead s 0x00#8 o (s.pair .pc + 1)
  | prefixed (p o : Byte) : isPreOpcode p = true → s.mem.peek s.mode (s.pair .pc) = some p →
      s.mem.peek s.mode (s.pair .pc + 1) = some o → OpcodeRead s p o (s.pair .pc + 2)

/-- The bytes lie at PC, each readable in the current domain. -/
def State.bytesAtPc (s : State) (bytes : List Byte) : Prop :=
  ∀ k, k < bytes.length → s.mem.peek s.mode (s.pair .pc + BitVec.ofNat 16 k) = bytes[k]?

/-- The state at the Execute step of an instruction of these bytes: PC past them, PIR and IR as fetched,
`IsExecutionAborted` 0 (10_state.md R37, R44; 40_control_unit.md R171, R172). -/
def State.atExecute (s : State) (bytes : List Byte) : State :=
  let s1 := (s.setAborted false).setPair .pc (s.pair .pc + BitVec.ofNat 16 bytes.length)
  match bytes with
  | p :: o :: _ => if isPreOpcode p then (s1.setReg .pir p).setReg .ir o else (s1.setReg .pir 0).setReg .ir p
  | [o] => (s1.setReg .pir 0).setReg .ir o
  | [] => s1

end Sys2Proof.Machine
end

