-- ==== Sys2Proof/Certificates/Slice0/Obligations.lean ====
section
/-! DEFINITION. The statements for the provers. Every statement about an instruction is about
`Sys2Proof.Machine.exec`, the Execute step, where PC already holds `pc_next`; `StepRunsDecoded` carries it to a
`RunCycle`. The forms, frames and fault clauses are the definitions of Sys2Proof/Safety.lean. -/

section

open Sys2Proof Sys2Proof.Machine

/-! ## Reset, the invariant, the step -/

/-- What reset leaves, whatever the parameters: PC at `RESET_PC`, the other registers as `INIT_REGS` gives them, the
table, the resources and their contents as `MEMORY_MAP` gives them, bank 0 current in every Banked ROM, System mode, all
signals 0, no fault (10_state.md R65, 20_memory.md R84, 70_reset_and_hazards.md R510; mode, signals and fault state are
the spec's decisions D8, D9). `State.reset` is reset at the parameters' defaults, its map and its registers the model's
choice (log 1, 2, 3, 5). -/
def Obligations.ResetState : Prop :=
  (∀ (p : Config.Parameters) (u : ResetParameters) (s : State), s = State.resetWith p u →
    s.pair .pc = u.resetPc ∧ (∀ r, s.reg r = u.initRegs.reg r) ∧
    (∀ w, isWordRegister w = true → w ≠ .pc → s.pair w = u.initRegs.pair w) ∧ s.alt = u.initAlternate ∧
    s.mem.table = u.memoryMap.table ∧ s.mem.resources.length = u.memoryMap.resources.length ∧
    (∀ (n : Nat) (r : Resource), u.memoryMap.resources[n]? = some r → ∃ r' : Resource, s.mem.resources[n]? = some r' ∧
      r'.size = r.size ∧ r'.cells = r.cells ∧ (r.kind = .rom → r'.kind = .rom) ∧ (r.kind = .ram → r'.kind = .ram) ∧
      (∀ bankSize bank, r.kind = .bankedRom bankSize bank → r'.kind = .bankedRom bankSize 0)) ∧
    s.params = p ∧ s.mode = .system ∧ s.fault = none ∧
    s.signals.haltSignal = false ∧ s.signals.stopSignal = false ∧
    s.signals.interruptMasterEnable = false ∧ s.signals.clearInterruptStatusSignal = false ∧
    s.signals.isExecutionAborted = false ∧ s.signals.userModeRequested = false ∧
    s.signals.userModeSourceOperandRequested = false) ∧
  State.reset = State.resetWith Params.default ResetParameters.default ∧ State.reset.pair .pc = 0x0000#16

/-- The invariant holds at reset, with any parameters and any memory map the host can build; and at `State.reset`. -/
def Obligations.ResetKeepsForm : Prop :=
  (∀ (p : Config.Parameters) (u : ResetParameters), u.memoryMap.wf = true → (State.resetWith p u).Inv) ∧
  State.reset.Inv

/-- Every step from a state of the invariant leads to one, whatever the instruction: memory stays canonical, the
table sorted and without overlaps (20_memory.md R89), and both request signals are 0 at every boundary
(10_state.md R51, R52). -/
def Obligations.StepKeepsForm : Prop :=
  ∀ s t : State, s.Inv → step s = .next t → t.Inv

/-- A step runs the decoded instruction: where the bytes at PC are readable and decode to `i`, the step is `exec i`
at the state with PC past the bytes and PIR and IR written, followed by the post-cycle step or by recording the
fault (`finishCycle`). A 16-bit immediate must not straddle, or `STRADDLE_FAULT` be false. -/
def Obligations.StepRunsDecoded : Prop :=
  ∀ (s : State) (i : Instr) (bytes : List Byte), s.fault = none → i.wf = true →
    decode s.params bytes = .ok (i, []) → s.bytesAtPc bytes →
    (hasWordOperand s.params i = true → s.unstraddled (s.pair .pc + BitVec.ofNat 16 (bytes.length - 2))) →
    step s = finishCycle (s.pair .pc) (exec i (s.atExecute bytes))

/-- The post-cycle step (40_control_unit.md R179): the mode becomes User iff a switch was requested, both request
signals become 0, nothing else changes; and a raise becomes the fault record with the address of the instruction's
first byte. -/
def Obligations.PostCycleStep : Prop :=
  (∀ (start : Word) (t : State), ∃ u, finishCycle start (.next t) = .next u ∧
    u.mode = (if t.signals.userModeRequested then .user else t.mode) ∧
    u.signals = { t.signals with userModeRequested := false, userModeSourceOperandRequested := false } ∧
    u.regs = t.regs ∧ u.alt = t.alt ∧ u.mem = t.mem ∧ u.fault = t.fault ∧ u.draws = t.draws ∧
    u.params = t.params) ∧
  (∀ (start : Word) (c : FaultCause) (m : Memory), finishCycle start (.fault (.raised c m)) =
    .fault (.recorded { cause := c, instruction := start } m))

/-- A fetch of an unmapped byte stops the step with `MemoryControllerException` at that byte, memory as before: the first
byte; the opcode after any of the four pre-opcodes; a one-byte immediate; the first and the second byte of a 16-bit
immediate. The second byte of a 16-bit immediate is reported as a straddle of the two where `STRADDLE_FAULT` is true
(20_memory.md R94: the spec's decision D15). -/
def Obligations.FetchFaults : Prop :=
  (∀ s : State, s.fault = none → s.mem.covers s.mode (s.pair .pc) = false →
    step s = s.stopsAt (.unmapped (s.pair .pc) s.mode .fetch)) ∧
  (∀ (s : State) (p : Byte), s.fault = none → isPreOpcode p = true → s.mem.peek s.mode (s.pair .pc) = some p →
    s.mem.covers s.mode (s.pair .pc + 1) = false →
    step s = s.stopsAt (.unmapped (s.pair .pc + 1) s.mode .fetch)) ∧
  (∀ (s : State) (p o : Byte) (a : Word), s.fault = none → OpcodeRead s p o a →
    (∀ f, decodeOpcode s.params p o = .ok (.imm8 f) → s.mem.covers s.mode a = false →
      step s = s.stopsAt (.unmapped a s.mode .fetch)) ∧
    (∀ f, decodeOpcode s.params p o = .ok (.imm16 f) →
      (s.mem.covers s.mode a = false → step s = s.stopsAt (.unmapped a s.mode .fetch)) ∧
      (∀ low, s.mem.peek s.mode a = some low → s.mem.covers s.mode (a + 1) = false →
        step s = s.stopsAt (if s.params.straddleFault then .straddle a s.mode
          else .unmapped (a + 1) s.mode .fetch)))) ∧
  (∀ a d, exceptionOf (.unmapped a d .fetch) = .memoryController ∧
    exceptionOf (.straddle a d) = .memoryController)

/-- Each of the eight illegal opcodes raises `InstructionException`, cause `Undecodable`, info the opcode byte, after
its one byte; no other unprefixed byte that is no pre-opcode is undecodable; `0xED` is no pre-opcode. -/
def Obligations.IllegalOpcodes : Prop :=
  (∀ (p : Config.Parameters) (o : Byte), isPreOpcode o = false →
    (decodeOpcode p 0x00#8 o = .error (.undecodable o) ↔
      o ∈ [0xD3#8, 0xDB#8, 0xE3#8, 0xE4#8, 0xEB#8, 0xEC#8, 0xED#8, 0xF4#8])) ∧
  (∀ (s : State) (o : Byte), s.fault = none →
    o ∈ [0xD3#8, 0xDB#8, 0xE3#8, 0xE4#8, 0xEB#8, 0xEC#8, 0xED#8, 0xF4#8] →
    s.mem.peek s.mode (s.pair .pc) = some o →
    step s = s.stopsAt (.undecodable o) ∧
      exceptionOf (.undecodable o) = .instruction) ∧
  isPreOpcode 0xED#8 = false

/-- Every `DD xx` and `FD xx` outside `INDEX_TABLE`, and every `FC xx` outside `GBX_TABLE`, raises `InstructionException`,
cause `Unmodelled`, after both bytes; the defaults of the two tables (30_encoding.md R146, R147: the spec's decisions D10,
D11; the form of a row is the model's, log 10). -/
def Obligations.UnmodelledOpcodes : Prop :=
  (∀ (s : State) (p o : Byte), s.fault = none →
    ((p = 0xDD#8 ∨ p = 0xFD#8) ∧ (∀ row, row ∈ s.params.indexTable → row.preOpcode = p → row.opcode ≠ o)) ∨
      (p = 0xFC#8 ∧ ∀ row, row ∈ s.params.gbxTable → row.opcode ≠ o) →
    s.mem.peek s.mode (s.pair .pc) = some p → s.mem.peek s.mode (s.pair .pc + 1) = some o →
    step s = s.stopsAt (.unmodelled p o) ∧ exceptionOf (.unmodelled p o) = .instruction) ∧
  Params.default.indexTable = [] ∧
  Params.default.gbxTable.map (·.opcode) = [0xC3#8, 0x0A#8, 0x1A#8, 0x2A#8, 0x3A#8, 0xFA#8, 0xF0#8, 0xF2#8,
    0x46#8, 0x4E#8, 0x56#8, 0x5E#8, 0x66#8, 0x6E#8, 0x7E#8]

/-- Words written out from the encodings of the spec decode to their instructions, one of each family, at the
parameters' defaults. -/
def Obligations.DecodedWords : Prop :=
  decode Params.default [0x90#8] = .ok (.subR .b, []) ∧
  decode Params.default [0xEE#8, 0x0F#8] = .ok (.xorN 0x0F#8, []) ∧
  decode Params.default [0xCB#8, 0x7F#8] = .ok (.bitR 7#3 .a, []) ∧
  decode Params.default [0x28#8, 0x0E#8] = .ok (.jrCc .z 0x0E#8, []) ∧
  decode Params.default [0xCD#8, 0x00#8, 0x70#8] = .ok (.call 0x7000#16, []) ∧
  decode Params.default [0x5E#8] = .ok (.ldRHl .e, []) ∧
  decode Params.default [0xF5#8] = .ok (.push .af, []) ∧
  decode Params.default [0x76#8] = .ok (.halt, []) ∧
  decode Params.default [0xFC#8, 0xC3#8, 0x00#8, 0x40#8] = .ok (.jpu 0x4000#16, [])

/-- Decoding what the encoder writes gives the instruction back, for every instruction that has an encoding, with every
operand at every value, whatever bytes follow, under any parameters whose `GBX_TABLE` is one to one; under the defaults
every well-formed instruction has one. -/
def Obligations.DecodeEncode : Prop :=
  (∀ (p : Config.Parameters) (i : Instr) (rest : List Byte), p.gbxOneToOne = true → i.encodable p = true →
    decode p (encode p i ++ rest) = .ok (i, rest)) ∧
  Params.default.gbxOneToOne = true ∧ ∀ i : Instr, i.wf = true → i.encodable Params.default = true

/-- Each word has one meaning: bytes that decode are the encoding of the instruction, which is well-formed; or a row of
`INDEX_TABLE` gives them the instruction of its base opcode (log 10). -/
def Obligations.EncodeDecode : Prop :=
  ∀ (p : Config.Parameters) (bytes rest : List Byte) (i : Instr), p.gbxOneToOne = true →
    decode p bytes = .ok (i, rest) →
    i.wf = true ∧ ((i.encodable p = true ∧ bytes = encode p i ++ rest) ∨
      ∃ pre o base tail, bytes = pre :: o :: tail ∧ (pre = 0xDD#8 ∨ pre = 0xFD#8) ∧
        p.indexBase? pre o = some base ∧ decode p (base :: tail) = .ok (i, rest))

/-- The fault state: `none` at reset; a raise sets it; nothing clears it; while it holds a record `Run()` performs no
step. -/
def Obligations.FaultStopsCore : Prop :=
  State.reset.fault = none ∧
  (∀ (s : State) (r : FaultRecord) (m : Memory), step s = .fault (.recorded r m) → s.run.fault = some r) ∧
  (∀ (s : State) (r : FaultRecord), s.fault = some r → step s = .fault (.stopped r) ∧ s.run = s)

/-- What a faulting step records and leaves: the record names the instruction's first byte and one of the causes a
`RunCycle` can reach, never `OutOfBounds`; memory holds exactly the writes that completed. Those are none where
`STRADDLE_FAULT` is true, none after a fault of the fetch, an operand byte or the decoding, and none of an instruction that
does not store two bytes. Where it is false, the first byte of an instruction that stores two stays if its write
completed, and if it did not, nothing was stored and its fault is the one recorded (60_exceptions.md R471, R476: the
spec's decision D23). -/
def Obligations.FaultRecordAndMemory : Prop :=
  ∀ (s : State) (r : FaultRecord) (m : Memory), s.Inv → step s = .fault (.recorded r m) →
    s.fault = none ∧ r.instruction = s.pair .pc ∧ s.run.mem = m ∧
    (s.params.straddleFault = true → m = s.mem) ∧
    (∀ c, s.beginCycle.fetchInstr = .error c → m = s.mem ∧ r.cause = c) ∧
    (∀ i s1, s.beginCycle.fetchInstr = .ok (i, s1) →
      ((∀ a v, ¬ FirstOfTwoStores s1 i a v) → m = s.mem) ∧
      (s.params.straddleFault = false → ∀ a v, FirstOfTwoStores s1 i a v →
        (∀ m', s.mem.writeByte s.mode a v = .ok m' → m = m') ∧
        (∀ c, s.mem.writeByte s.mode a v = .error c → m = s.mem ∧ r.cause = c))) ∧
    ((∃ a d, r.cause = .readOnlyWrite a d) ∨ (∃ a d k, r.cause = .unmapped a d k) ∨
      (∃ a d, r.cause = .straddle a d) ∨ (∃ o, r.cause = .undecodable o) ∨
      (∃ p o, r.cause = .unmodelled p o))

/-- IR and PIR after a step: the opcode byte, and the pre-opcode or 0, of the instruction just run. No instruction
names them as an operand, so none changes them after the fetch. -/
def Obligations.ScratchRegisters : Prop :=
  (∀ (s t : State) (i : Instr), i.wf = true → exec i s = .next t →
    t.reg .ir = s.reg .ir ∧ t.reg .pir = s.reg .pir) ∧
  (∀ (s t : State) (o : Byte), step s = .next t → s.mem.peek s.mode (s.pair .pc) = some o →
    isPreOpcode o = false → t.reg .ir = o ∧ t.reg .pir = 0) ∧
  (∀ (s t : State) (p o : Byte), step s = .next t → s.mem.peek s.mode (s.pair .pc) = some p →
    s.mem.peek s.mode (s.pair .pc + 1) = some o → isPreOpcode p = true → t.reg .ir = o ∧ t.reg .pir = p)

/-- Only `JPU` requests a switch of mode, no instruction writes the mode itself, and no step leaves User mode
(48_gbx_privilege.md R451: the spec's decision D12). -/
def Obligations.ModeChangesOnlyByJpu : Prop :=
  (∀ (s t : State) (i : Instr), exec i s = .next t → t.mode = s.mode ∧
    (t.signals.userModeRequested = true → s.signals.userModeRequested = true ∨ ∃ nn, i = .jpu nn)) ∧
  (∀ s t : State, step s = .next t → s.mode = .user → t.mode = .user)

/-- Isolation of the domains: in User mode a step neither reads nor writes what only System entries name. Two states
that differ only in such contents step alike, to states that again differ only there, and those contents stay
(20_memory.md R106). -/
def Obligations.UserModeIsolation : Prop :=
  ∀ s s' : State, s.mode = .user → AgreeForUser s s' →
    (∀ t, step s = .next t → ∃ t', step s' = .next t' ∧ AgreeForUser t t' ∧
      ∀ n, (∀ e, e ∈ s.mem.table → e.ownership = .user → e.resource ≠ n) →
        t.mem.resources[n]? = s.mem.resources[n]?) ∧
    (∀ r m, step s = .fault (.recorded r m) → ∃ m', step s' = .fault (.recorded r m') ∧
      AgreeForUser { s with mem := m } { s' with mem := m' } ∧
      ∀ n, (∀ e, e ∈ s.mem.table → e.ownership = .user → e.resource ≠ n) →
        m.resources[n]? = s.mem.resources[n]?) ∧
    (∀ r, step s = .fault (.stopped r) → step s' = .fault (.stopped r))

/-- No step changes a parameter, the resource table, the kind, size or current bank of a resource, or a byte of a ROM
(20_memory.md R82, R85, R96; 70_reset_and_hazards.md R522). -/
def Obligations.StepKeepsConfiguration : Prop :=
  ∀ s t : State, step s = .next t →
    t.params = s.params ∧ t.mem.table = s.mem.table ∧ t.mem.resources.length = s.mem.resources.length ∧
    ∀ (n : Nat) (r : Resource), s.mem.resources[n]? = some r →
      ∃ r', t.mem.resources[n]? = some r' ∧ r'.kind = r.kind ∧ r'.size = r.size ∧ (r.kind ≠ .ram → r' = r)

/-- No instruction reads or writes the alternate bank or writes IX, IY, the fault state (10_state.md R36, R38: the
spec's decisions D10, D36). -/
def Obligations.UnusedStateUntouched : Prop :=
  ∀ (s t : State) (i : Instr), i.wf = true → exec i s = .next t →
    t.alt = s.alt ∧ t.pair .ix = s.pair .ix ∧ t.pair .iy = s.pair .iy ∧ t.fault = s.fault ∧
    t.draws = s.draws ∧ t.params = s.params ∧
    ∀ b : RegBank, exec i { s with alt := b } = .next { t with alt := b }

/-- Which instruction writes which signal, over all instructions (10_state.md R46 to R52: the spec's decisions D12,
D13, D18, D20 to D22). -/
def Obligations.SignalWriters : Prop :=
  ∀ (s t : State) (i : Instr), exec i s = .next t → t.signals = signalsAfter i s

/-- The addressing-mode table bounds what each instruction does: without a write-back step it leaves memory, without
`changesPC` it leaves PC at `pc_next`, and without a memory step it cannot fault (40_control_unit.md R181). -/
def Obligations.AddressingModeBounds : Prop :=
  ∀ (s : State) (i : Instr), i.wf = true →
    (∀ t, exec i s = .next t → (addressingModeFormat (addressingMode s.params i)).writesMemory = false →
      t.mem = s.mem) ∧
    (∀ t, exec i s = .next t → (addressingModeFormat (addressingMode s.params i)).changesPC = false →
      t.pair .pc = s.pair .pc) ∧
    ((addressingModeFormat (addressingMode s.params i)).writesMemory = false →
      (addressingModeFormat (addressingMode s.params i)).readsMemory = false → ∃ t, exec i s = .next t)

/-- HALT and STOP set their signal and return normally, and a set `HaltSignal` or `StopSignal` does not block the next
step: it does what it would have done with the signal clear. -/
def Obligations.HaltAndStopDoNotBlock : Prop :=
  (∀ s : State, ∃ t, exec .halt s = .next t ∧ t.signals.haltSignal = true) ∧
  (∀ (s : State) (x : Byte), ∃ t, exec (.stop x) s = .next t ∧ t.signals.stopSignal = true) ∧
  (∀ s t : State, step s = .next t →
    step (s.setHalt true) = .next (t.setHalt true) ∧ step (s.setStop true) = .next (t.setStop true))

/-! ## The register bank and the flags -/

/-- Pair access accepts exactly the eight pairs, writes the high byte to the high cell and the low byte to the low
cell, reads the value written back, refuses every other register with `RegisterBankException`; so the halves of BC
read 0x12 and 0x34 after `WritePair(BC, 0x1234)`. -/
def Obligations.PairAccess : Prop :=
  (∀ (s : State) (rr : Reg16) (v : Word), ∃ t, s.writePair (.pair rr) v = .ok t ∧
    t.readPair (.pair rr) = .ok v) ∧
  (∀ (s : State) (v : Word) (rr : Reg16) (high low : Reg8), pairHalves rr = [high, low] →
    ∃ t, s.writePair (.pair rr) v = .ok t ∧
      t.readRegister (.single high) = .ok (BitVec.ofNat 8 (v.toNat / 256)) ∧
      t.readRegister (.single low) = .ok (BitVec.ofNat 8 (v.toNat % 256)) ∧
      s.readPair (.pair rr) = .ok (BitVec.ofNat 16 ((s.reg high).toNat * 256 + (s.reg low).toNat))) ∧
  (∀ (s : State) (n : RegisterName) (v : Word), (∀ rr, n ≠ .pair rr) →
    s.readPair n = .error (.badRegister n) ∧ s.writePair n v = .error (.badRegister n) ∧
      exceptionOf (.badRegister n) = .registerBank) ∧
  (∀ s : State, ∃ t, s.writePair (.pair .bc) 0x1234#16 = .ok t ∧
    t.readRegister (.single .b) = .ok 0x12#8 ∧ t.readRegister (.single .c) = .ok 0x34#8)

/-- A flag is the bit of F at its `FLAG_LAYOUT` position; writing it gives it the value and perturbs no other flag, no
other bit of F and no other register (10_state.md R40, R41). -/
def Obligations.FlagIsolation : Prop :=
  ∀ (s : State) (f : Flag) (b : Bool),
    s.flag f = bitOf (s.reg .f) (flagPosition s.params.flagLayout f).val ∧
    (∀ k, bitOf ((s.writeFlag f b).reg .f) k =
      if k = (flagPosition s.params.flagLayout f).val then b else bitOf (s.reg .f) k) ∧
    (s.writeFlag f b).flag f = b ∧ (s.setFlagOf f).flag f = true ∧ (s.clearFlagOf f).flag f = false ∧
    (∀ g, g ≠ f → (s.writeFlag f b).flag g = s.flag g) ∧
    nonFlagBits ((s.writeFlag f b).reg .f) = nonFlagBits (s.reg .f) ∧
    Quiet s (s.writeFlag f b) [] [] [f]

/-! ## Memory -/

/-- The bank windowing law, for a Banked ROM of 16 banks of 128 bytes with any image loaded. -/
def Obligations.BankWindowing : Prop :=
  ∀ (image : List Byte) (r : Resource) (k o : Nat), image.length = 2048 → k < 16 → o < 128 →
    (Params.blankResource (.bankedRom 128 0) 2048).load image 0 = .ok r →
    ∃ r', r.selectBank k = .ok r' ∧ r'.readByte o = .ok (image.getD (k * 128 + o) 0)

/-- Registering two resources with intersecting ranges under one ownership raises `MemoryControllerException`,
whichever comes first. -/
def Obligations.OverlapRejection : Prop :=
  ∀ (m m' : Memory) (n n' : Nat) (g g' : AddressRange) (own : Domain) (a : Word),
    m.register n g own = .ok m' → g.contains a = true → g'.contains a = true →
    ∃ c, m'.register n' g' own = .error c ∧ exceptionOf c = .memoryController

/-- The boundary law: with a resource registered over `[0x0200, 0x0300)` and nothing else covering the two addresses,
reading 0x01FF and writing 0x0300 raise `MemoryControllerException`, while 0x0200 and 0x02FF are covered. -/
def Obligations.BoundaryLaw : Prop :=
  ∀ (m m' : Memory) (n : Nat) (own : Domain) (k : AccessKind) (v : Byte),
    m.register n { first := 0x0200#16, last := 0x0300#16, type := .halfOpen } own = .ok m' →
    m.covers own 0x01FF#16 = false → m.covers own 0x0300#16 = false →
    (∃ c, m'.readByte own 0x01FF#16 k = .error c ∧ exceptionOf c = .memoryController) ∧
    (∃ c, m'.writeByte own 0x0300#16 v = .error c ∧ exceptionOf c = .memoryController) ∧
    m'.covers own 0x0200#16 = true ∧ m'.covers own 0x02FF#16 = true

/-- The routing law: an address in the range of an entry is read from and written to that entry's resource, and no
other resource's contents change. -/
def Obligations.RoutingLaw : Prop :=
  ∀ (m : Memory) (e : Entry) (a : Word), m.wf = true → e ∈ m.table → e.range.contains a = true →
    ∃ r, m.resources[e.resource]? = some r ∧
      (∀ k, m.readByte e.ownership a k = r.readByte (a.toNat - e.range.first.toNat)) ∧
      (∀ v m', m.writeByte e.ownership a v = .ok m' →
        ∀ n, n ≠ e.resource → m'.resources[n]? = m.resources[n]?)

/-- A read after a write: a write to RAM stores the byte, every address naming the same byte of the same resource
reads it, and every other address reads as before (20_memory.md R83, R89, R95, R110). -/
def Obligations.ReadAfterWrite : Prop :=
  ∀ (s : State) (a : Word) (v : Byte), s.mem.wf = true → s.mem.writable s.mode a = true →
    ∃ m, s.mem.writeByte s.mode a v = .ok m ∧ m.wf = true ∧ m.peek s.mode a = some v ∧
      StoredByte s { s with mem := m } a v

/-! ## Arithmetic -/

/-- ADD and ADC on a register, on `(HL)` and on an immediate (that the carry-in counts in H is the spec's own inference,
41_arithmetic.md R201). -/
def Obligations.AddResult : Prop :=
  (∀ (s : State) (i : Instr) (v : Byte) (c : Bool),
    (Source8 s .addR .addHl .addN i v ∧ c = false) ∨ (Source8 s .adcR .adcHl .adcN i v ∧ c = s.flag .cy) →
    ∃ t h cy, exec i s = .next t ∧ Sum8 (s.reg .a) v c (t.reg .a) h cy ∧
      FlagsAre t (t.reg .a == 0) false h cy ∧ Quiet s t [.a] [] [.z, .n, .h, .cy]) ∧
  Source8Faults .addHl .addN ∧ Source8Faults .adcHl .adcN

/-- SUB and SBC on a register, on `(HL)` and on an immediate. -/
def Obligations.SubtractResult : Prop :=
  (∀ (s : State) (i : Instr) (v : Byte) (c : Bool),
    (Source8 s .subR .subHl .subN i v ∧ c = false) ∨ (Source8 s .sbcR .sbcHl .sbcN i v ∧ c = s.flag .cy) →
    ∃ t h cy, exec i s = .next t ∧ Difference8 (s.reg .a) v c (t.reg .a) h cy ∧
      FlagsAre t (t.reg .a == 0) true h cy ∧ Quiet s t [.a] [] [.z, .n, .h, .cy]) ∧
  Source8Faults .subHl .subN ∧ Source8Faults .sbcHl .sbcN

/-- CP on a register, on `(HL)` and on an immediate: the flags of SUB, with A unchanged; Z iff equal, CY iff below. -/
def Obligations.CompareResult : Prop :=
  (∀ (s : State) (i : Instr) (v : Byte), Source8 s .cpR .cpHl .cpN i v →
    ∃ t res h cy, exec i s = .next t ∧ Difference8 (s.reg .a) v false res h cy ∧
      FlagsAre t (res == 0) true h cy ∧ (t.flag .z = true ↔ s.reg .a = v) ∧
      (t.flag .cy = true ↔ (s.reg .a).toNat < v.toNat) ∧ Quiet s t [] [] [.z, .n, .h, .cy]) ∧
  Source8Faults .cpHl .cpN

/-- INC and DEC of a register, with CY kept, and of a pair, with every flag kept. -/
def Obligations.IncDecRegister : Prop :=
  (∀ (s : State) (r : Reg8), r.isOperand = true →
    (∃ t h cy, exec (.incR r) s = .next t ∧ Sum8 (s.reg r) 1 false (t.reg r) h cy ∧
      FlagsAre t (t.reg r == 0) false h (s.flag .cy) ∧ Quiet s t [r] [] [.z, .n, .h]) ∧
    (∃ t h cy, exec (.decR r) s = .next t ∧ Difference8 (s.reg r) 1 false (t.reg r) h cy ∧
      FlagsAre t (t.reg r == 0) true h (s.flag .cy) ∧ Quiet s t [r] [] [.z, .n, .h])) ∧
  (∀ (s : State) (rr : Reg16), rr.isAluPair = true →
    (∃ t, exec (.incRr rr) s = .next t ∧ (t.pair rr).toNat = ((s.pair rr).toNat + 1) % 2 ^ 16 ∧
      Quiet s t (pairHalves rr) [rr] []) ∧
    (∃ t, exec (.decRr rr) s = .next t ∧ ((t.pair rr).toNat : Int) = ((s.pair rr).toNat - 1) % 2 ^ 16 ∧
      Quiet s t (pairHalves rr) [rr] []))

/-- INC and DEC of the byte at HL. -/
def Obligations.IncDecMemory : Prop :=
  (∀ (s : State) (m : Byte), CanModify s m →
    (∃ t v h cy, exec .incHl s = .next t ∧ Sum8 m 1 false v h cy ∧
      FlagsAre t (v == 0) false h (s.flag .cy) ∧ Stores s t (s.pair .hl) v [] [.z, .n, .h]) ∧
    (∃ t v h cy, exec .decHl s = .next t ∧ Difference8 m 1 false v h cy ∧
      FlagsAre t (v == 0) true h (s.flag .cy) ∧ Stores s t (s.pair .hl) v [] [.z, .n, .h])) ∧
  (∀ s : State, ModifyFaults s (s.pair .hl) (exec .incHl s) ∧ ModifyFaults s (s.pair .hl) (exec .decHl s))

/-- ADD HL,rr: Z is kept. -/
def Obligations.AddHlResult : Prop :=
  ∀ (s : State) (rr : Reg16), rr.isAluPair = true →
    ∃ t h cy, exec (.addHlRr rr) s = .next t ∧ Sum16 (s.pair .hl) (s.pair rr) (t.pair .hl) h cy ∧
      FlagsAre t (s.flag .z) false h cy ∧ Quiet s t [.h, .l] [] [.n, .h, .cy]

/-- ADD SP,e and LD HL,SP+e: the sum with the sign-extended displacement, Z and N cleared, H and CY as
`SP_FLAG_RULE` says, for both its values (41_arithmetic.md R204: the spec's decision D24). -/
def Obligations.StackPointerOffset : Prop :=
  ∀ (s : State) (e : Byte), ∃ x : Word, Displaced 0#16 e x ∧
    (∃ t h cy, exec (.addSpE e) s = .next t ∧ Displaced (s.pair .sp) e (t.pair .sp) ∧
      SpFlags s.params.spFlagRule (s.pair .sp) e x (t.pair .sp) h cy ∧ FlagsAre t false false h cy ∧
      Quiet s t [] [.sp] [.z, .n, .h, .cy]) ∧
    (∃ t h cy, exec (.ldHlSpE e) s = .next t ∧ Displaced (s.pair .sp) e (t.pair .hl) ∧
      SpFlags s.params.spFlagRule (s.pair .sp) e x (t.pair .hl) h cy ∧ FlagsAre t false false h cy ∧
      Quiet s t [.h, .l] [] [.z, .n, .h, .cy])

/-- DAA: the BCD correction after an addition (N = 0) and after a subtraction (N = 1), for every A. -/
def Obligations.DecimalAdjust : Prop :=
  ∀ s : State, ∃ t, exec .daa s = .next t ∧ t.flag .z = (t.reg .a == 0) ∧ t.flag .h = false ∧
    Quiet s t [.a] [] [.z, .h, .cy] ∧
    (s.flag .n = false →
      t.flag .cy = (s.flag .cy || decide ((s.reg .a).toNat > 0x99)) ∧
      (t.reg .a).toNat = ((s.reg .a).toNat + (if t.flag .cy then 0x60 else 0) +
        (if s.flag .h || decide ((s.reg .a).toNat % 16 > 9) then 6 else 0)) % 2 ^ 8) ∧
    (s.flag .n = true →
      t.flag .cy = s.flag .cy ∧
      ((t.reg .a).toNat : Int) = ((s.reg .a).toNat - (if s.flag .cy then 0x60 else 0) -
        (if s.flag .h then 6 else 0)) % 2 ^ 8)

/-! ## Logic -/

/-- AND, XOR and OR on a register, on `(HL)` and on an immediate; only AND sets H. -/
def Obligations.LogicResult : Prop :=
  (∀ (s : State) (i : Instr) (v : Byte), Source8 s .andR .andHl .andN i v →
    ∃ t, exec i s = .next t ∧ (∀ k, bitOf (t.reg .a) k = (bitOf (s.reg .a) k && bitOf v k)) ∧
      FlagsAre t (t.reg .a == 0) false true false ∧ Quiet s t [.a] [] [.z, .n, .h, .cy]) ∧
  (∀ (s : State) (i : Instr) (v : Byte), Source8 s .xorR .xorHl .xorN i v →
    ∃ t, exec i s = .next t ∧ (∀ k, bitOf (t.reg .a) k = (bitOf (s.reg .a) k ^^ bitOf v k)) ∧
      FlagsAre t (t.reg .a == 0) false false false ∧ Quiet s t [.a] [] [.z, .n, .h, .cy]) ∧
  (∀ (s : State) (i : Instr) (v : Byte), Source8 s .orR .orHl .orN i v →
    ∃ t, exec i s = .next t ∧ (∀ k, bitOf (t.reg .a) k = (bitOf (s.reg .a) k || bitOf v k)) ∧
      FlagsAre t (t.reg .a == 0) false false false ∧ Quiet s t [.a] [] [.z, .n, .h, .cy]) ∧
  Source8Faults .andHl .andN ∧ Source8Faults .xorHl .xorN ∧ Source8Faults .orHl .orN

/-- CPL, SCF and CCF. -/
def Obligations.ComplementAndCarry : Prop :=
  ∀ s : State,
    (∃ t, exec .cpl s = .next t ∧ (t.reg .a).toNat = 255 - (s.reg .a).toNat ∧
      FlagsAre t (s.flag .z) true true (s.flag .cy) ∧ Quiet s t [.a] [] [.n, .h]) ∧
    (∃ t, exec .scf s = .next t ∧ FlagsAre t (s.flag .z) false false true ∧
      Quiet s t [] [] [.n, .h, .cy]) ∧
    (∃ t, exec .ccf s = .next t ∧ FlagsAre t (s.flag .z) false false (!s.flag .cy) ∧
      Quiet s t [] [] [.n, .h, .cy])

/-! ## Rotates, shifts, bits -/

/-- RLCA, RRCA, RLA, RRA: the rotate of A, with Z, N and H cleared (43_bit_rotate.md R280 to R284: that Z is cleared
is the spec's decision D25). -/
def Obligations.AccumulatorRotates : Prop :=
  ∀ (s : State) (i : Instr) (k : ShiftKind),
    (i, k) ∈ [(Instr.rlca, ShiftKind.rlc), (.rrca, .rrc), (.rla, .rl), (.rra, .rr)] →
    ∃ t, exec i s = .next t ∧ (t.reg .a).toNat = k.result (s.reg .a).toNat (s.flag .cy) ∧
      FlagsAre t false false false (k.out (s.reg .a).toNat) ∧ Quiet s t [.a] [] [.z, .n, .h, .cy]

/-- The eight `0xCB` rotates and shifts of a register: Z of the result, N and H cleared, CY the bit shifted out; SWAP
clears CY (43_bit_rotate.md R297: the spec's decision D26). -/
def Obligations.ShiftRegister : Prop :=
  ∀ (s : State) (k : ShiftKind) (r : Reg8), r.isOperand = true →
    ∃ t, exec (k.onRegister r) s = .next t ∧
      (t.reg r).toNat = k.result (s.reg r).toNat (s.flag .cy) ∧
      FlagsAre t (t.reg r == 0) false false (k.out (s.reg r).toNat) ∧ Quiet s t [r] [] [.z, .n, .h, .cy]

/-- The same of the byte at HL, which is read and written back. -/
def Obligations.ShiftMemory : Prop :=
  (∀ (s : State) (k : ShiftKind) (m : Byte), CanModify s m →
    ∃ t v, exec k.onHl s = .next t ∧ v.toNat = k.result m.toNat (s.flag .cy) ∧
      FlagsAre t (v == 0) false false (k.out m.toNat) ∧ Stores s t (s.pair .hl) v [] [.z, .n, .h, .cy]) ∧
  (∀ (s : State) (k : ShiftKind), ModifyFaults s (s.pair .hl) (exec k.onHl s))

/-- BIT b of a register and of the byte at HL: Z set iff the bit is 0, N cleared, H set, CY and the operand kept
(43_bit_rotate.md R301, R302: the spec's decision D27). -/
def Obligations.BitTest : Prop :=
  (∀ (s : State) (b : BitVec 3) (r : Reg8), ∃ t, exec (.bitR b r) s = .next t ∧
    FlagsAre t (!bitOf (s.reg r) b.toNat) false true (s.flag .cy) ∧ Quiet s t [] [] [.z, .n, .h]) ∧
  (∀ (s : State) (b : BitVec 3) (m : Byte), s.mem.peek s.mode (s.pair .hl) = some m →
    ∃ t, exec (.bitHl b) s = .next t ∧
      FlagsAre t (!bitOf m b.toNat) false true (s.flag .cy) ∧ Quiet s t [] [] [.z, .n, .h]) ∧
  (∀ (s : State) (b : BitVec 3), ReadFaults s s.mode (s.pair .hl) (exec (.bitHl b) s))

/-- RES and SET of bit b of a register and of the byte at HL: that bit becomes 0 or 1, every other bit and every flag
stays; the store faults in a ROM whatever the bit was. -/
def Obligations.ResetAndSetBit : Prop :=
  (∀ (s : State) (b : BitVec 3) (r : Reg8), r.isOperand = true →
    (∃ t, exec (.resR b r) s = .next t ∧
      (∀ k, bitOf (t.reg r) k = (bitOf (s.reg r) k && k != b.toNat)) ∧ Quiet s t [r] [] []) ∧
    (∃ t, exec (.setR b r) s = .next t ∧
      (∀ k, bitOf (t.reg r) k = (bitOf (s.reg r) k || k == b.toNat)) ∧ Quiet s t [r] [] [])) ∧
  (∀ (s : State) (b : BitVec 3) (m : Byte), CanModify s m →
    (∃ t v, exec (.resHl b) s = .next t ∧ (∀ k, bitOf v k = (bitOf m k && k != b.toNat)) ∧
      Stores s t (s.pair .hl) v [] []) ∧
    (∃ t v, exec (.setHl b) s = .next t ∧ (∀ k, bitOf v k = (bitOf m k || k == b.toNat)) ∧
      Stores s t (s.pair .hl) v [] [])) ∧
  (∀ (s : State) (b : BitVec 3), ModifyFaults s (s.pair .hl) (exec (.resHl b) s) ∧
    ModifyFaults s (s.pair .hl) (exec (.setHl b) s))

/-! ## Control transfer -/

/-- JP nn, JP HL and JR e: PC becomes the target, nothing else changes. PC held `pc_next`. A
straddling immediate is checked for both values of `STRADDLE_FAULT`. -/
def Obligations.JumpResult : Prop :=
  (∀ (s : State) (nn : Word), ∃ t, exec (.jp nn) s = .next t ∧ t.pair .pc = nn ∧ Quiet s t [] [.pc] []) ∧
  (∀ s : State, ∃ t, exec .jpHl s = .next t ∧ t.pair .pc = s.pair .hl ∧ Quiet s t [] [.pc] []) ∧
  (∀ (s : State) (e : Byte), ∃ t, exec (.jr e) s = .next t ∧ Displaced (s.pair .pc) e (t.pair .pc) ∧
    Quiet s t [] [.pc] []) ∧
  FaultsOnWord .jp ∧ FaultsOnByte .jr

/-- JP cc,nn and JR cc,e: the jump if the condition holds, else `IsExecutionAborted` and nothing more
(44_control_flow.md R322, R325: the spec's decision D18; both values of `STRADDLE_FAULT`). -/
def Obligations.ConditionalJump : Prop :=
  (∀ (s : State) (cc : Cond) (nn : Word), condHolds cc s →
    ∃ t, exec (.jpCc cc nn) s = .next t ∧ t.pair .pc = nn ∧ Quiet s t [] [.pc] []) ∧
  (∀ (s : State) (cc : Cond) (e : Byte), condHolds cc s →
    ∃ t, exec (.jrCc cc e) s = .next t ∧ Displaced (s.pair .pc) e (t.pair .pc) ∧ Quiet s t [] [.pc] []) ∧
  (∀ (s : State) (cc : Cond) (nn : Word) (e : Byte), ¬ condHolds cc s →
    (∃ t, exec (.jpCc cc nn) s = .next t ∧ NotTaken s t) ∧ (∃ t, exec (.jrCc cc e) s = .next t ∧ NotTaken s t)) ∧
  (∀ cc, FaultsOnWord (.jpCc cc)) ∧ (∀ cc, FaultsOnByte (.jrCc cc))

/-- CALL nn and RST t: the return address `pc_next` is pushed, high byte at the higher address, and PC becomes the
target; the push faults as the memory does (both values of `STRADDLE_FAULT`). -/
def Obligations.CallResult : Prop :=
  (∀ s : State, CanPush s →
    (∀ nn : Word, ∃ t, exec (.call nn) s = .next t ∧ Called s t nn) ∧
    (∀ p : BitVec 3, ∃ t, exec (.rst p) s = .next t ∧ Called s t (BitVec.ofNat 16 (p.toNat * 8)))) ∧
  (∀ (s : State) (nn : Word) (p : BitVec 3),
    PushFaults s (s.pair .pc) (exec (.call nn) s) ∧ PushFaults s (s.pair .pc) (exec (.rst p) s)) ∧
  FaultsOnWord .call

/-- CALL cc,nn and RET cc: as CALL and RET if the condition holds; else nothing is read or written, SP stays, and
`IsExecutionAborted` is set (44_control_flow.md R327, R329: the spec's decision D18; both values of `STRADDLE_FAULT`). -/
def Obligations.ConditionalCallAndReturn : Prop :=
  (∀ (s : State) (cc : Cond) (nn : Word), condHolds cc s →
    (CanPush s → ∃ t, exec (.callCc cc nn) s = .next t ∧ Called s t nn) ∧
    PushFaults s (s.pair .pc) (exec (.callCc cc nn) s)) ∧
  (∀ (s : State) (cc : Cond), condHolds cc s →
    (∀ high low, CanPop s high low → ∃ t, exec (.retCc cc) s = .next t ∧ Returned s t high low ∧
      t.signals = s.signals) ∧
    PopFaults s (exec (.retCc cc) s)) ∧
  (∀ (s : State) (cc : Cond) (nn : Word), ¬ condHolds cc s →
    (∃ t, exec (.callCc cc nn) s = .next t ∧ NotTaken s t) ∧ (∃ t, exec (.retCc cc) s = .next t ∧ NotTaken s t)) ∧
  (∀ cc, FaultsOnWord (.callCc cc))

/-- RET: PC is the popped value, SP is raised by 2; the pop faults as the memory does (both values of `STRADDLE_FAULT`). -/
def Obligations.ReturnResult : Prop :=
  (∀ (s : State) (high low : Byte), CanPop s high low →
    ∃ t, exec .ret s = .next t ∧ Returned s t high low ∧ t.signals = s.signals) ∧
  (∀ s : State, PopFaults s (exec .ret s))

/-! ## Loads and stores -/

/-- LD r,r', LD r,n, LD rr,nn and LD SP,HL: the destination takes the value, nothing else changes, no flag
(a straddling immediate is checked for both values of `STRADDLE_FAULT`). -/
def Obligations.RegisterLoad : Prop :=
  (∀ (s : State) (r r' : Reg8), ∃ t, exec (.ldRR r r') s = .next t ∧ t.reg r = s.reg r' ∧ Quiet s t [r] [] []) ∧
  (∀ (s : State) (r : Reg8) (n : Byte), ∃ t, exec (.ldRN r n) s = .next t ∧ t.reg r = n ∧ Quiet s t [r] [] []) ∧
  (∀ (s : State) (rr : Reg16) (nn : Word), ∃ t, exec (.ldRrNn rr nn) s = .next t ∧ t.pair rr = nn ∧
    Quiet s t (pairHalves rr) [rr] []) ∧
  (∀ s : State, ∃ t, exec .ldSpHl s = .next t ∧ t.pair .sp = s.pair .hl ∧ Quiet s t [] [.sp] []) ∧
  (∀ r, FaultsOnByte (.ldRN r)) ∧ (∀ rr, FaultsOnWord (.ldRrNn rr))

/-- The loads of a byte of the current domain: the destination takes the byte at the form's address (a straddling
immediate is checked for both values of `STRADDLE_FAULT`). -/
def Obligations.MemoryLoad : Prop :=
  (∀ (s : State) (i : Instr) (r : Reg8) (a : Word) (m : Byte), LoadForm s i r a → s.mem.peek s.mode a = some m →
    ∃ t, exec i s = .next t ∧ t.reg r = m ∧ Quiet s t [r] [] []) ∧
  (∀ (s : State) (i : Instr) (r : Reg8) (a : Word), LoadForm s i r a → ReadFaults s s.mode a (exec i s)) ∧
  (∀ s : State, s.address (.atPair .hl) = s.pair .hl ∧ s.address (.atPair .bc) = s.pair .bc ∧
    s.address (.atPair .de) = s.pair .de ∧ (∀ nn, s.address (.absolute nn) = nn) ∧
    (∀ n, (s.address (.page n)).toNat = 0xFF00 + n.toNat) ∧
    (s.address .pageC).toNat = 0xFF00 + (s.reg .c).toNat) ∧
  FaultsOnWord .ldANn ∧ FaultsOnByte .ldhAN

/-- LD A,(HL+) and LD A,(HL-): A takes the byte at the old HL, then HL moves by one. -/
def Obligations.SteppingLoad : Prop :=
  (∀ (s : State) (m : Byte), s.mem.peek s.mode (s.pair .hl) = some m →
    (∃ t, exec .ldAHli s = .next t ∧ t.reg .a = m ∧
      (t.pair .hl).toNat = ((s.pair .hl).toNat + 1) % 2 ^ 16 ∧ Quiet s t [.a, .h, .l] [] []) ∧
    (∃ t, exec .ldAHld s = .next t ∧ t.reg .a = m ∧
      ((t.pair .hl).toNat : Int) = ((s.pair .hl).toNat - 1) % 2 ^ 16 ∧ Quiet s t [.a, .h, .l] [] [])) ∧
  (∀ s : State, ReadFaults s s.mode (s.pair .hl) (exec .ldAHli s) ∧
    ReadFaults s s.mode (s.pair .hl) (exec .ldAHld s))

/-- The stores of a byte: the byte at the form's address, and nothing else (a straddling immediate stops the fetch:
both values of `STRADDLE_FAULT`). -/
def Obligations.MemoryStore : Prop :=
  (∀ (s : State) (i : Instr) (a : Word) (v : Byte), StoreForm s i a v → s.mem.wf = true →
    s.mem.writable s.mode a = true → ∃ t, exec i s = .next t ∧ Stores s t a v [] []) ∧
  (∀ (s : State) (i : Instr) (a : Word) (v : Byte), StoreForm s i a v → StoreFaults s a (exec i s)) ∧
  FaultsOnByte .ldHlN ∧ FaultsOnWord .ldNnA ∧ FaultsOnByte .ldhNA

/-- LD (HL+),A and LD (HL-),A: A is stored at the old HL, then HL moves by one. -/
def Obligations.SteppingStore : Prop :=
  (∀ s : State, s.mem.wf = true → s.mem.writable s.mode (s.pair .hl) = true →
    (∃ t, exec .ldHliA s = .next t ∧ (t.pair .hl).toNat = ((s.pair .hl).toNat + 1) % 2 ^ 16 ∧
      Stores s t (s.pair .hl) (s.reg .a) [.h, .l] []) ∧
    (∃ t, exec .ldHldA s = .next t ∧ ((t.pair .hl).toNat : Int) = ((s.pair .hl).toNat - 1) % 2 ^ 16 ∧
      Stores s t (s.pair .hl) (s.reg .a) [.h, .l] [])) ∧
  (∀ s : State, StoreFaults s (s.pair .hl) (exec .ldHliA s) ∧ StoreFaults s (s.pair .hl) (exec .ldHldA s))

/-- LD (nn),SP: the low byte of SP at `nn`, the high byte at `nn + 1`, and nothing else (both values of `STRADDLE_FAULT`). -/
def Obligations.StackPointerStore : Prop :=
  (∀ (s : State) (nn : Word), CanStoreWord s nn →
    ∃ t, exec (.ldNnSp nn) s = .next t ∧ StoredWord s t nn (s.pair .sp) ∧ Frame s t [] [] [] ∧
      t.signals = s.signals) ∧
  (∀ (s : State) (nn : Word), WordStoreFaults s nn (s.pair .sp) (exec (.ldNnSp nn) s)) ∧
  (∀ s : State, s.params.straddleFault = true → s.mem.wf = true → s.mem.covers s.mode 0xFFFF#16 = true →
    exec (.ldNnSp 0xFFFF#16) s = straddles s 0xFFFF#16) ∧
  FaultsOnWord .ldNnSp

/-! ## The stack -/

/-- PUSH qq: the high byte at `sp - 1`, the low byte at `sp - 2`, SP lowered by 2, and nothing else; all of F for AF
(both values of `STRADDLE_FAULT`). -/
def Obligations.PushResult : Prop :=
  (∀ (s : State) (qq : Reg16), CanPush s →
    ∃ t, exec (.push qq) s = .next t ∧ PushedWord s t (s.pair qq) ∧
      t.pair .sp = s.pair .sp - 2 ∧ Frame s t [] [.sp] [] ∧ t.signals = s.signals) ∧
  (∀ (s : State) (qq : Reg16), PushFaults s (s.pair qq) (exec (.push qq) s))

/-- POP qq: the pair takes the two bytes at SP, low byte first, SP is raised by 2, and nothing else; POP AF writes all 8
bits of F (46_stack.md R412: the spec's decision D3; both values of `STRADDLE_FAULT`). -/
def Obligations.PopResult : Prop :=
  (∀ (s : State) (qq : Reg16) (high low : Byte), qq.isStackPair = true → CanPop s high low →
    ∃ t, exec (.pop qq) s = .next t ∧ (t.pair qq).toNat = 256 * high.toNat + low.toNat ∧
      t.pair .sp = s.pair .sp + 2 ∧ (qq = .af → t.reg .f = low) ∧ Quiet s t (pairHalves qq) [.sp] []) ∧
  (∀ (s : State) (qq : Reg16), PopFaults s (exec (.pop qq) s))

/-- PUSH then POP restores the value and SP, for any two stack pairs and, where `STRADDLE_FAULT` is false
and the two stack addresses could name one byte, for stack addresses that do not. -/
def Obligations.PushPopRoundTrip : Prop :=
  ∀ (s : State) (qq qq' : Reg16), qq.isStackPair = true → qq'.isStackPair = true → CanPush s →
    (s.params.straddleFault = false →
      s.mem.locate s.mode (s.pair .sp - 2) ≠ s.mem.locate s.mode (s.pair .sp - 1)) →
    ∃ t u, exec (.push qq) s = .next t ∧ exec (.pop qq') t = .next u ∧ u.pair qq' = s.pair qq ∧
      u.pair .sp = s.pair .sp

/-! ## System and privilege -/

/-- NOP changes nothing; HALT, STOP, DI, EI and RETI write their signals, RETI after a return (47_system.md R430 to R434,
44_control_flow.md R330: the spec's decisions D19 to D22; both values of `STOP_LENGTH` and
`STRADDLE_FAULT`). -/
def Obligations.SystemInstructions : Prop :=
  (∀ s : State, exec .nop s = .next s) ∧
  (∀ (s : State) (x : Byte) (i : Instr), i ∈ [Instr.halt, .stop x, .di, .ei] →
    ∃ t, exec i s = .next t ∧ t.signals = signalsAfter i s ∧ Frame s t [] [] [] ∧ SameMemory s t) ∧
  (∀ (s : State) (high low : Byte), CanPop s high low →
    ∃ t, exec .reti s = .next t ∧ Returned s t high low ∧
      t.signals = { s.signals with interruptMasterEnable := true, clearInterruptStatusSignal := false }) ∧
  (∀ s : State, PopFaults s (exec .reti s)) ∧ FaultsOnByte .stop ∧
  (∀ p : Config.Parameters,
    (p.stopLength = .two → decodeOpcode p 0x00#8 0x10#8 = .ok (.imm8 .stop)) ∧
    (p.stopLength = .one → decodeOpcode p 0x00#8 0x10#8 = .ok (.done (.stop 0#8))))

/-- JPU nn: PC is the target and the switch to User mode is requested, which the post-cycle step then makes in either mode
(48_gbx_privilege.md R450: the spec's decisions D11, D12; both values of `STRADDLE_FAULT`). -/
def Obligations.SystemJump : Prop :=
  (∀ (s : State) (nn : Word), ∃ t, exec (.jpu nn) s = .next t ∧ t.pair .pc = nn ∧
    t.signals = { s.signals with userModeRequested := true } ∧ Frame s t [] [.pc] [] ∧ SameMemory s t ∧
    t.postCycle.mode = .user ∧ t.postCycle.signals.userModeRequested = false) ∧
  FaultsOnWord .jpu

/-- The LDU forms: the base load with its byte read from the User domain whatever the mode is; the mode is not changed
(48_gbx_privilege.md R452 to R460: the spec's decisions D11, D13; both values of `STRADDLE_FAULT`). -/
def Obligations.UserLoad : Prop :=
  (∀ (s : State) (i : Instr) (r : Reg8) (a : Word), UserLoadForm s i r a →
    (∀ m, s.mem.peek .user a = some m → ∃ t, exec i s = .next t ∧ t.reg r = m ∧ Frame s t [r] [] [] ∧
      SameMemory s t ∧ t.signals = { s.signals with userModeSourceOperandRequested := true }) ∧
    ReadFaults s .user a (exec i s)) ∧
  (∀ (s : State) (m : Byte), s.mem.peek .user (s.pair .hl) = some m →
    (∃ t, exec .lduAHli s = .next t ∧ t.reg .a = m ∧
      (t.pair .hl).toNat = ((s.pair .hl).toNat + 1) % 2 ^ 16 ∧ Frame s t [.a, .h, .l] [] [] ∧
      SameMemory s t ∧ t.signals = { s.signals with userModeSourceOperandRequested := true }) ∧
    (∃ t, exec .lduAHld s = .next t ∧ t.reg .a = m ∧
      ((t.pair .hl).toNat : Int) = ((s.pair .hl).toNat - 1) % 2 ^ 16 ∧ Frame s t [.a, .h, .l] [] [] ∧
      SameMemory s t ∧ t.signals = { s.signals with userModeSourceOperandRequested := true })) ∧
  (∀ s : State, ReadFaults s .user (s.pair .hl) (exec .lduAHli s) ∧
    ReadFaults s .user (s.pair .hl) (exec .lduAHld s)) ∧
  FaultsOnWord .lduANn ∧ FaultsOnByte .ldhuAN

end
end

