-- ==== Sys2Proof/Laws/Memory.lean ====
section
/-! SUPPORT. What the memory operations do, once each, and that every one of them keeps the canonical form
(20_memory.md R80 to R97). -/

namespace Sys2Proof.Machine

/-! ## Cell lists -/

theorem cellGet_below {size low o : Nat} {cs : List Host.Cell} (h : cellsWf size low cs = true) (ho : o < low) :
    cellGet cs o = Params.unwrittenByte := by
  induction cs generalizing low with
  | nil => rfl
  | cons c rest ih =>
    obtain ⟨k, b⟩ := c
    simp only [cellsWf, Bool.and_eq_true, decide_eq_true_eq] at h
    have : k ≠ o := by omega
    simp [cellGet, this, ih h.2 (by omega)]

theorem cellGet_cellSet_ne (cs : List Host.Cell) (o k : Nat) (v : Byte) (h : k ≠ o) :
    cellGet (cellSet cs o v) k = cellGet cs k := by
  induction cs with
  | nil => simp only [cellSet]; split <;> simp [cellGet, Ne.symm h]
  | cons c rest ih =>
    obtain ⟨j, b⟩ := c
    simp only [cellSet]
    split
    · split <;> simp [cellGet, Ne.symm h]
    · split
      · have hj : j ≠ k := by omega
        split <;> simp [cellGet, Ne.symm h, hj]
      · simp [cellGet, ih]

theorem cellGet_cellSet_self {size low : Nat} {cs : List Host.Cell} (o : Nat) (v : Byte)
    (h : cellsWf size low cs = true) : cellGet (cellSet cs o v) o = v := by
  induction cs generalizing low with
  | nil => simp only [cellSet]; split <;> simp_all [cellGet]
  | cons c rest ih =>
    obtain ⟨k, b⟩ := c
    have h' := h
    simp only [cellsWf, Bool.and_eq_true, decide_eq_true_eq] at h
    simp only [cellSet]
    split
    · rename_i hlt
      split
      · rename_i hv
        have hk : k ≠ o := by omega
        simp [cellGet, hk, cellGet_below h.2 (by omega : o < k + 1), hv]
      · simp [cellGet]
    · split
      · rename_i heq
        split
        · rename_i hv
          simp [cellGet_below h.2 (by omega : o < k + 1), hv]
        · simp [cellGet]
      · have hk : k ≠ o := by omega
        simp [cellGet, hk, ih h.2]

theorem cellsWf_mono {size low low' : Nat} {cs : List Host.Cell} (h : cellsWf size low cs = true)
    (hl : low' ≤ low) : cellsWf size low' cs = true := by
  cases cs with
  | nil => rfl
  | cons c rest =>
    obtain ⟨k, b⟩ := c
    simp only [cellsWf, Bool.and_eq_true, decide_eq_true_eq] at h ⊢
    exact ⟨⟨⟨by omega, h.1.1.2⟩, h.1.2⟩, h.2⟩

theorem cellsWf_cellSet {size low : Nat} {cs : List Host.Cell} {o : Nat} (v : Byte)
    (h : cellsWf size low cs = true) (hlow : low ≤ o) (ho : o < size) :
    cellsWf size low (cellSet cs o v) = true := by
  induction cs generalizing low with
  | nil =>
    simp only [cellSet]
    split
    · rfl
    · simp_all [cellsWf]
  | cons c rest ih =>
    obtain ⟨k, b⟩ := c
    have h' := h
    simp only [cellsWf, Bool.and_eq_true, decide_eq_true_eq] at h
    obtain ⟨⟨⟨h1, h2⟩, h3⟩, h4⟩ := h
    simp only [cellSet]
    split
    · rename_i hlt
      split
      · exact h'
      · rename_i hv
        simp only [cellsWf, Bool.and_eq_true, decide_eq_true_eq]
        exact ⟨⟨⟨hlow, ho⟩, hv⟩, ⟨⟨by omega, h2⟩, h3⟩, h4⟩
    · split
      · rename_i heq
        split
        · exact cellsWf_mono h4 (by omega)
        · rename_i hv
          simp only [cellsWf, Bool.and_eq_true, decide_eq_true_eq]
          subst heq
          exact ⟨⟨⟨hlow, ho⟩, hv⟩, h4⟩
      · simp only [cellsWf, Bool.and_eq_true, decide_eq_true_eq]
        exact ⟨⟨⟨h1, h2⟩, h3⟩, ih h4 (by omega)⟩

/-! ## Resources -/

@[simp] theorem Resource.put_kind (r : Resource) (o : Nat) (v : Byte) : (r.put o v).kind = r.kind := rfl
@[simp] theorem Resource.put_size (r : Resource) (o : Nat) (v : Byte) : (r.put o v).size = r.size := rfl

theorem Resource.put_wf {r : Resource} (h : r.wf = true) {o : Nat} (ho : o < r.size) (v : Byte) :
    (r.put o v).wf = true := by
  simp only [Resource.wf, Bool.and_eq_true] at h ⊢
  exact ⟨cellsWf_cellSet v h.1 (Nat.zero_le _) ho, h.2⟩

/-- The effective offset of an offset in range is in range (20_memory.md R84). -/
theorem Resource.effectiveOffset_lt {r : Resource} (h : r.wf = true) {o : Nat} (ho : o < r.size) :
    r.effectiveOffset o < r.size := by
  simp only [Resource.wf, Bool.and_eq_true] at h
  have hb := h.2
  unfold Resource.effectiveOffset
  split
  · rename_i bs cb hk
    simp only [hk, ResourceKind.bankOk, Bool.or_eq_true, decide_eq_true_eq, beq_iff_eq] at hb
    by_cases hbs : bs = 0
    · subst hbs
      rcases hb with hb | hb
      · simp at hb
      · subst hb; simpa using ho
    · rcases hb with hb | hb
      · have hm := Nat.mod_lt o (Nat.pos_of_ne_zero hbs)
        have hle : (cb + 1) * bs ≤ r.size := Nat.le_trans (Nat.mul_le_mul_right bs hb) (Nat.div_mul_le_self _ _)
        rw [Nat.add_mul] at hle
        omega
      · subst hb
        have := Nat.mod_le o bs
        omega
  · exact ho
  · exact ho

/-- All a resource write can do: it stored in a RAM, in range (20_memory.md R82, R83, R85). -/
theorem Resource.writeByte_ok {r r' : Resource} {o : Nat} {v : Byte} {a : Word} {d : Domain}
    (h : r.writeByte o v a d = .ok r') : r.kind = .ram ∧ o < r.size ∧ r' = r.put o v := by
  unfold Resource.writeByte at h
  split at h
  · cases h
  · cases h
  · rename_i hk
    split at h
    · rename_i ho
      cases h
      exact ⟨hk, ho, rfl⟩
    · cases h

/-! ## Routing -/

theorem Memory.target_some {m : Memory} {d : Domain} {a : Word} {n o : Nat} {r : Resource}
    (h : m.target d a = some (n, r, o)) :
    ∃ e, m.route d a = some e ∧ e.resource = n ∧ m.resources[n]? = some r ∧ o = e.offset a := by
  unfold Memory.target at h
  split at h
  · cases h
  · rename_i e he
    split at h
    · cases h
    · rename_i r' hr
      cases h
      exact ⟨e, he, rfl, hr, rfl⟩

/-- Only the table decides the route, so a change of contents keeps every route. -/
theorem Memory.route_table {m m' : Memory} (h : m'.table = m.table) (d : Domain) (a : Word) :
    m'.route d a = m.route d a := by simp [Memory.route, h]

/-- All a byte write can do (20_memory.md R95). -/
theorem Memory.writeByte_ok {m m' : Memory} {d : Domain} {a : Word} {v : Byte}
    (h : m.writeByte d a v = .ok m') :
    ∃ n r o, m.target d a = some (n, r, o) ∧ r.kind = .ram ∧ o < r.size ∧
      m' = { m with resources := m.resources.set n (r.put o v) } := by
  unfold Memory.writeByte at h
  split at h
  · cases h
  · rename_i n r o ht
    split at h
    · cases h
    · rename_i r' hw
      cases h
      obtain ⟨hk, ho, rfl⟩ := Resource.writeByte_ok hw
      exact ⟨n, r, o, ht, hk, ho, rfl⟩

/-- A byte write to a writable address succeeds. -/
theorem Memory.writeByte_writable {m : Memory} {d : Domain} {a : Word} (v : Byte)
    (h : m.writable d a = true) : ∃ m', m.writeByte d a v = .ok m' := by
  unfold Memory.writable at h
  split at h
  · cases h
  · rename_i n r o ht
    simp only [Bool.and_eq_true, beq_iff_eq, decide_eq_true_eq] at h
    exact ⟨{ m with resources := m.resources.set n (r.put o v) },
      by simp [Memory.writeByte, ht, Resource.writeByte, h.1, h.2]⟩

/-- A write fails only as the spec says: nothing covers the address, or a read-only resource does, or the
offset is out of bounds (60_exceptions.md R471). -/
theorem Memory.writeByte_error {m : Memory} {d : Domain} {a : Word} {v : Byte} {c : FaultCause}
    (h : m.writeByte d a v = .error c) :
    c = .unmapped a d .write ∨ c = .readOnlyWrite a d ∨ ∃ o, c = .outOfBounds o := by
  unfold Memory.writeByte at h
  split at h
  · cases h; exact .inl rfl
  · split at h
    · rename_i hw
      cases h
      unfold Resource.writeByte at hw
      split at hw
      · cases hw; exact .inr (.inl rfl)
      · cases hw; exact .inr (.inl rfl)
      · split at hw
        · cases hw
        · cases hw; exact .inr (.inr ⟨_, rfl⟩)
    · cases h

/-! ## The canonical form is kept -/

theorem Entry.wf_set {rs : List Resource} {n : Nat} {r' : Resource}
    (hs : ∀ r, rs[n]? = some r → r'.size = r.size) (e : Entry) (h : Entry.wf rs e = true) :
    Entry.wf (rs.set n r') e = true := by
  unfold Entry.wf at h ⊢
  by_cases he : n = e.resource
  · subst he
    split at h
    · cases h
    · rename_i r hr
      have hlt : e.resource < rs.length := by
        rcases Nat.lt_or_ge e.resource rs.length with hl | hl
        · exact hl
        · rw [List.getElem?_eq_none hl] at hr; cases hr
      simp only [List.getElem?_set_self hlt]
      simpa [hs r hr] using h
  · simpa [List.getElem?_set_ne he] using h

/-- Replacing a resource by a well-formed one of the same size keeps the form. -/
theorem Memory.wf_set {m : Memory} (h : m.wf = true) {n : Nat} {r' : Resource}
    (hs : ∀ r, m.resources[n]? = some r → r'.size = r.size) (hr : r'.wf = true) :
    ({ m with resources := m.resources.set n r' } : Memory).wf = true := by
  simp only [Memory.wf, Bool.and_eq_true, List.all_eq_true] at h ⊢
  refine ⟨⟨fun r hmem => ?_, fun e he => Entry.wf_set hs e (h.1.2 e he)⟩, h.2⟩
  rcases List.mem_or_eq_of_mem_set hmem with hm | rfl
  · exact h.1.1 r hm
  · exact hr

theorem Memory.wf_resource {m : Memory} (h : m.wf = true) {n : Nat} {r : Resource}
    (hr : m.resources[n]? = some r) : r.wf = true := by
  simp only [Memory.wf, Bool.and_eq_true, List.all_eq_true] at h
  exact h.1.1 r (List.mem_of_getElem? hr)

/-- `MemWrite` keeps the canonical form. -/
theorem Memory.writeByte_wf {m m' : Memory} {d : Domain} {a : Word} {v : Byte} (h : m.wf = true)
    (hw : m.writeByte d a v = .ok m') : m'.wf = true := by
  obtain ⟨n, r, o, ht, hk, ho, rfl⟩ := Memory.writeByte_ok hw
  obtain ⟨e, -, -, hr, -⟩ := Memory.target_some ht
  exact Memory.wf_set h (fun r0 h0 => by rw [hr] at h0; cases h0; rfl)
    (Resource.put_wf (Memory.wf_resource h hr) ho v)

theorem Memory.poke_wf {m : Memory} (h : m.wf = true) (d : Domain) (a : Word) (v : Byte) :
    (m.poke d a v).wf = true := by
  unfold Memory.poke
  split
  · exact h
  · rename_i n r o ht
    split
    · rename_i ho
      obtain ⟨e, -, -, hr, -⟩ := Memory.target_some ht
      exact Memory.wf_set h (fun r0 h0 => by rw [hr] at h0; cases h0; rfl)
        (Resource.put_wf (Memory.wf_resource h hr) (Resource.effectiveOffset_lt (Memory.wf_resource h hr) ho) v)
    · exact h

theorem Memory.pokeAll_wf {m : Memory} (h : m.wf = true) (d : Domain) (a : Word) (bs : List Byte) :
    (m.pokeAll d a bs).wf = true := by
  induction bs generalizing m a with
  | nil => exact h
  | cons v rest ih => exact ih (Memory.poke_wf h d a v) _

/-- `Write` of a 16-bit value keeps the form. -/
theorem Memory.writeWord_wf {m m' : Memory} {d : Domain} {a v : Word} (h : m.wf = true)
    (hw : m.writeWord d a v = .ok m') : m'.wf = true := by
  unfold Memory.writeWord at hw
  split at hw
  · cases hw
  · rename_i n r o ht
    split at hw
    · cases hw
    · rename_i r' hr'
      cases hw
      obtain ⟨e, -, -, hr, -⟩ := Memory.target_some ht
      unfold Resource.writeWord at hr'
      split at hr'
      · cases hr'
      · cases hr'
      · split at hr'
        · rename_i ho
          cases hr'
          refine Memory.wf_set h (fun r0 h0 => by rw [hr] at h0; cases h0; rfl) ?_
          exact Resource.put_wf (Resource.put_wf (Memory.wf_resource h hr) (by omega) _) ho _
        · cases hr'

@[simp] theorem Resource.putAll_size (r : Resource) (o : Nat) (data : List Byte) :
    (r.putAll o data).size = r.size := by
  induction data generalizing r o with
  | nil => rfl
  | cons v rest ih => simp [Resource.putAll, ih]

theorem Resource.putAll_wf {r : Resource} (h : r.wf = true) (o : Nat) (data : List Byte)
    (hd : o + data.length ≤ r.size) : (r.putAll o data).wf = true := by
  induction data generalizing r o with
  | nil => exact h
  | cons v rest ih =>
    simp only [List.length_cons] at hd
    exact ih (Resource.put_wf h (by omega) v) (o + 1) (by rw [Resource.put_size]; omega)

theorem Memory.onResource_wf {m m' : Memory} {n : Nat} {f : Resource → Except FaultCause Resource}
    (h : m.wf = true) (hf : ∀ r r', r.wf = true → f r = .ok r' → r'.wf = true ∧ r'.size = r.size)
    (hm : m.onResource n f = .ok m') : m'.wf = true := by
  unfold Memory.onResource at hm
  split at hm
  · cases hm; exact h
  · rename_i r hr
    split at hm
    · cases hm
    · rename_i r' hr'
      cases hm
      obtain ⟨hw, hs⟩ := hf r r' (Memory.wf_resource h hr) hr'
      exact Memory.wf_set h (fun r0 h0 => by rw [hr] at h0; cases h0; exact hs) hw

/-- A resource's `Load` keeps the form. -/
theorem Memory.loadResource_wf {m m' : Memory} {n : Nat} {data : List Byte} {o : Nat} (h : m.wf = true)
    (hm : m.loadResource n data o = .ok m') : m'.wf = true := by
  refine Memory.onResource_wf h (fun r r' hr hl => ?_) hm
  unfold Resource.load at hl
  split at hl
  · rename_i hd
    cases hl
    exact ⟨Resource.putAll_wf hr o data hd, Resource.putAll_size _ _ _⟩
  · cases hl

/-- The controller's `Load` keeps the form. -/
theorem Memory.load_wf {m m' : Memory} {d : Domain} {data : List Byte} {base : Word} {o : Option Nat}
    (h : m.wf = true) (hm : m.load d data base o = .ok m') : m'.wf = true := by
  unfold Memory.load at hm
  split at hm
  · cases hm
  · exact Memory.loadResource_wf h hm

/-- `SelectBank` keeps the form. -/
theorem Memory.selectBank_wf {m m' : Memory} {n bank : Nat} (h : m.wf = true)
    (hm : m.selectBank n bank = .ok m') : m'.wf = true := by
  refine Memory.onResource_wf h (fun r r' hr hl => ?_) hm
  unfold Resource.selectBank at hl
  split at hl
  · split at hl
    · rename_i hb
      cases hl
      refine ⟨?_, rfl⟩
      simp only [Resource.wf, Bool.and_eq_true] at hr ⊢
      exact ⟨hr.1, by simp [ResourceKind.bankOk, hb]⟩
    · cases hl
  · cases hl
  · cases hl

theorem Entry.wf_append {rs : List Resource} (r' : Resource) (e : Entry) (h : Entry.wf rs e = true) :
    Entry.wf (rs ++ [r']) e = true := by
  unfold Entry.wf at h ⊢
  split at h
  · cases h
  · rename_i r hr
    have hlt : e.resource < rs.length := by
      rcases Nat.lt_or_ge e.resource rs.length with hl | hl
      · exact hl
      · rw [List.getElem?_eq_none hl] at hr; cases hr
    simpa [List.getElem?_append_left hlt, hr] using h

theorem Memory.wf_append {m : Memory} (h : m.wf = true) {r : Resource} (hr : r.wf = true) :
    ({ m with resources := m.resources ++ [r] } : Memory).wf = true := by
  simp only [Memory.wf, Bool.and_eq_true, List.all_eq_true] at h ⊢
  refine ⟨⟨fun x hx => ?_, fun e he => Entry.wf_append r e (h.1.2 e he)⟩, h.2⟩
  rcases List.mem_append.1 hx with hx | hx
  · exact h.1.1 x hx
  · rw [List.mem_singleton.1 hx]; exact hr

/-- Constructing a resource keeps the form. -/
theorem Memory.construct_wf {m : Memory} (h : m.wf = true) (kind : ResourceKind) (size : Nat) :
    (m.construct kind size).wf = true := by
  exact Memory.wf_append h (by
    cases kind <;>
      simp [Resource.wf, Params.blankResource, cellsWf, ResourceKind.atConstruction, ResourceKind.bankOk])

/-- What every resource of a memory is at construction: the same size and contents. -/
theorem Memory.atConstruction_resource (m : Memory) (n : Nat) :
    m.atConstruction.resources[n]? = m.resources[n]?.map Resource.atConstruction := List.getElem?_map

theorem Resource.atConstruction_wf {r : Resource} (h : r.wf = true) : r.atConstruction.wf = true := by
  simp only [Resource.wf, Bool.and_eq_true] at h ⊢
  exact ⟨h.1, by cases hk : r.kind <;> simp [Resource.atConstruction, hk, ResourceKind.atConstruction, ResourceKind.bankOk]⟩

/-- The banks of a construction keep the form. -/
theorem Memory.atConstruction_wf {m : Memory} (h : m.wf = true) : m.atConstruction.wf = true := by
  simp only [Memory.wf, Bool.and_eq_true, List.all_eq_true] at h ⊢
  refine ⟨⟨fun x hx => ?_, fun e he => ?_⟩, h.2⟩
  · obtain ⟨r, hr, rfl⟩ := List.mem_map.1 hx
    exact Resource.atConstruction_wf (h.1.1 r hr)
  · have he := h.1.2 e he
    unfold Entry.wf at he ⊢
    rw [Memory.atConstruction_resource]
    cases hr : m.resources[e.resource]? with
    | none => rw [hr] at he; cases he
    | some r => rw [hr] at he; exact he

/-! ### The table -/

theorem tableWf_insert {e : Entry} {t : List Entry} (h : tableWf t = true)
    (hno : ∀ x ∈ t, e.ownership = x.ownership → e.range.overlaps x.range = false ∧ x.range.overlaps e.range = false) :
    tableWf (insertEntry e t) = true ∧
      ∀ x ∈ insertEntry e t, x = e ∨ x ∈ t := by
  induction t with
  | nil => exact ⟨rfl, fun x hx => .inl (List.mem_singleton.1 hx)⟩
  | cons y rest ih =>
    simp only [tableWf, Bool.and_eq_true, List.all_eq_true, decide_eq_true_eq, Bool.or_eq_true, bne_iff_ne, ne_eq,
      Bool.not_eq_true'] at h
    simp only [insertEntry]
    split
    · rename_i hlt
      refine ⟨?_, fun x hx => ?_⟩
      · simp only [tableWf, Bool.and_eq_true, List.all_eq_true, decide_eq_true_eq, Bool.or_eq_true, bne_iff_ne, ne_eq,
          Bool.not_eq_true']
        refine ⟨fun x hx => ⟨?_, ?_⟩, h⟩
        · rcases List.mem_cons.1 hx with rfl | hx'
          · omega
          · have := (h.1 x hx').1; omega
        · by_cases ho : e.ownership = x.ownership
          · exact .inr (hno x hx ho).1
          · exact .inl ho
      · rcases List.mem_cons.1 hx with rfl | hx
        · exact .inl rfl
        · exact .inr hx
    · rename_i hge
      obtain ⟨ih1, ih2⟩ := ih h.2 (fun x hx => hno x (List.mem_cons_of_mem _ hx))
      refine ⟨?_, fun x hx => ?_⟩
      · simp only [tableWf, Bool.and_eq_true, List.all_eq_true, decide_eq_true_eq, Bool.or_eq_true, bne_iff_ne, ne_eq,
          Bool.not_eq_true']
        refine ⟨fun x hx => ?_, ih1⟩
        rcases ih2 x hx with rfl | hx'
        · refine ⟨by omega, ?_⟩
          by_cases ho : x.ownership = y.ownership
          · exact .inr (hno y List.mem_cons_self ho).2
          · exact .inl (fun e => ho e.symm)
        · exact h.1 x hx'
      · rcases List.mem_cons.1 hx with rfl | hx
        · exact .inr List.mem_cons_self
        · rcases ih2 x hx with rfl | hx'
          · exact .inl rfl
          · exact .inr (List.mem_cons_of_mem _ hx')

theorem AddressRange.overlaps_comm (g g' : AddressRange) : g.overlaps g' = g'.overlaps g := by
  simp [AddressRange.overlaps, Nat.max_comm, Nat.min_comm]

/-- `RegisterMemoryResource` keeps the form: the table stays sorted and without overlaps (20_memory.md R89,
R90). -/
theorem Memory.register_wf {m m' : Memory} {n : Nat} {g : AddressRange} {own : Domain} (h : m.wf = true)
    (hm : m.register n g own = .ok m') : m'.wf = true := by
  unfold Memory.register at hm
  split at hm
  · cases hm
  · rename_i r hr
    split at hm
    · cases hm
    · rename_i hsz
      split at hm
      · cases hm
      · rename_i hov
        cases hm
        simp only [Memory.wf, Bool.and_eq_true, List.all_eq_true] at h ⊢
        have hins := tableWf_insert (e := { resource := n, range := g, ownership := own }) h.2 (fun x hx ho => by
          have hx' : x.range.overlaps g = false := by
            rw [Bool.not_eq_true, List.any_eq_false] at hov
            have := hov x hx
            simpa [← ho] using this
          exact ⟨by rw [AddressRange.overlaps_comm]; exact hx', hx'⟩)
        refine ⟨⟨h.1.1, fun e he => ?_⟩, hins.1⟩
        rcases hins.2 e he with rfl | he'
        · simp only [Entry.wf, hr, beq_iff_eq]
          exact Decidable.of_not_not hsz
        · exact h.1.2 e he'

theorem tableWf_filter (p : Entry → Bool) {t : List Entry} (h : tableWf t = true) :
    tableWf (t.filter p) = true := by
  induction t with
  | nil => rfl
  | cons e rest ih =>
    simp only [tableWf, Bool.and_eq_true] at h
    rw [List.filter_cons]
    split
    · simp only [tableWf, Bool.and_eq_true]
      refine ⟨?_, ih h.2⟩
      rw [List.all_eq_true] at h ⊢
      exact fun x hx => h.1 x (List.mem_filter.1 hx).1
    · exact ih h.2

/-- `UnregisterMemoryResource` keeps the form. -/
theorem Memory.unregister_wf {m m' : Memory} {n : Nat} {own : Domain} (h : m.wf = true)
    (hm : m.unregister n own = .ok m') : m'.wf = true := by
  unfold Memory.unregister at hm
  split at hm
  · cases hm
    simp only [Memory.wf, Bool.and_eq_true, List.all_eq_true] at h ⊢
    exact ⟨⟨h.1.1, fun e he => h.1.2 e (List.mem_filter.1 he).1⟩, tableWf_filter _ h.2⟩
  · cases hm

theorem Memory.withFreshRam_wf {m : Memory} (h : m.wf = true) (d : Domain) : (m.withFreshRam d).wf = true := by
  simp only [Memory.wf, Bool.and_eq_true, List.all_eq_true] at h ⊢
  refine ⟨⟨fun r hr => ?_, fun e he => ?_⟩, ?_⟩
  · rcases List.mem_append.1 hr with hr | hr
    · exact h.1.1 r hr
    · rw [List.mem_singleton.1 hr]; decide
  · rcases List.mem_cons.1 he with rfl | he
    · simp [Memory.withFreshRam, Entry.wf, Params.blankResource, AddressRange.length, AddressRange.bound, Params.wholeSpace]
    · exact Entry.wf_append _ e (h.1.2 e (List.mem_filter.1 he).1)
  · simp only [Memory.withFreshRam, tableWf, Bool.and_eq_true, List.all_eq_true, decide_eq_true_eq, Bool.or_eq_true,
      bne_iff_ne, ne_eq, Bool.not_eq_true']
    refine ⟨fun x hx => ⟨Nat.zero_le _, .inl ?_⟩, tableWf_filter _ h.2⟩
    have := (List.mem_filter.1 hx).2
    simp only [bne_iff_ne, ne_eq] at this
    exact fun e => this e.symm

/-- Placing an instruction for the next fetch keeps the form. -/
theorem State.placeAtPc_wf {s : State} (h : s.mem.wf = true) (bs : List Byte) : (s.placeAtPc bs).mem.wf = true := by
  unfold State.placeAtPc
  dsimp only
  split
  · exact Memory.pokeAll_wf h _ _ _
  · exact Memory.pokeAll_wf (Memory.withFreshRam_wf h _) _ _ _

/-- Reset's memory has the form. -/
theorem State.reset_mem_wf : State.reset.mem.wf = true := by decide

end Sys2Proof.Machine
end

