-- ==== Sys2Proof/Laws/State.lean ====
section
/-! SUPPORT. One lemma per field per update of the state, and the laws of the register bank and of the flags
(10_state.md R34, R41), so that no later proof unfolds a record update. -/

namespace Sys2Proof.Machine

/-! ## The register bank -/

theorem RegBank.reg_setReg (k : RegBank) (r r' : Reg8) (v : Byte) :
    (k.setReg r v).reg r' = if r' = r then v else k.reg r' := by
  cases r <;> cases r' <;> rfl

@[simp] theorem Word.ofBytes_high_low (v : Word) : Word.ofBytes v.high v.low = v := by
  apply BitVec.eq_of_toNat_eq
  have := v.isLt
  simp [Word.ofBytes, Word.high, Word.low]
  omega

@[simp] theorem Word.high_ofBytes (x y : Byte) : (Word.ofBytes x y).high = x := by
  apply BitVec.eq_of_toNat_eq
  have := x.isLt
  have := y.isLt
  simp [Word.ofBytes, Word.high]
  omega

@[simp] theorem Word.low_ofBytes (x y : Byte) : (Word.ofBytes x y).low = y := by
  apply BitVec.eq_of_toNat_eq
  have := y.isLt
  simp [Word.ofBytes, Word.low]
  omega

/-! ## Registers through the state -/

@[simp] theorem State.reg_setReg_self (s : State) (r : Reg8) (v : Byte) : (s.setReg r v).reg r = v := by
  cases r <;> rfl

theorem State.reg_setReg (s : State) (r r' : Reg8) (v : Byte) :
    (s.setReg r v).reg r' = if r' = r then v else s.reg r' := RegBank.reg_setReg _ _ _ _

@[simp] theorem State.reg_setReg_ne (s : State) (r r' : Reg8) (v : Byte) (h : r' ≠ r) :
    (s.setReg r v).reg r' = s.reg r' := by rw [State.reg_setReg, if_neg h]

@[simp] theorem State.pair_setPair_self (s : State) (rr : Reg16) (v : Word) :
    (s.setPair rr v).pair rr = v := by
  cases rr <;> simp [State.setPair, State.pair, RegBank.setPair, RegBank.pair]

@[simp] theorem State.reg_setPair_sp (s : State) (r : Reg8) (v : Word) :
    (s.setPair .sp v).reg r = s.reg r := by cases r <;> rfl
@[simp] theorem State.pair_sp_setReg (s : State) (r : Reg8) (v : Byte) :
    (s.setReg r v).pair .sp = s.pair .sp := by cases r <;> rfl
@[simp] theorem State.pair_sp_setPair_ne (s : State) (rr : Reg16) (v : Word) (h : rr ≠ .sp) :
    (s.setPair rr v).pair .sp = s.pair .sp := by cases rr <;> first | rfl | exact absurd rfl h
@[simp] theorem State.pair_setPair_sp (s : State) (rr : Reg16) (v : Word) (h : rr ≠ .sp) :
    (s.setPair .sp v).pair rr = s.pair rr := by cases rr <;> first | rfl | exact absurd rfl h
@[simp] theorem State.reg_setPair_pc (s : State) (r : Reg8) (v : Word) :
    (s.setPair .pc v).reg r = s.reg r := by cases r <;> rfl
@[simp] theorem State.pair_pc_setReg (s : State) (r : Reg8) (v : Byte) :
    (s.setReg r v).pair .pc = s.pair .pc := by cases r <;> rfl
@[simp] theorem State.pair_pc_setPair_ne (s : State) (rr : Reg16) (v : Word) (h : rr ≠ .pc) :
    (s.setPair rr v).pair .pc = s.pair .pc := by cases rr <;> first | rfl | exact absurd rfl h
@[simp] theorem State.pair_setPair_pc (s : State) (rr : Reg16) (v : Word) (h : rr ≠ .pc) :
    (s.setPair .pc v).pair rr = s.pair rr := by cases rr <;> first | rfl | exact absurd rfl h
@[simp] theorem State.reg_setPair_ix (s : State) (r : Reg8) (v : Word) :
    (s.setPair .ix v).reg r = s.reg r := by cases r <;> rfl
@[simp] theorem State.pair_ix_setReg (s : State) (r : Reg8) (v : Byte) :
    (s.setReg r v).pair .ix = s.pair .ix := by cases r <;> rfl
@[simp] theorem State.pair_ix_setPair_ne (s : State) (rr : Reg16) (v : Word) (h : rr ≠ .ix) :
    (s.setPair rr v).pair .ix = s.pair .ix := by cases rr <;> first | rfl | exact absurd rfl h
@[simp] theorem State.pair_setPair_ix (s : State) (rr : Reg16) (v : Word) (h : rr ≠ .ix) :
    (s.setPair .ix v).pair rr = s.pair rr := by cases rr <;> first | rfl | exact absurd rfl h
@[simp] theorem State.reg_setPair_iy (s : State) (r : Reg8) (v : Word) :
    (s.setPair .iy v).reg r = s.reg r := by cases r <;> rfl
@[simp] theorem State.pair_iy_setReg (s : State) (r : Reg8) (v : Byte) :
    (s.setReg r v).pair .iy = s.pair .iy := by cases r <;> rfl
@[simp] theorem State.pair_iy_setPair_ne (s : State) (rr : Reg16) (v : Word) (h : rr ≠ .iy) :
    (s.setPair rr v).pair .iy = s.pair .iy := by cases rr <;> first | rfl | exact absurd rfl h
@[simp] theorem State.pair_setPair_iy (s : State) (rr : Reg16) (v : Word) (h : rr ≠ .iy) :
    (s.setPair .iy v).pair rr = s.pair rr := by cases rr <;> first | rfl | exact absurd rfl h
@[simp] theorem State.reg_setPair_af_high (s : State) (v : Word) :
    (s.setPair .af v).reg .a = v.high := rfl
@[simp] theorem State.reg_setPair_af_low (s : State) (v : Word) :
    (s.setPair .af v).reg .f = v.low := rfl
@[simp] theorem State.reg_setPair_af_ne (s : State) (r : Reg8) (v : Word) (hx : r ≠ .a) (hy : r ≠ .f) :
    (s.setPair .af v).reg r = s.reg r := by
  cases r <;> first | rfl | exact absurd rfl hx | exact absurd rfl hy
@[simp] theorem State.reg_setPair_bc_high (s : State) (v : Word) :
    (s.setPair .bc v).reg .b = v.high := rfl
@[simp] theorem State.reg_setPair_bc_low (s : State) (v : Word) :
    (s.setPair .bc v).reg .c = v.low := rfl
@[simp] theorem State.reg_setPair_bc_ne (s : State) (r : Reg8) (v : Word) (hx : r ≠ .b) (hy : r ≠ .c) :
    (s.setPair .bc v).reg r = s.reg r := by
  cases r <;> first | rfl | exact absurd rfl hx | exact absurd rfl hy
@[simp] theorem State.reg_setPair_de_high (s : State) (v : Word) :
    (s.setPair .de v).reg .d = v.high := rfl
@[simp] theorem State.reg_setPair_de_low (s : State) (v : Word) :
    (s.setPair .de v).reg .e = v.low := rfl
@[simp] theorem State.reg_setPair_de_ne (s : State) (r : Reg8) (v : Word) (hx : r ≠ .d) (hy : r ≠ .e) :
    (s.setPair .de v).reg r = s.reg r := by
  cases r <;> first | rfl | exact absurd rfl hx | exact absurd rfl hy
@[simp] theorem State.reg_setPair_hl_high (s : State) (v : Word) :
    (s.setPair .hl v).reg .h = v.high := rfl
@[simp] theorem State.reg_setPair_hl_low (s : State) (v : Word) :
    (s.setPair .hl v).reg .l = v.low := rfl
@[simp] theorem State.reg_setPair_hl_ne (s : State) (r : Reg8) (v : Word) (hx : r ≠ .h) (hy : r ≠ .l) :
    (s.setPair .hl v).reg r = s.reg r := by
  cases r <;> first | rfl | exact absurd rfl hx | exact absurd rfl hy

/-- A pair is its two halves (10_state.md R31). -/
theorem State.pair_eq_halves (s : State) :
    s.pair .af = Word.ofBytes (s.reg .a) (s.reg .f) ∧ s.pair .bc = Word.ofBytes (s.reg .b) (s.reg .c) ∧
    s.pair .de = Word.ofBytes (s.reg .d) (s.reg .e) ∧ s.pair .hl = Word.ofBytes (s.reg .h) (s.reg .l) :=
  ⟨rfl, rfl, rfl, rfl⟩

/-! ## Flags -/

/-- `FLAG_LAYOUT` gives two flags two positions (10_state.md R39). -/
theorem flagPosition_inj {l : Config.FlagLayout} {f g : Flag} (h : flagPosition l g = flagPosition l f) : g = f := by
  have hd := l.distinct
  simp only [List.nodup_cons, List.mem_cons, List.not_mem_nil, not_or, or_false] at hd
  cases f <;> cases g <;> simp_all [flagPosition, eq_comm]

/-- A flag is the bit at its position. -/
theorem readFlag_eq_bit (l : Config.FlagLayout) (v : Byte) (f : Flag) :
    readFlag l v f = v.getLsbD (flagPosition l f).val := by
  unfold readFlag flagMask
  generalize flagPosition l f = p
  revert p v
  decide

theorem writeFlag_bit (l : Config.FlagLayout) (v : Byte) (f : Flag) (b : Bool) (i : Nat) :
    (writeFlag l v f b).getLsbD i = if i = (flagPosition l f).val then b else v.getLsbD i := by
  unfold writeFlag setFlag clearFlag flagMask
  generalize hp : flagPosition l f = p
  have hlt := p.isLt
  by_cases hi : i < 8
  · cases b <;> by_cases he : i = p.val <;> simp [hi, he] <;> omega
  · have he : i ≠ p.val := by omega
    rw [if_neg he, BitVec.getLsbD_of_ge _ _ (by omega), BitVec.getLsbD_of_ge _ _ (by omega)]

/-- The flag isolation law (10_state.md R41). -/
@[simp] theorem readFlag_writeFlag (l : Config.FlagLayout) (v : Byte) (f g : Flag) (b : Bool) :
    readFlag l (writeFlag l v f b) g = if g = f then b else readFlag l v g := by
  rw [readFlag_eq_bit, readFlag_eq_bit, writeFlag_bit]
  by_cases h : g = f
  · simp [h]
  · rw [if_neg h, if_neg (fun e => h (flagPosition_inj (Fin.eq_of_val_eq e)))]

/-- No flag operation touches the bits outside the flags (10_state.md R39, R41). -/
@[simp] theorem nonFlagBits_writeFlag (l : Config.FlagLayout) (v : Byte) (f : Flag) (b : Bool) :
    nonFlagBits (writeFlag l v f b) = nonFlagBits v := by
  unfold nonFlagBits writeFlag setFlag clearFlag flagMask
  generalize flagPosition l f = p
  revert p v b
  decide

@[simp] theorem State.setReg_params (s : State) (r : Reg8) (v : Byte) :
    (s.setReg r v).params = s.params := rfl
@[simp] theorem State.writeFlag_params (s : State) (f : Flag) (b : Bool) : (s.writeFlag f b).params = s.params := rfl

@[simp] theorem State.flag_writeFlag (s : State) (f g : Flag) (b : Bool) :
    (s.writeFlag f b).flag g = if g = f then b else s.flag g := by
  simp [State.writeFlag, State.flag]

@[simp] theorem State.reg_writeFlag (s : State) (f : Flag) (b : Bool) (r : Reg8) (h : r ≠ .f) :
    (s.writeFlag f b).reg r = s.reg r := by simp [State.writeFlag, h]

@[simp] theorem State.nonFlagBits_writeFlag (s : State) (f : Flag) (b : Bool) :
    nonFlagBits ((s.writeFlag f b).reg .f) = nonFlagBits (s.reg .f) := by simp [State.writeFlag]

@[simp] theorem State.flag_setReg (s : State) (r : Reg8) (v : Byte) (f : Flag) (h : r ≠ .f) :
    (s.setReg r v).flag f = s.flag f := by
  simp [State.flag, State.reg_setReg_ne s r .f v (Ne.symm h)]

@[simp] theorem State.flag_setPair_bc (s : State) (v : Word) (f : Flag) :
    (s.setPair .bc v).flag f = s.flag f := rfl
@[simp] theorem State.flag_setPair_de (s : State) (v : Word) (f : Flag) :
    (s.setPair .de v).flag f = s.flag f := rfl
@[simp] theorem State.flag_setPair_hl (s : State) (v : Word) (f : Flag) :
    (s.setPair .hl v).flag f = s.flag f := rfl
@[simp] theorem State.flag_setPair_sp (s : State) (v : Word) (f : Flag) :
    (s.setPair .sp v).flag f = s.flag f := rfl
@[simp] theorem State.flag_setPair_pc (s : State) (v : Word) (f : Flag) :
    (s.setPair .pc v).flag f = s.flag f := rfl
@[simp] theorem State.flag_setPair_ix (s : State) (v : Word) (f : Flag) :
    (s.setPair .ix v).flag f = s.flag f := rfl
@[simp] theorem State.flag_setPair_iy (s : State) (v : Word) (f : Flag) :
    (s.setPair .iy v).flag f = s.flag f := rfl
@[simp] theorem State.pair_sp_writeFlag (s : State) (f : Flag) (b : Bool) :
    (s.writeFlag f b).pair .sp = s.pair .sp := rfl
@[simp] theorem State.pair_pc_writeFlag (s : State) (f : Flag) (b : Bool) :
    (s.writeFlag f b).pair .pc = s.pair .pc := rfl
@[simp] theorem State.pair_ix_writeFlag (s : State) (f : Flag) (b : Bool) :
    (s.writeFlag f b).pair .ix = s.pair .ix := rfl
@[simp] theorem State.pair_iy_writeFlag (s : State) (f : Flag) (b : Bool) :
    (s.writeFlag f b).pair .iy = s.pair .iy := rfl

@[simp] theorem State.flag_writeFlags (s : State) (z n h cy : Bool) (g : Flag) :
    (s.writeFlags z n h cy).flag g = match g with | .z => z | .n => n | .h => h | .cy => cy := by
  cases g <;> simp [State.writeFlags]

@[simp] theorem State.reg_writeFlags (s : State) (z n h cy : Bool) (r : Reg8) (hr : r ≠ .f) :
    (s.writeFlags z n h cy).reg r = s.reg r := by simp [State.writeFlags, hr]

@[simp] theorem State.nonFlagBits_writeFlags (s : State) (z n h cy : Bool) :
    nonFlagBits ((s.writeFlags z n h cy).reg .f) = nonFlagBits (s.reg .f) := by simp [State.writeFlags]

@[simp] theorem State.pair_sp_writeFlags (s : State) (z n h cy : Bool) :
    (s.writeFlags z n h cy).pair .sp = s.pair .sp := rfl
@[simp] theorem State.pair_pc_writeFlags (s : State) (z n h cy : Bool) :
    (s.writeFlags z n h cy).pair .pc = s.pair .pc := rfl
@[simp] theorem State.pair_ix_writeFlags (s : State) (z n h cy : Bool) :
    (s.writeFlags z n h cy).pair .ix = s.pair .ix := rfl
@[simp] theorem State.pair_iy_writeFlags (s : State) (z n h cy : Bool) :
    (s.writeFlags z n h cy).pair .iy = s.pair .iy := rfl

/-! ## One field under one update -/

@[simp] theorem State.setReg_alt (s : State) (r : Reg8) (v : Byte) :
    (s.setReg r v).alt = s.alt := rfl
@[simp] theorem State.setReg_mode (s : State) (r : Reg8) (v : Byte) :
    (s.setReg r v).mode = s.mode := rfl
@[simp] theorem State.setReg_mem (s : State) (r : Reg8) (v : Byte) :
    (s.setReg r v).mem = s.mem := rfl
@[simp] theorem State.setReg_fault (s : State) (r : Reg8) (v : Byte) :
    (s.setReg r v).fault = s.fault := rfl
@[simp] theorem State.setReg_draws (s : State) (r : Reg8) (v : Byte) :
    (s.setReg r v).draws = s.draws := rfl
@[simp] theorem State.setReg_signals (s : State) (r : Reg8) (v : Byte) :
    (s.setReg r v).signals = s.signals := rfl
@[simp] theorem State.setPair_alt (s : State) (rr : Reg16) (v : Word) :
    (s.setPair rr v).alt = s.alt := rfl
@[simp] theorem State.setPair_mode (s : State) (rr : Reg16) (v : Word) :
    (s.setPair rr v).mode = s.mode := rfl
@[simp] theorem State.setPair_mem (s : State) (rr : Reg16) (v : Word) :
    (s.setPair rr v).mem = s.mem := rfl
@[simp] theorem State.setPair_fault (s : State) (rr : Reg16) (v : Word) :
    (s.setPair rr v).fault = s.fault := rfl
@[simp] theorem State.setPair_draws (s : State) (rr : Reg16) (v : Word) :
    (s.setPair rr v).draws = s.draws := rfl
@[simp] theorem State.setPair_params (s : State) (rr : Reg16) (v : Word) :
    (s.setPair rr v).params = s.params := rfl
@[simp] theorem State.setPair_signals (s : State) (rr : Reg16) (v : Word) :
    (s.setPair rr v).signals = s.signals := rfl
@[simp] theorem State.writeFlag_alt (s : State) (f : Flag) (b : Bool) :
    (s.writeFlag f b).alt = s.alt := rfl
@[simp] theorem State.writeFlag_mode (s : State) (f : Flag) (b : Bool) :
    (s.writeFlag f b).mode = s.mode := rfl
@[simp] theorem State.writeFlag_mem (s : State) (f : Flag) (b : Bool) :
    (s.writeFlag f b).mem = s.mem := rfl
@[simp] theorem State.writeFlag_fault (s : State) (f : Flag) (b : Bool) :
    (s.writeFlag f b).fault = s.fault := rfl
@[simp] theorem State.writeFlag_draws (s : State) (f : Flag) (b : Bool) :
    (s.writeFlag f b).draws = s.draws := rfl
@[simp] theorem State.writeFlag_signals (s : State) (f : Flag) (b : Bool) :
    (s.writeFlag f b).signals = s.signals := rfl
@[simp] theorem State.writeFlags_alt (s : State) (z n h cy : Bool) :
    (s.writeFlags z n h cy).alt = s.alt := rfl
@[simp] theorem State.writeFlags_mode (s : State) (z n h cy : Bool) :
    (s.writeFlags z n h cy).mode = s.mode := rfl
@[simp] theorem State.writeFlags_mem (s : State) (z n h cy : Bool) :
    (s.writeFlags z n h cy).mem = s.mem := rfl
@[simp] theorem State.writeFlags_fault (s : State) (z n h cy : Bool) :
    (s.writeFlags z n h cy).fault = s.fault := rfl
@[simp] theorem State.writeFlags_draws (s : State) (z n h cy : Bool) :
    (s.writeFlags z n h cy).draws = s.draws := rfl
@[simp] theorem State.writeFlags_params (s : State) (z n h cy : Bool) :
    (s.writeFlags z n h cy).params = s.params := rfl
@[simp] theorem State.writeFlags_signals (s : State) (z n h cy : Bool) :
    (s.writeFlags z n h cy).signals = s.signals := rfl
@[simp] theorem State.jump_alt (s : State) (v : Word) :
    (s.jump v).alt = s.alt := rfl
@[simp] theorem State.jump_mode (s : State) (v : Word) :
    (s.jump v).mode = s.mode := rfl
@[simp] theorem State.jump_mem (s : State) (v : Word) :
    (s.jump v).mem = s.mem := rfl
@[simp] theorem State.jump_fault (s : State) (v : Word) :
    (s.jump v).fault = s.fault := rfl
@[simp] theorem State.jump_draws (s : State) (v : Word) :
    (s.jump v).draws = s.draws := rfl
@[simp] theorem State.jump_params (s : State) (v : Word) :
    (s.jump v).params = s.params := rfl
@[simp] theorem State.jump_signals (s : State) (v : Word) :
    (s.jump v).signals = s.signals := rfl
@[simp] theorem State.setHalt_alt (s : State) (b : Bool) :
    (s.setHalt b).alt = s.alt := rfl
@[simp] theorem State.setHalt_mode (s : State) (b : Bool) :
    (s.setHalt b).mode = s.mode := rfl
@[simp] theorem State.setHalt_mem (s : State) (b : Bool) :
    (s.setHalt b).mem = s.mem := rfl
@[simp] theorem State.setHalt_fault (s : State) (b : Bool) :
    (s.setHalt b).fault = s.fault := rfl
@[simp] theorem State.setHalt_draws (s : State) (b : Bool) :
    (s.setHalt b).draws = s.draws := rfl
@[simp] theorem State.setHalt_params (s : State) (b : Bool) :
    (s.setHalt b).params = s.params := rfl
@[simp] theorem State.setHalt_regs (s : State) (b : Bool) :
    (s.setHalt b).regs = s.regs := rfl
@[simp] theorem State.setHalt_reg (s : State) (b : Bool) (r : Reg8) :
    (s.setHalt b).reg r = s.reg r := rfl
@[simp] theorem State.setHalt_pair (s : State) (b : Bool) (rr : Reg16) :
    (s.setHalt b).pair rr = s.pair rr := rfl
@[simp] theorem State.setHalt_flag (s : State) (b : Bool) (g : Flag) :
    (s.setHalt b).flag g = s.flag g := rfl
@[simp] theorem State.setStop_alt (s : State) (b : Bool) :
    (s.setStop b).alt = s.alt := rfl
@[simp] theorem State.setStop_mode (s : State) (b : Bool) :
    (s.setStop b).mode = s.mode := rfl
@[simp] theorem State.setStop_mem (s : State) (b : Bool) :
    (s.setStop b).mem = s.mem := rfl
@[simp] theorem State.setStop_fault (s : State) (b : Bool) :
    (s.setStop b).fault = s.fault := rfl
@[simp] theorem State.setStop_draws (s : State) (b : Bool) :
    (s.setStop b).draws = s.draws := rfl
@[simp] theorem State.setStop_params (s : State) (b : Bool) :
    (s.setStop b).params = s.params := rfl
@[simp] theorem State.setStop_regs (s : State) (b : Bool) :
    (s.setStop b).regs = s.regs := rfl
@[simp] theorem State.setStop_reg (s : State) (b : Bool) (r : Reg8) :
    (s.setStop b).reg r = s.reg r := rfl
@[simp] theorem State.setStop_pair (s : State) (b : Bool) (rr : Reg16) :
    (s.setStop b).pair rr = s.pair rr := rfl
@[simp] theorem State.setStop_flag (s : State) (b : Bool) (g : Flag) :
    (s.setStop b).flag g = s.flag g := rfl
@[simp] theorem State.setAborted_alt (s : State) (b : Bool) :
    (s.setAborted b).alt = s.alt := rfl
@[simp] theorem State.setAborted_mode (s : State) (b : Bool) :
    (s.setAborted b).mode = s.mode := rfl
@[simp] theorem State.setAborted_mem (s : State) (b : Bool) :
    (s.setAborted b).mem = s.mem := rfl
@[simp] theorem State.setAborted_fault (s : State) (b : Bool) :
    (s.setAborted b).fault = s.fault := rfl
@[simp] theorem State.setAborted_draws (s : State) (b : Bool) :
    (s.setAborted b).draws = s.draws := rfl
@[simp] theorem State.setAborted_params (s : State) (b : Bool) :
    (s.setAborted b).params = s.params := rfl
@[simp] theorem State.setAborted_regs (s : State) (b : Bool) :
    (s.setAborted b).regs = s.regs := rfl
@[simp] theorem State.setAborted_reg (s : State) (b : Bool) (r : Reg8) :
    (s.setAborted b).reg r = s.reg r := rfl
@[simp] theorem State.setAborted_pair (s : State) (b : Bool) (rr : Reg16) :
    (s.setAborted b).pair rr = s.pair rr := rfl
@[simp] theorem State.setAborted_flag (s : State) (b : Bool) (g : Flag) :
    (s.setAborted b).flag g = s.flag g := rfl
@[simp] theorem State.setUserModeRequested_alt (s : State) (b : Bool) :
    (s.setUserModeRequested b).alt = s.alt := rfl
@[simp] theorem State.setUserModeRequested_mode (s : State) (b : Bool) :
    (s.setUserModeRequested b).mode = s.mode := rfl
@[simp] theorem State.setUserModeRequested_mem (s : State) (b : Bool) :
    (s.setUserModeRequested b).mem = s.mem := rfl
@[simp] theorem State.setUserModeRequested_fault (s : State) (b : Bool) :
    (s.setUserModeRequested b).fault = s.fault := rfl
@[simp] theorem State.setUserModeRequested_draws (s : State) (b : Bool) :
    (s.setUserModeRequested b).draws = s.draws := rfl
@[simp] theorem State.setUserModeRequested_params (s : State) (b : Bool) :
    (s.setUserModeRequested b).params = s.params := rfl
@[simp] theorem State.setUserModeRequested_regs (s : State) (b : Bool) :
    (s.setUserModeRequested b).regs = s.regs := rfl
@[simp] theorem State.setUserModeRequested_reg (s : State) (b : Bool) (r : Reg8) :
    (s.setUserModeRequested b).reg r = s.reg r := rfl
@[simp] theorem State.setUserModeRequested_pair (s : State) (b : Bool) (rr : Reg16) :
    (s.setUserModeRequested b).pair rr = s.pair rr := rfl
@[simp] theorem State.setUserModeRequested_flag (s : State) (b : Bool) (g : Flag) :
    (s.setUserModeRequested b).flag g = s.flag g := rfl
@[simp] theorem State.setUserSourceRequested_alt (s : State) (b : Bool) :
    (s.setUserSourceRequested b).alt = s.alt := rfl
@[simp] theorem State.setUserSourceRequested_mode (s : State) (b : Bool) :
    (s.setUserSourceRequested b).mode = s.mode := rfl
@[simp] theorem State.setUserSourceRequested_mem (s : State) (b : Bool) :
    (s.setUserSourceRequested b).mem = s.mem := rfl
@[simp] theorem State.setUserSourceRequested_fault (s : State) (b : Bool) :
    (s.setUserSourceRequested b).fault = s.fault := rfl
@[simp] theorem State.setUserSourceRequested_draws (s : State) (b : Bool) :
    (s.setUserSourceRequested b).draws = s.draws := rfl
@[simp] theorem State.setUserSourceRequested_params (s : State) (b : Bool) :
    (s.setUserSourceRequested b).params = s.params := rfl
@[simp] theorem State.setUserSourceRequested_regs (s : State) (b : Bool) :
    (s.setUserSourceRequested b).regs = s.regs := rfl
@[simp] theorem State.setUserSourceRequested_reg (s : State) (b : Bool) (r : Reg8) :
    (s.setUserSourceRequested b).reg r = s.reg r := rfl
@[simp] theorem State.setUserSourceRequested_pair (s : State) (b : Bool) (rr : Reg16) :
    (s.setUserSourceRequested b).pair rr = s.pair rr := rfl
@[simp] theorem State.setUserSourceRequested_flag (s : State) (b : Bool) (g : Flag) :
    (s.setUserSourceRequested b).flag g = s.flag g := rfl
@[simp] theorem State.setInterruptSignals_alt (s : State) (ime clear : Bool) :
    (s.setInterruptSignals ime clear).alt = s.alt := rfl
@[simp] theorem State.setInterruptSignals_mode (s : State) (ime clear : Bool) :
    (s.setInterruptSignals ime clear).mode = s.mode := rfl
@[simp] theorem State.setInterruptSignals_mem (s : State) (ime clear : Bool) :
    (s.setInterruptSignals ime clear).mem = s.mem := rfl
@[simp] theorem State.setInterruptSignals_fault (s : State) (ime clear : Bool) :
    (s.setInterruptSignals ime clear).fault = s.fault := rfl
@[simp] theorem State.setInterruptSignals_draws (s : State) (ime clear : Bool) :
    (s.setInterruptSignals ime clear).draws = s.draws := rfl
@[simp] theorem State.setInterruptSignals_params (s : State) (ime clear : Bool) :
    (s.setInterruptSignals ime clear).params = s.params := rfl
@[simp] theorem State.setInterruptSignals_regs (s : State) (ime clear : Bool) :
    (s.setInterruptSignals ime clear).regs = s.regs := rfl
@[simp] theorem State.setInterruptSignals_reg (s : State) (ime clear : Bool) (r : Reg8) :
    (s.setInterruptSignals ime clear).reg r = s.reg r := rfl
@[simp] theorem State.setInterruptSignals_pair (s : State) (ime clear : Bool) (rr : Reg16) :
    (s.setInterruptSignals ime clear).pair rr = s.pair rr := rfl
@[simp] theorem State.setInterruptSignals_flag (s : State) (ime clear : Bool) (g : Flag) :
    (s.setInterruptSignals ime clear).flag g = s.flag g := rfl
@[simp] theorem State.requestUserSource_alt (s : State) :
    (s.requestUserSource).alt = s.alt := rfl
@[simp] theorem State.requestUserSource_mode (s : State) :
    (s.requestUserSource).mode = s.mode := rfl
@[simp] theorem State.requestUserSource_mem (s : State) :
    (s.requestUserSource).mem = s.mem := rfl
@[simp] theorem State.requestUserSource_fault (s : State) :
    (s.requestUserSource).fault = s.fault := rfl
@[simp] theorem State.requestUserSource_draws (s : State) :
    (s.requestUserSource).draws = s.draws := rfl
@[simp] theorem State.requestUserSource_params (s : State) :
    (s.requestUserSource).params = s.params := rfl
@[simp] theorem State.requestUserSource_regs (s : State) :
    (s.requestUserSource).regs = s.regs := rfl
@[simp] theorem State.requestUserSource_reg (s : State) (r : Reg8) :
    (s.requestUserSource).reg r = s.reg r := rfl
@[simp] theorem State.requestUserSource_pair (s : State) (rr : Reg16) :
    (s.requestUserSource).pair rr = s.pair rr := rfl
@[simp] theorem State.requestUserSource_flag (s : State) (g : Flag) :
    (s.requestUserSource).flag g = s.flag g := rfl

@[simp] theorem State.jump_pc (s : State) (v : Word) : (s.jump v).pair .pc = v := rfl
@[simp] theorem State.jump_reg (s : State) (v : Word) (r : Reg8) : (s.jump v).reg r = s.reg r := by
  cases r <;> rfl
@[simp] theorem State.jump_flag (s : State) (v : Word) (f : Flag) : (s.jump v).flag f = s.flag f := rfl
@[simp] theorem State.jump_pair (s : State) (v : Word) (rr : Reg16) (h : rr ≠ .pc) :
    (s.jump v).pair rr = s.pair rr := by simp [State.jump, h]

end Sys2Proof.Machine
end

