-- ==== Sys2Proof/Laws/Ops.lean ====
section
/-! SUPPORT. For each shared operation, once, everything it can do: when it goes on, with what, and when it
stops (00_scope.md R17 to R20; 20_memory.md R93 to R95; 46_stack.md R410). -/

namespace Sys2Proof.Machine

/-! ## Routing, reading -/

theorem Memory.target_of_not_covers {m : Memory} {d : Domain} {a : Word} (h : m.covers d a = false) :
    m.target d a = none := by
  unfold Memory.covers at h
  unfold Memory.target
  cases hr : m.route d a with
  | none => rfl
  | some e => rw [hr] at h; cases h

theorem Memory.readByte_of_not_covers {m : Memory} {d : Domain} {a : Word} (k : AccessKind)
    (h : m.covers d a = false) : m.readByte d a k = .error (.unmapped a d k) := by
  simp [Memory.readByte, Memory.target_of_not_covers h]

theorem Memory.writeByte_of_not_covers {m : Memory} {d : Domain} {a : Word} (v : Byte)
    (h : m.covers d a = false) : m.writeByte d a v = .error (.unmapped a d .write) := by
  simp [Memory.writeByte, Memory.target_of_not_covers h]

theorem Memory.writeByte_of_inRom {m : Memory} {d : Domain} {a : Word} (v : Byte) (h : m.inRom d a) :
    m.writeByte d a v = .error (.readOnlyWrite a d) := by
  obtain ⟨n, r, o, ht, hk⟩ := h
  unfold Memory.writeByte
  rw [ht]
  unfold Resource.writeByte
  cases hkk : r.kind <;> simp_all

/-- A byte that reads, reads the same for every access kind. -/
theorem Memory.peek_eq_some {m : Memory} {d : Domain} {a : Word} {v : Byte} :
    m.peek d a = some v ↔ ∀ k, m.readByte d a k = .ok v := by
  unfold Memory.peek Memory.readByte
  cases ht : m.target d a with
  | none =>
    refine ⟨fun h => ?_, fun h => ?_⟩
    · cases h
    · exact absurd (h .read) (by simp)
  | some x =>
    obtain ⟨n, r, o⟩ := x
    dsimp only
    cases hr : r.readByte o with
    | error c =>
      refine ⟨fun h => ?_, fun h => ?_⟩
      · cases h
      · exact absurd (h .read) (by simp)
    | ok b =>
      refine ⟨fun h _ => ?_, fun h => ?_⟩
      · cases h; rfl
      · have := h .read
        cases this
        rfl

theorem Memory.readByte_of_peek {m : Memory} {d : Domain} {a : Word} {v : Byte} (k : AccessKind)
    (h : m.peek d a = some v) : m.readByte d a k = .ok v := Memory.peek_eq_some.1 h k

/-- The byte read is the cell located. -/
theorem Memory.peek_eq_cell (m : Memory) (d : Domain) (a : Word) :
    m.peek d a = match m.locate d a with | none => none | some (n, o) => m.cell n o := by
  unfold Memory.peek Memory.locate Memory.readByte
  cases ht : m.target d a with
  | none => rfl
  | some x =>
    obtain ⟨n, r, o⟩ := x
    obtain ⟨e, -, -, hr, -⟩ := Memory.target_some ht
    dsimp only
    unfold Resource.readByte
    by_cases ho : o < r.size <;> simp [ho, Memory.cell, hr]

theorem State.readIn_peek {s : State} {d : Domain} {a : Word} {v : Byte} (k : Byte → Result)
    (h : s.mem.peek d a = some v) : s.readIn d a k = k v := by
  simp [State.readIn, Memory.readByte_of_peek _ h, State.orRaise]

theorem State.readIn_unmapped {s : State} {d : Domain} {a : Word} (k : Byte → Result)
    (h : s.mem.covers d a = false) : s.readIn d a k = unmappedRead s d a := by
  simp [State.readIn, Memory.readByte_of_not_covers _ h, State.orRaise, State.raise, unmappedRead, raised]

/-- All a read that goes on can do. -/
theorem State.readIn_next {s t : State} {d : Domain} {a : Word} {k : Byte → Result}
    (h : s.readIn d a k = .next t) : ∃ v, s.mem.peek d a = some v ∧ k v = .next t := by
  unfold State.readIn at h
  cases hr : s.mem.readByte d a .read with
  | error c => simp [hr, State.orRaise, State.raise] at h
  | ok b => exact ⟨b, by simp [Memory.peek, hr], by simpa [hr, State.orRaise] using h⟩

/-! ## Writing -/

/-- What an address is routed to after a resource's contents changed. -/
theorem Memory.target_set {m : Memory} {n : Nat} {r : Resource} (hr : m.resources[n]? = some r) (r' : Resource)
    (d : Domain) (a : Word) :
    ({ m with resources := m.resources.set n r' } : Memory).target d a =
      match m.route d a with
      | none => none
      | some e => if n = e.resource then some (n, r', e.offset a) else m.target d a := by
  have hroute : ({ m with resources := m.resources.set n r' } : Memory).route d a = m.route d a := rfl
  unfold Memory.target
  rw [hroute]
  cases m.route d a with
  | none => rfl
  | some e =>
    dsimp only
    by_cases he : n = e.resource
    · subst he
      have hlt : e.resource < m.resources.length := by
        rcases Nat.lt_or_ge e.resource m.resources.length with hl | hl
        · exact hl
        · rw [List.getElem?_eq_none hl] at hr; cases hr
      simp only [List.getElem?_set_self hlt, if_pos]
    · simp only [List.getElem?_set_ne he, if_neg he]

theorem Memory.target_of_route {m : Memory} {d : Domain} {a : Word} {e : Entry} {r : Resource}
    (hroute : m.route d a = some e) (hr : m.resources[e.resource]? = some r) :
    m.target d a = some (e.resource, r, e.offset a) := by
  simp only [Memory.target, hroute, hr]

/-- A byte write leaves every resource's number, kind and size, and so every place an address names. -/
theorem Memory.locate_set {m : Memory} {n : Nat} {r r' : Resource} (hr : m.resources[n]? = some r)
    (hk : r'.kind = r.kind) (hs : r'.size = r.size) (d : Domain) (a : Word) :
    ({ m with resources := m.resources.set n r' } : Memory).locate d a = m.locate d a := by
  unfold Memory.locate
  rw [Memory.target_set hr]
  cases hroute : m.route d a with
  | none => simp only [Memory.target, hroute]
  | some e =>
    dsimp only
    by_cases he : n = e.resource
    · subst he
      simp only [if_pos, Memory.target_of_route hroute hr, Resource.effectiveOffset, hk, hs]
    · simp only [if_neg he]

theorem Memory.locate_writeByte {m m' : Memory} {d : Domain} {a : Word} {v : Byte}
    (h : m.writeByte d a v = .ok m') (d' : Domain) (a' : Word) : m'.locate d' a' = m.locate d' a' := by
  obtain ⟨n, r, o, ht, -, -, rfl⟩ := Memory.writeByte_ok h
  obtain ⟨e, -, -, hr, -⟩ := Memory.target_some ht
  exact Memory.locate_set hr (r' := r.put o v) rfl rfl d' a'

theorem Memory.writeByte_table {m m' : Memory} {d : Domain} {a : Word} {v : Byte}
    (h : m.writeByte d a v = .ok m') : m'.table = m.table := by
  obtain ⟨n, r, o, -, -, -, rfl⟩ := Memory.writeByte_ok h
  rfl

/-- A byte write changes the cell it locates, and no other. -/
theorem Memory.cell_writeByte {m m' : Memory} {d : Domain} {a : Word} {v : Byte} (hwf : m.wf = true)
    (h : m.writeByte d a v = .ok m') (p q : Nat) (hpq : m.cell p q ≠ none) :
    m'.cell p q = if m.locate d a = some (p, q) then some v else m.cell p q := by
  obtain ⟨n, r, o, ht, hk, ho, rfl⟩ := Memory.writeByte_ok h
  obtain ⟨e, -, -, hr, -⟩ := Memory.target_some ht
  have hlt : n < m.resources.length := by
    rcases Nat.lt_or_ge n m.resources.length with hl | hl
    · exact hl
    · rw [List.getElem?_eq_none hl] at hr; cases hr
  have hwr := Memory.wf_resource hwf hr
  simp only [Resource.wf, Bool.and_eq_true] at hwr
  have hloc : m.locate d a = some (n, o) := by
    simp [Memory.locate, ht, ho, Resource.effectiveOffset, hk]
  rw [hloc]
  by_cases hp : n = p
  · subst hp
    simp only [Memory.cell, List.getElem?_set_self hlt, hr, Resource.put]
    by_cases hq : o = q
    · subst hq
      simp [cellGet_cellSet_self o v hwr.1]
    · simp [cellGet_cellSet_ne r.cells o q v (fun e => hq e.symm), hq]
  · simp [Memory.cell, List.getElem?_set_ne hp, hp]

/-- What a byte read gives after a byte write: the byte stored where both addresses name one place, else what
it gave before (20_memory.md R98, R110). -/
theorem Memory.peek_writeByte {m m' : Memory} {d : Domain} {a : Word} {v : Byte} (hwf : m.wf = true)
    (h : m.writeByte d a v = .ok m') (d' : Domain) (a' : Word) :
    m'.peek d' a' = if m.locate d' a' = m.locate d a then some v else m.peek d' a' := by
  have hloc : ∃ p, m.locate d a = some p := by
    obtain ⟨n, r, o, ht, hk, ho, -⟩ := Memory.writeByte_ok h
    exact ⟨_, by simp [Memory.locate, ht, ho]; rfl⟩
  obtain ⟨⟨p, q⟩, hpq⟩ := hloc
  rw [Memory.peek_eq_cell, Memory.locate_writeByte h, Memory.peek_eq_cell m, hpq]
  cases hl : m.locate d' a' with
  | none => simp
  | some x =>
    obtain ⟨p', q'⟩ := x
    dsimp only
    have hne : m.cell p' q' ≠ none := by
      unfold Memory.locate at hl
      cases ht : m.target d' a' with
      | none => simp [ht] at hl
      | some y =>
        obtain ⟨n, r, o⟩ := y
        obtain ⟨e, -, -, hr, -⟩ := Memory.target_some ht
        simp only [ht] at hl
        split at hl
        · cases hl; simp [Memory.cell, hr]
        · cases hl
    rw [Memory.cell_writeByte hwf h _ _ hne, hpq]
    by_cases hx : (p, q) = (p', q')
    · simp [hx]
    · have hx' : ¬ (p', q') = (p, q) := fun e => hx e.symm
      simp [hx, hx']

theorem State.write_writable {s : State} {a : Word} (v : Byte) (k : State → Result)
    (h : s.mem.writable s.mode a = true) :
    ∃ m, s.mem.writeByte s.mode a v = .ok m ∧ s.write a v k = k { s with mem := m } := by
  obtain ⟨m, hm⟩ := Memory.writeByte_writable v h
  exact ⟨m, hm, by simp [State.write, hm, State.orRaise]⟩

theorem State.write_unmapped {s : State} {a : Word} (v : Byte) (k : State → Result)
    (h : s.mem.covers s.mode a = false) : s.write a v k = unmappedWrite s a := by
  simp [State.write, Memory.writeByte_of_not_covers v h, State.orRaise, State.raise, unmappedWrite, raised]

theorem State.write_inRom {s : State} {a : Word} (v : Byte) (k : State → Result)
    (h : s.mem.inRom s.mode a) : s.write a v k = readOnly s a := by
  simp [State.write, Memory.writeByte_of_inRom v h, State.orRaise, State.raise, readOnly, raised]

/-- All a write that goes on can do. -/
theorem State.write_next {s t : State} {a : Word} {v : Byte} {k : State → Result}
    (h : s.write a v k = .next t) :
    ∃ m, s.mem.writeByte s.mode a v = .ok m ∧ k { s with mem := m } = .next t := by
  unfold State.write at h
  cases hr : s.mem.writeByte s.mode a v with
  | error c => simp [hr, State.orRaise, State.raise] at h
  | ok m => exact ⟨m, rfl, by simpa [hr, State.orRaise] using h⟩

/-- The byte a write stores, in the terms of the statements. -/
theorem StoredByte.of_writeByte {s t : State} {a : Word} {v : Byte} {m : Memory} (hwf : s.mem.wf = true)
    (h : s.mem.writeByte s.mode a v = .ok m) (ht : t.mem = m) : StoredByte s t a v := by
  refine ⟨fun d a' hl => ?_, fun d a' hl => ?_, ?_⟩
  · rw [ht, Memory.peek_writeByte hwf h, if_pos hl]
  · rw [ht, Memory.peek_writeByte hwf h, if_neg hl]
  · rw [ht, Memory.writeByte_table h]

/-! ## The straddle check -/

theorem Memory.target_of_pairInOneEntry {m : Memory} {d : Domain} {a : Word}
    (h : m.pairInOneEntry d a = true) :
    ∃ e r, m.route d a = some e ∧ m.resources[e.resource]? = some r ∧
      m.target d a = some (e.resource, r, e.offset a) ∧ e.range.contains (a + 1) = true ∧
      r.atBankEdge (e.offset a) = false ∧ a ≠ 0xFFFF#16 := by
  unfold Memory.pairInOneEntry at h
  cases hr : m.route d a with
  | none => simp [hr] at h
  | some e =>
    simp only [hr] at h
    cases hres : m.resources[e.resource]? with
    | none => simp [hres] at h
    | some r =>
      simp only [hres, Bool.and_eq_true, Bool.not_eq_true', bne_iff_ne, ne_eq] at h
      exact ⟨e, r, rfl, hres, by simp [Memory.target, hr, hres], h.1.1, h.1.2, h.2⟩

theorem Memory.straddleCheck_pair {m : Memory} {d : Domain} {a : Word} (b : Bool) (k : AccessKind)
    (h : m.pairInOneEntry d a = true) : m.straddleCheck b d a k = none := by
  obtain ⟨e, r, -, -, ht, -⟩ := Memory.target_of_pairInOneEntry h
  simp [Memory.straddleCheck, ht, h]

theorem Memory.straddleCheck_unmapped {m : Memory} {d : Domain} {a : Word} (k : AccessKind)
    (h : m.covers d a = false) : m.straddleCheck true d a k = some (.unmapped a d k) := by
  simp [Memory.straddleCheck, Memory.target_of_not_covers h]

/-- In a well-formed memory a covered address is routed to a resource, within its size. -/
theorem Memory.target_of_covers {m : Memory} (hwf : m.wf = true) {d : Domain} {a : Word}
    (h : m.covers d a = true) :
    ∃ e r, m.route d a = some e ∧ e ∈ m.table ∧ e.ownership = d ∧ e.range.contains a = true ∧
      m.resources[e.resource]? = some r ∧ m.target d a = some (e.resource, r, e.offset a) ∧
      (r.size : Int) = e.range.length ∧ e.offset a < r.size := by
  unfold Memory.covers at h
  cases hr : m.route d a with
  | none => simp [hr] at h
  | some e =>
    have hmem := List.mem_of_find?_eq_some hr
    have hp := List.find?_some hr
    simp only [Bool.and_eq_true, beq_iff_eq] at hp
    simp only [Memory.wf, Bool.and_eq_true, List.all_eq_true] at hwf
    have hew := hwf.1.2 e hmem
    unfold Entry.wf at hew
    cases hres : m.resources[e.resource]? with
    | none => simp [hres] at hew
    | some r =>
      simp only [hres, beq_iff_eq] at hew
      refine ⟨e, r, rfl, hmem, hp.1, hp.2, hres, by simp [Memory.target, hr, hres], hew, ?_⟩
      have hc := hp.2
      unfold AddressRange.contains at hc
      unfold AddressRange.length AddressRange.bound at hew
      unfold Entry.offset
      cases ht : e.range.type <;> simp only [ht, Bool.and_eq_true, decide_eq_true_eq] at hc hew <;> omega

theorem Memory.straddleCheck_straddle {m : Memory} (hwf : m.wf = true) {d : Domain} {a : Word} (k : AccessKind)
    (hc : m.covers d a = true) (h : m.pairInOneEntry d a = false) :
    m.straddleCheck true d a k = some (.straddle a d) := by
  obtain ⟨e, r, -, -, -, -, -, ht, -⟩ := Memory.target_of_covers hwf hc
  simp [Memory.straddleCheck, ht, h]

/-- The straddle check raises only `Unmapped` or `Straddle`, and only where `STRADDLE_FAULT` is true
(60_exceptions.md R471). -/
theorem Memory.straddleCheck_some {m : Memory} {b : Bool} {d : Domain} {a : Word} {k : AccessKind} {c : FaultCause}
    (h : m.straddleCheck b d a k = some c) : b = true ∧ (c = .unmapped a d k ∨ c = .straddle a d) := by
  cases b with
  | false => simp [Memory.straddleCheck] at h
  | true =>
    simp only [Memory.straddleCheck, Bool.not_true, Bool.false_eq_true, if_false] at h
    split at h
    · cases h; exact ⟨rfl, .inl rfl⟩
    · split at h
      · cases h
      · cases h; exact ⟨rfl, .inr rfl⟩

/-! ### Through the state: `checkStraddle` -/

theorem State.checkStraddle_pass {s : State} {a : Word} (kind : AccessKind) (k : Result) (h : s.unstraddled a) :
    s.checkStraddle a kind k = k := by
  unfold State.checkStraddle
  cases hb : s.params.straddleFault with
  | false => rfl
  | true => rw [Memory.straddleCheck_pair _ _ (h hb)]; rfl

theorem State.checkStraddle_unmapped {s : State} {a : Word} (kind : AccessKind) (k : Result)
    (hb : s.params.straddleFault = true) (h : s.mem.covers s.mode a = false) :
    s.checkStraddle a kind k = raised s (.unmapped a s.mode kind) := by
  unfold State.checkStraddle
  rw [hb, Memory.straddleCheck_unmapped _ h]
  rfl

theorem State.checkStraddle_straddle {s : State} {a : Word} (kind : AccessKind) (k : Result)
    (hb : s.params.straddleFault = true) (hwf : s.mem.wf = true) (hc : s.mem.covers s.mode a = true)
    (h : s.mem.pairInOneEntry s.mode a = false) : s.checkStraddle a kind k = straddles s a := by
  unfold State.checkStraddle
  rw [hb, Memory.straddleCheck_straddle hwf _ hc h]
  rfl

/-- With `STRADDLE_FAULT` false nothing is checked. -/
theorem State.checkStraddle_off {s : State} {a : Word} (kind : AccessKind) (k : Result)
    (hb : s.params.straddleFault = false) : s.checkStraddle a kind k = k :=
  State.checkStraddle_pass kind k (fun h => by rw [hb] at h; cases h)

/-- All a check that goes on can do. -/
theorem State.checkStraddle_next {s t : State} {a : Word} {kind : AccessKind} {k : Result}
    (h : s.checkStraddle a kind k = .next t) : k = .next t := by
  unfold State.checkStraddle State.unlessRaised at h
  split at h
  · exact h
  · cases h

/-- At most one entry of a domain contains an address (20_memory.md R89, D33). -/
theorem tableWf_unique {t : List Entry} (h : tableWf t = true) {e e' : Entry} (he : e ∈ t) (he' : e' ∈ t)
    (ho : e.ownership = e'.ownership) {a : Word} (hc : e.range.contains a = true)
    (hc' : e'.range.contains a = true) : e = e' := by
  have hov : ∀ x y : Entry, x.range.contains a = true → y.range.contains a = true →
      x.range.overlaps y.range = true := by
    intro x y hx hy
    unfold AddressRange.contains at hx hy
    unfold AddressRange.overlaps AddressRange.bound
    cases hxt : x.range.type <;> cases hyt : y.range.type <;>
      simp only [hxt, hyt, Bool.and_eq_true, decide_eq_true_eq] at hx hy ⊢ <;> omega
  induction t with
  | nil => cases he
  | cons x rest ih =>
    simp only [tableWf, Bool.and_eq_true, List.all_eq_true, decide_eq_true_eq, Bool.or_eq_true, bne_iff_ne, ne_eq,
      Bool.not_eq_true'] at h
    rcases List.mem_cons.1 he with rfl | he1
    · rcases List.mem_cons.1 he' with rfl | he1'
      · rfl
      · rcases (h.1 e' he1').2 with hn | hn
        · exact absurd ho hn
        · rw [hov _ _ hc hc'] at hn; cases hn
    · rcases List.mem_cons.1 he' with rfl | he1'
      · rcases (h.1 e he1).2 with hn | hn
        · exact absurd ho.symm hn
        · rw [hov _ _ hc' hc] at hn; cases hn
      · exact ih h.2 he1 he1'

/-- In a well-formed memory every entry is the route of the addresses it contains (20_memory.md R93). -/
theorem Memory.route_of_mem {m : Memory} (hwf : m.wf = true) {e : Entry} (he : e ∈ m.table) {a : Word}
    (hc : e.range.contains a = true) : m.route e.ownership a = some e := by
  cases hr : m.route e.ownership a with
  | none =>
    have := List.find?_eq_none.1 hr e he
    simp [hc] at this
  | some e' =>
    have hmem := List.mem_of_find?_eq_some hr
    have hp := List.find?_some hr
    simp only [Bool.and_eq_true, beq_iff_eq] at hp
    simp only [Memory.wf, Bool.and_eq_true] at hwf
    rw [tableWf_unique hwf.2 hmem he hp.1 hp.2 hc]

theorem Word.succ_toNat {a : Word} (h : a ≠ 0xFFFF#16) : (a + 1).toNat = a.toNat + 1 := by
  have hlt := a.isLt
  have hne : a.toNat ≠ 0xFFFF := fun e => h (BitVec.eq_of_toNat_eq (by simpa using e))
  rw [BitVec.toNat_add]
  simp
  omega

/-- The second byte of a pair in one entry of RAM is the next byte of the same RAM, writable with the first. -/
theorem Memory.pair_target {m : Memory} (hwf : m.wf = true) {d : Domain} {a : Word}
    (h : m.pairInOneEntry d a = true) :
    ∃ n r o, m.target d a = some (n, r, o) ∧ m.target d (a + 1) = some (n, r, o + 1) ∧ o + 1 < r.size := by
  obtain ⟨e, r, hr, hres, ht, hc, -, hne⟩ := Memory.target_of_pairInOneEntry h
  have hmem := List.mem_of_find?_eq_some hr
  have hp := List.find?_some hr
  simp only [Bool.and_eq_true, beq_iff_eq] at hp
  have hr1 : m.route d (a + 1) = some e := by
    have := Memory.route_of_mem hwf hmem hc
    rwa [hp.1] at this
  have hcov : m.covers d (a + 1) = true := by simp only [Memory.covers, hr1, Option.isSome]
  obtain ⟨e1, r1, h1, -, -, -, hres1, ht1, -, hlt⟩ := Memory.target_of_covers hwf hcov
  rw [hr1] at h1
  cases h1
  rw [hres] at hres1
  cases hres1
  have hs := Word.succ_toNat hne
  have hca := hp.2
  have hle : e.range.first.toNat ≤ a.toNat := by
    unfold AddressRange.contains at hca
    cases hty : e.range.type <;> simp only [hty, Bool.and_eq_true, decide_eq_true_eq] at hca <;> omega
  have ho : e.offset (a + 1) = e.offset a + 1 := by unfold Entry.offset; omega
  rw [ho] at ht1 hlt
  exact ⟨_, r, _, ht, ht1, hlt⟩

/-- Both bytes of a pair in one entry are RAM if the first is, and they are two places. -/
theorem Memory.pair_writable {m : Memory} (hwf : m.wf = true) {d : Domain} {a : Word}
    (h : m.pairInOneEntry d a = true) (hw : m.writable d a = true) :
    m.writable d (a + 1) = true ∧ m.locate d a ≠ m.locate d (a + 1) := by
  obtain ⟨n, r, o, ht, ht1, ho⟩ := Memory.pair_target hwf h
  unfold Memory.writable at hw
  simp only [ht, Bool.and_eq_true, beq_iff_eq, decide_eq_true_eq] at hw
  refine ⟨by simp only [Memory.writable, ht1, hw.1, ho, beq_self_eq_true, decide_true, Bool.and_self], ?_⟩
  simp only [Memory.locate, ht, ht1, ho, hw.2, Resource.effectiveOffset, hw.1, if_true]
  intro e
  cases e

theorem Memory.writable_writeByte {m m' : Memory} {d : Domain} {a : Word} {v : Byte}
    (h : m.writeByte d a v = .ok m') (d' : Domain) (a' : Word) : m'.writable d' a' = m.writable d' a' := by
  obtain ⟨n, r, o, ht, -, -, rfl⟩ := Memory.writeByte_ok h
  obtain ⟨e, -, -, hr, -⟩ := Memory.target_some ht
  unfold Memory.writable
  rw [Memory.target_set hr]
  cases hroute : m.route d' a' with
  | none => simp only [Memory.target, hroute]
  | some e' =>
    dsimp only
    by_cases he : n = e'.resource
    · subst he
      simp only [if_pos, Memory.target_of_route hroute hr, Resource.put_kind, Resource.put_size]
      rfl
    · simp only [if_neg he]

/-- A byte write keeps which pairs of bytes straddle. -/
theorem Memory.pairInOneEntry_writeByte {m m' : Memory} {d : Domain} {a : Word} {v : Byte}
    (h : m.writeByte d a v = .ok m') (d' : Domain) (a' : Word) :
    m'.pairInOneEntry d' a' = m.pairInOneEntry d' a' := by
  obtain ⟨n, r, o, ht, -, -, rfl⟩ := Memory.writeByte_ok h
  obtain ⟨e, -, -, hr, -⟩ := Memory.target_some ht
  have hlt : n < m.resources.length := by
    rcases Nat.lt_or_ge n m.resources.length with hl | hl
    · exact hl
    · rw [List.getElem?_eq_none hl] at hr; cases hr
  have hroute : ({ m with resources := m.resources.set n (r.put o v) } : Memory).route d' a' = m.route d' a' := rfl
  unfold Memory.pairInOneEntry
  rw [hroute]
  cases m.route d' a' with
  | none => rfl
  | some e' =>
    dsimp only
    by_cases he : n = e'.resource
    · subst he
      simp only [List.getElem?_set_self hlt, hr]
      rfl
    · simp only [List.getElem?_set_ne he]

/-- Two bytes written one after the other, in the terms of the statements. -/
theorem StoredBytes.of_writeBytes {s t : State} {x y : Word} {b c : Byte} {m m' : Memory}
    (hwf : s.mem.wf = true) (hx : s.mem.writeByte s.mode x b = .ok m) (hy : m.writeByte s.mode y c = .ok m')
    (ht : t.mem = m') : StoredBytes s t x b y c := by
  have key : ∀ d a', t.mem.peek d a' =
      if s.mem.locate d a' = s.mem.locate s.mode y then some c
      else if s.mem.locate d a' = s.mem.locate s.mode x then some b else s.mem.peek d a' := by
    intro d a'
    rw [ht, Memory.peek_writeByte (Memory.writeByte_wf hwf hx) hy, Memory.locate_writeByte hx,
      Memory.locate_writeByte hx, Memory.peek_writeByte hwf hx]
  refine ⟨fun d a' h => ?_, fun d a' h h' => ?_, fun d a' h h' => ?_, ?_⟩
  · rw [key, if_pos h]
  · rw [key, if_neg h', if_pos h]
  · rw [key, if_neg h', if_neg h]
  · rw [ht, Memory.writeByte_table hy, Memory.writeByte_table hx]

/-! ## The stack and the 16-bit store -/

theorem Word.sub_two_succ (a : Word) : a - 2 + 1 = a - 1 := by
  apply BitVec.eq_of_toNat_eq
  have := a.isLt
  simp [BitVec.toNat_sub, BitVec.toNat_add]
  omega

/-- Two writes to RAM bytes go on with both bytes stored. -/
theorem State.write_write {s : State} (hwf : s.mem.wf = true) (x y : Word) (b c : Byte) (k : State → Result)
    (hx : s.mem.writable s.mode x = true) (hy : s.mem.writable s.mode y = true) :
    ∃ m, m.wf = true ∧ (s.write x b fun s1 => s1.write y c k) = k { s with mem := m } ∧
      (∀ t : State, t.mem = m → StoredBytes s t x b y c) ∧
      ∀ d a, m.pairInOneEntry d a = s.mem.pairInOneEntry d a := by
  obtain ⟨m1, hm1, he1⟩ := State.write_writable b (fun s1 => s1.write y c k) hx
  have hy1 : ({ s with mem := m1 } : State).mem.writable s.mode y = true := by
    rw [Memory.writable_writeByte hm1]; exact hy
  obtain ⟨m2, hm2, he2⟩ := State.write_writable (s := { s with mem := m1 }) c k hy1
  refine ⟨m2, Memory.writeByte_wf (Memory.writeByte_wf hwf hm1) hm2, he1.trans he2,
    fun t ht => StoredBytes.of_writeBytes hwf hm1 hm2 ht, fun d a => ?_⟩
  rw [Memory.pairInOneEntry_writeByte hm2, Memory.pairInOneEntry_writeByte hm1]

/-- Both bytes of a pair in one entry can be stored if the lower is RAM. -/
theorem CanStoreWord.of_pair {s : State} {a : Word} (hwf : s.mem.wf = true)
    (hp : s.mem.pairInOneEntry s.mode a = true) (hw : s.mem.writable s.mode a = true) : CanStoreWord s a :=
  ⟨hwf, fun _ => hp, hw, (Memory.pair_writable hwf hp hw).1⟩

/-- A push that can be stored goes on with the two bytes stored and SP lowered by 2 (46_stack.md R410). -/
theorem State.push16_ok {s : State} (h : CanPush s) (v : Word) (k : State → Result) :
    ∃ m, m.wf = true ∧ s.push16 v k = k ({ s with mem := m }.setPair .sp (s.pair .sp - 2)) ∧
      (∀ t : State, t.mem = m → PushedWord s t v) ∧ ∀ d a, m.pairInOneEntry d a = s.mem.pairInOneEntry d a := by
  have hu := h.upper
  rw [Word.sub_two_succ] at hu
  obtain ⟨m, hm, he, hst, hp⟩ := State.write_write h.wf (s.pair .sp - 1) (s.pair .sp - 2) v.high v.low
    (fun s2 => k (s2.setPair .sp (s.pair .sp - 2))) hu h.lower
  exact ⟨m, hm, (State.checkStraddle_pass _ _ h.unstraddled).trans he, hst, hp⟩

/-- A pop of two readable bytes that pass the straddle check goes on with them and SP raised by 2
(46_stack.md R410). -/
theorem State.pop16_ok {s : State} {low high : Byte} (h : CanPop s high low) (k : Word → State → Result) :
    s.pop16 k = k (Word.ofBytes high low) (s.setPair .sp (s.pair .sp + 2)) := by
  unfold State.pop16
  rw [State.checkStraddle_pass _ _ h.unstraddled]
  simp only [State.read]
  rw [State.readIn_peek _ h.low, State.readIn_peek _ h.high]

/-- A 16-bit store that can be stored goes on with the two bytes stored. -/
theorem State.write16_ok {s : State} {a : Word} (h : CanStoreWord s a) (v : Word) (k : State → Result) :
    ∃ m, m.wf = true ∧ s.write16 a v k = k { s with mem := m } ∧ ∀ t : State, t.mem = m → StoredWord s t a v := by
  obtain ⟨m, hm, he, hst, -⟩ := State.write_write h.wf a (a + 1) v.low v.high k h.lower h.upper
  exact ⟨m, hm, (State.checkStraddle_pass _ _ h.unstraddled).trans he, hst⟩

/-- Where a checked pair of stores faults (20_memory.md R94, R95; 60_exceptions.md R476). -/
theorem State.two_stores_fault (s : State) (a x y : Word) (v w : Byte) (k : State → Result) :
    TwoStoresFault s a x v y (s.checkStraddle a .write <| s.write x v fun s1 => s1.write y w k) := by
  refine ⟨fun hb h => State.checkStraddle_unmapped _ _ hb h,
    fun hb hw hc hp => State.checkStraddle_straddle _ _ hb hw hc hp, fun hu hr => ?_, fun hb h => ?_,
    fun hb m hm => ⟨fun h => ?_, fun h => ?_⟩⟩
  · rw [State.checkStraddle_pass _ _ hu, State.write_inRom _ _ hr]
  · rw [State.checkStraddle_off _ _ hb, State.write_unmapped _ _ h]
  · have hc : m.covers s.mode y = false := by
      rw [← h]
      simp only [Memory.covers, Memory.route_table (Memory.writeByte_table hm)]
    rw [State.checkStraddle_off _ _ hb]
    simp only [State.write, hm, State.orRaise]
    exact State.write_unmapped (s := { s with mem := m }) w k hc
  · have hr : m.inRom s.mode y := by
      obtain ⟨n, r, o, ht, hk⟩ := h
      obtain ⟨n0, r0, o0, ht0, hk0, -, rfl⟩ := Memory.writeByte_ok hm
      obtain ⟨e0, -, -, hr0, -⟩ := Memory.target_some ht0
      obtain ⟨e, hroute, he, hr, ho⟩ := Memory.target_some ht
      refine ⟨n, r, o, ?_, hk⟩
      rw [Memory.target_set hr0, hroute]
      dsimp only
      have hne : n0 ≠ e.resource := by
        rintro rfl
        rw [he, hr] at hr0
        cases hr0
        exact hk hk0
      rw [if_neg hne, ht]
    rw [State.checkStraddle_off _ _ hb]
    simp only [State.write, hm, State.orRaise]
    exact State.write_inRom (s := { s with mem := m }) w k hr

/-- Where a push faults (20_memory.md R94, R95). -/
theorem State.push16_faults (s : State) (v : Word) (k : State → Result) : PushFaults s v (s.push16 v k) :=
  State.two_stores_fault s _ _ _ _ _ _

/-- Where a 16-bit store faults (20_memory.md R94, R95). -/
theorem State.write16_faults (s : State) (a v : Word) (k : State → Result) :
    WordStoreFaults s a v (s.write16 a v k) := State.two_stores_fault s _ _ _ _ _ _

/-- Where a pop faults (20_memory.md R93, R94). -/
theorem State.pop16_faults (s : State) (k : Word → State → Result) : PopFaults s (s.pop16 k) := by
  refine ⟨fun h => ?_, fun hb hw hc hp => State.checkStraddle_straddle _ _ hb hw hc hp, fun hb low hl h => ?_⟩
  · cases hb : s.params.straddleFault with
    | true => exact State.checkStraddle_unmapped _ _ hb h
    | false => exact (State.checkStraddle_off _ _ hb).trans (State.readIn_unmapped _ h)
  · refine (State.checkStraddle_off _ _ hb).trans ?_
    simp only [State.read]
    rw [State.readIn_peek _ hl, State.readIn_unmapped _ h]

/-- All a push that goes on can do. -/
theorem State.push16_next {s t : State} {v : Word} {k : State → Result} (h : s.push16 v k = .next t) :
    ∃ m m', s.mem.writeByte s.mode (s.pair .sp - 1) v.high = .ok m ∧
      m.writeByte s.mode (s.pair .sp - 2) v.low = .ok m' ∧
      k ({ s with mem := m' }.setPair .sp (s.pair .sp - 2)) = .next t := by
  obtain ⟨m, hm, h1⟩ := State.write_next (State.checkStraddle_next h)
  obtain ⟨m', hm', h2⟩ := State.write_next h1
  exact ⟨m, m', hm, hm', h2⟩

/-- All a pop that goes on can do. -/
theorem State.pop16_next {s t : State} {k : Word → State → Result} (h : s.pop16 k = .next t) :
    ∃ low high, s.mem.peek s.mode (s.pair .sp) = some low ∧
      s.mem.peek s.mode (s.pair .sp + 1) = some high ∧
      k (Word.ofBytes high low) (s.setPair .sp (s.pair .sp + 2)) = .next t := by
  obtain ⟨low, hl, h1⟩ := State.readIn_next (State.checkStraddle_next h)
  obtain ⟨high, hh, h2⟩ := State.readIn_next h1
  exact ⟨low, high, hl, hh, h2⟩

/-- All a 16-bit store that goes on can do. -/
theorem State.write16_next {s t : State} {a v : Word} {k : State → Result} (h : s.write16 a v k = .next t) :
    ∃ m m', s.mem.writeByte s.mode a v.low = .ok m ∧ m.writeByte s.mode (a + 1) v.high = .ok m' ∧
      k { s with mem := m' } = .next t := by
  obtain ⟨m, hm, h1⟩ := State.write_next (State.checkStraddle_next h)
  obtain ⟨m', hm', h2⟩ := State.write_next h1
  exact ⟨m, m', hm, hm', h2⟩

end Sys2Proof.Machine
end

