-- ==== Sys2Proof/Laws/Frames.lean ====
section
/-! SUPPORT. How the frame predicates of Sys2Proof/Safety.lean grow along the updates of the state, so that the
frame of an instruction is read off its meaning. -/

namespace Sys2Proof.Machine

variable {s t : State} {rs : List Reg8} {ws : List Reg16} {fs : List Flag}

theorem Frame.refl (s : State) (rs : List Reg8) (ws : List Reg16) (fs : List Flag) : Frame s s rs ws fs :=
  ⟨fun _ _ _ => rfl, fun _ _ _ => rfl, fun _ _ _ => rfl, fun _ => rfl, rfl, rfl, rfl, rfl, rfl⟩

/-- Only registers, flags, mode, the alternate bank, the fault state, the counter and the parameters matter to a frame. -/
theorem Frame.of_regs (h : Frame s t rs ws fs) {u : State} (hr : u.regs = t.regs) (ha : u.alt = t.alt)
    (hm : u.mode = t.mode) (hf : u.fault = t.fault) (hd : u.draws = t.draws)
    (hp : u.params = t.params) : Frame s u rs ws fs := by
  have reg : ∀ r, u.reg r = t.reg r := fun r => by rw [State.reg, State.reg, hr]
  have pair : ∀ w, u.pair w = t.pair w := fun w => by rw [State.pair, State.pair, hr]
  refine ⟨fun r h1 h2 => ?_, fun w h1 h2 => ?_, fun f h1 h2 => ?_, fun h1 => ?_, ?_, ?_, ?_, ?_, ?_⟩
  · rw [reg, h.registers r h1 h2]
  · rw [pair, h.words w h1 h2]
  · rw [State.flag, reg, hp]; exact h.flags f h1 h2
  · rw [reg, h.otherBitsOfF h1]
  · rw [ha, h.alternate]
  · rw [hm, h.mode]
  · rw [hf, h.faultState]
  · rw [hd, h.draws]
  · rw [hp, h.parameters]

/-- A frame may start from any state with the same registers. -/
theorem Frame.from_regs (h : Frame s t rs ws fs) {u : State} (hr : u.regs = s.regs) (ha : u.alt = s.alt)
    (hm : u.mode = s.mode) (hf : u.fault = s.fault) (hd : u.draws = s.draws)
    (hp : u.params = s.params) : Frame u t rs ws fs := by
  have reg : ∀ r, u.reg r = s.reg r := fun r => by rw [State.reg, State.reg, hr]
  have pair : ∀ w, u.pair w = s.pair w := fun w => by rw [State.pair, State.pair, hr]
  refine ⟨fun r h1 h2 => ?_, fun w h1 h2 => ?_, fun f h1 h2 => ?_, fun h1 => ?_, ?_, ?_, ?_, ?_, ?_⟩
  · rw [reg, h.registers r h1 h2]
  · rw [pair, h.words w h1 h2]
  · rw [State.flag, State.flag, reg, hp]; exact h.flags f h1 h2
  · rw [reg, h.otherBitsOfF h1]
  · rw [ha, h.alternate]
  · rw [hm, h.mode]
  · rw [hf, h.faultState]
  · rw [hd, h.draws]
  · rw [hp, h.parameters]

theorem Frame.setReg (h : Frame s t rs ws fs) {r : Reg8} (hr : r ∈ rs) (v : Byte) :
    Frame s (t.setReg r v) rs ws fs := by
  have word : ∀ w, isWordRegister w = true → (t.setReg r v).pair w = t.pair w := by
    intro w hw; cases w <;> first | (cases hw; done) | simp
  refine ⟨fun r' h1 h2 => ?_, fun w h1 h2 => ?_, fun f h1 h2 => ?_, fun h1 => ?_, h.alternate, h.mode,
    h.faultState, h.draws, h.parameters⟩
  · have hne : r' ≠ r := fun e => h2 (e ▸ hr)
    rw [State.reg_setReg_ne _ _ _ _ hne, h.registers r' h1 h2]
  · rw [word w h1, h.words w h1 h2]
  · have hne : r ≠ .f := fun e => h2 (e ▸ hr)
    rw [State.flag_setReg _ _ _ _ hne, h.flags f h1 h2]
  · have hne : Reg8.f ≠ r := fun e => h1 (e ▸ hr)
    rw [State.reg_setReg_ne _ _ _ _ hne, h.otherBitsOfF h1]

/-- Writing a pair touches its two halves, or the one 16-bit register. -/
theorem State.reg_setPair_ne (s : State) (rr : Reg16) (v : Word) (r : Reg8) (h : r ∉ pairHalves rr) :
    (s.setPair rr v).reg r = s.reg r := by
  cases rr <;> cases r <;> first | rfl | exact absurd (by simp [pairHalves]) h

theorem State.word_setPair_ne (s : State) (rr : Reg16) (v : Word) (w : Reg16) (hw : isWordRegister w = true)
    (h : w ≠ rr) : (s.setPair rr v).pair w = s.pair w := by
  cases w <;> first | (cases hw; done) | (cases rr <;> first | rfl | exact absurd rfl h)

theorem Frame.setPair (h : Frame s t rs ws fs) {rr : Reg16} (hh : ∀ r, r ∈ pairHalves rr → r ∈ rs)
    (hw : isWordRegister rr = true → rr ∈ ws) (v : Word) : Frame s (t.setPair rr v) rs ws fs := by
  have hf : .f ∉ rs → (t.setPair rr v).reg .f = t.reg .f := fun h1 =>
    State.reg_setPair_ne _ _ _ _ (fun e => h1 (hh _ e))
  refine ⟨fun r' h1 h2 => ?_, fun w h1 h2 => ?_, fun f h1 h2 => ?_, fun h1 => ?_, h.alternate, h.mode,
    h.faultState, h.draws, h.parameters⟩
  · rw [State.reg_setPair_ne _ _ _ _ (fun e => h2 (hh _ e)), h.registers r' h1 h2]
  · have hne : w ≠ rr := fun e => h2 (by rw [e]; exact hw (e ▸ h1))
    rw [State.word_setPair_ne _ _ _ _ h1 hne, h.words w h1 h2]
  · rw [State.flag, hf h2]; exact h.flags f h1 h2
  · rw [hf h1, h.otherBitsOfF h1]

theorem Frame.jump (h : Frame s t rs ws fs) (hw : .pc ∈ ws) (v : Word) : Frame s (t.jump v) rs ws fs :=
  h.setPair (fun r hr => by cases hr) (fun _ => hw) v

theorem Frame.writeFlag (h : Frame s t rs ws fs) {f : Flag} (hf : f ∈ fs) (b : Bool) :
    Frame s (t.writeFlag f b) rs ws fs := by
  have word : ∀ w, isWordRegister w = true → (t.writeFlag f b).pair w = t.pair w := by
    intro w hw; cases w <;> first | (cases hw; done) | simp
  refine ⟨fun r' h1 h2 => ?_, fun w h1 h2 => ?_, fun g h1 h2 => ?_, fun h1 => ?_, h.alternate, h.mode,
    h.faultState, h.draws, h.parameters⟩
  · rw [State.reg_writeFlag _ _ _ _ h1, h.registers r' h1 h2]
  · rw [word w h1, h.words w h1 h2]
  · have hne : g ≠ f := fun e => h1 (e ▸ hf)
    rw [State.flag_writeFlag, if_neg hne, h.flags g h1 h2]
  · rw [State.nonFlagBits_writeFlag, h.otherBitsOfF h1]

theorem Frame.writeFlags (h : Frame s t rs ws fs) (hz : .z ∈ fs) (hn : .n ∈ fs) (hh : .h ∈ fs) (hc : .cy ∈ fs)
    (z n h' cy : Bool) : Frame s (t.writeFlags z n h' cy) rs ws fs :=
  (((h.writeFlag hz z).writeFlag hn n).writeFlag hh h').writeFlag hc cy

theorem SameMemory.of_eq (h : t.mem = s.mem) : SameMemory s t := ⟨h, fun _ _ => by rw [h]⟩

theorem Quiet.of_frame (h : Frame s t rs ws fs) (hs : t.signals = s.signals) (hm : t.mem = s.mem) :
    Quiet s t rs ws fs := ⟨h, hs, SameMemory.of_eq hm⟩

end Sys2Proof.Machine
end

