-- ==== Sys2Proof/Laws/PerInstr.lean ====
section
/-! SUPPORT. A statement about every instruction as syntax, one lemma per constructor: the shape of its encoding. -/

namespace Sys2Proof.Laws.Encoding

/-- The encoding is an opcode byte, after a pre-opcode in the prefixed maps, and then as many operand bytes as the
instruction's addressing mode fetches at PC (30_encoding.md R130, R134; 40_control_unit.md R181). -/
def Statement (i : Instr) : Prop :=
  ∀ p : Config.Parameters, i.encodable p = true → ∃ first rest, encode p i = first :: rest ∧
    rest.length = (if isPreOpcode first then 1 else 0)
      + (Machine.addressingModeFormat (Machine.addressingMode p i)).bytesAtPC

/-- A GBX form with an encoding is `0xFC`, the opcode of `GBX_TABLE` and the operand bytes (30_encoding.md R147). -/
theorem gbx_shape {p : Config.Parameters} {i : Instr} {base : Byte} {operands : List Byte} {n : Nat}
    (he : encode p i = gbxBytes p base operands) (hn : operands.length = n) (hi : i.encodable p = true) :
    ∃ first rest, encode p i = first :: rest ∧ rest.length = (if isPreOpcode first then 1 else 0) + n := by
  simp only [Instr.encodable, Bool.and_eq_true, bne_iff_ne, ne_eq, he, gbxBytes] at hi ⊢
  cases ho : p.gbxOpcode? base with
  | none => simp [ho] at hi
  | some o => exact ⟨0xFC#8, o :: operands, rfl, by rw [if_pos (by decide), List.length_cons, hn, Nat.add_comm]⟩

theorem nop : Statement .nop := fun _ _ => ⟨_, _, rfl, rfl⟩

theorem ldRrNn (rr : Reg16) (nn : Word) : Statement (.ldRrNn rr nn) := by
  cases rr <;> exact fun _ _ => ⟨_, _, rfl, rfl⟩

theorem ldBcA : Statement .ldBcA := fun _ _ => ⟨_, _, rfl, rfl⟩

theorem ldDeA : Statement .ldDeA := fun _ _ => ⟨_, _, rfl, rfl⟩

theorem ldHliA : Statement .ldHliA := fun _ _ => ⟨_, _, rfl, rfl⟩

theorem ldHldA : Statement .ldHldA := fun _ _ => ⟨_, _, rfl, rfl⟩

theorem ldABc : Statement .ldABc := fun _ _ => ⟨_, _, rfl, rfl⟩

theorem ldADe : Statement .ldADe := fun _ _ => ⟨_, _, rfl, rfl⟩

theorem ldAHli : Statement .ldAHli := fun _ _ => ⟨_, _, rfl, rfl⟩

theorem ldAHld : Statement .ldAHld := fun _ _ => ⟨_, _, rfl, rfl⟩

theorem incRr (rr : Reg16) : Statement (.incRr rr) := by
  cases rr <;> exact fun _ _ => ⟨_, _, rfl, rfl⟩

theorem decRr (rr : Reg16) : Statement (.decRr rr) := by
  cases rr <;> exact fun _ _ => ⟨_, _, rfl, rfl⟩

theorem incR (r : Reg8) : Statement (.incR r) := by
  cases r <;> exact fun _ _ => ⟨_, _, rfl, rfl⟩

theorem incHl : Statement .incHl := fun _ _ => ⟨_, _, rfl, rfl⟩

theorem decR (r : Reg8) : Statement (.decR r) := by
  cases r <;> exact fun _ _ => ⟨_, _, rfl, rfl⟩

theorem decHl : Statement .decHl := fun _ _ => ⟨_, _, rfl, rfl⟩

theorem ldRN (r : Reg8) (n : Byte) : Statement (.ldRN r n) := by
  cases r <;> exact fun _ _ => ⟨_, _, rfl, rfl⟩

theorem ldHlN (n : Byte) : Statement (.ldHlN n) := fun _ _ => ⟨_, _, rfl, rfl⟩

theorem rlca : Statement .rlca := fun _ _ => ⟨_, _, rfl, rfl⟩

theorem rrca : Statement .rrca := fun _ _ => ⟨_, _, rfl, rfl⟩

theorem rla : Statement .rla := fun _ _ => ⟨_, _, rfl, rfl⟩

theorem rra : Statement .rra := fun _ _ => ⟨_, _, rfl, rfl⟩

theorem ldNnSp (nn : Word) : Statement (.ldNnSp nn) := fun _ _ => ⟨_, _, rfl, rfl⟩

theorem addHlRr (rr : Reg16) : Statement (.addHlRr rr) := by
  cases rr <;> exact fun _ _ => ⟨_, _, rfl, rfl⟩

theorem stop (x : Byte) : Statement (.stop x) := by
  intro p _
  refine ⟨_, _, rfl, ?_⟩
  unfold Machine.addressingMode
  cases hp : p.stopLength <;> rfl

theorem jr (e : Byte) : Statement (.jr e) := fun _ _ => ⟨_, _, rfl, rfl⟩

theorem jrCc (cc : Cond) (e : Byte) : Statement (.jrCc cc e) := by
  cases cc <;> exact fun _ _ => ⟨_, _, rfl, rfl⟩

theorem daa : Statement .daa := fun _ _ => ⟨_, _, rfl, rfl⟩

theorem cpl : Statement .cpl := fun _ _ => ⟨_, _, rfl, rfl⟩

theorem scf : Statement .scf := fun _ _ => ⟨_, _, rfl, rfl⟩

theorem ccf : Statement .ccf := fun _ _ => ⟨_, _, rfl, rfl⟩

theorem ldRR (r : Reg8) (r' : Reg8) : Statement (.ldRR r r') := by
  cases r <;> cases r' <;> exact fun _ _ => ⟨_, _, rfl, rfl⟩

theorem ldRHl (r : Reg8) : Statement (.ldRHl r) := by
  cases r <;> exact fun _ _ => ⟨_, _, rfl, rfl⟩

theorem ldHlR (r : Reg8) : Statement (.ldHlR r) := by
  cases r <;> exact fun _ _ => ⟨_, _, rfl, rfl⟩

theorem halt : Statement .halt := fun _ _ => ⟨_, _, rfl, rfl⟩

theorem addR (r : Reg8) : Statement (.addR r) := by
  cases r <;> exact fun _ _ => ⟨_, _, rfl, rfl⟩

theorem addHl : Statement .addHl := fun _ _ => ⟨_, _, rfl, rfl⟩

theorem addN (n : Byte) : Statement (.addN n) := fun _ _ => ⟨_, _, rfl, rfl⟩

theorem adcR (r : Reg8) : Statement (.adcR r) := by
  cases r <;> exact fun _ _ => ⟨_, _, rfl, rfl⟩

theorem adcHl : Statement .adcHl := fun _ _ => ⟨_, _, rfl, rfl⟩

theorem adcN (n : Byte) : Statement (.adcN n) := fun _ _ => ⟨_, _, rfl, rfl⟩

theorem subR (r : Reg8) : Statement (.subR r) := by
  cases r <;> exact fun _ _ => ⟨_, _, rfl, rfl⟩

theorem subHl : Statement .subHl := fun _ _ => ⟨_, _, rfl, rfl⟩

theorem subN (n : Byte) : Statement (.subN n) := fun _ _ => ⟨_, _, rfl, rfl⟩

theorem sbcR (r : Reg8) : Statement (.sbcR r) := by
  cases r <;> exact fun _ _ => ⟨_, _, rfl, rfl⟩

theorem sbcHl : Statement .sbcHl := fun _ _ => ⟨_, _, rfl, rfl⟩

theorem sbcN (n : Byte) : Statement (.sbcN n) := fun _ _ => ⟨_, _, rfl, rfl⟩

theorem andR (r : Reg8) : Statement (.andR r) := by
  cases r <;> exact fun _ _ => ⟨_, _, rfl, rfl⟩

theorem andHl : Statement .andHl := fun _ _ => ⟨_, _, rfl, rfl⟩

theorem andN (n : Byte) : Statement (.andN n) := fun _ _ => ⟨_, _, rfl, rfl⟩

theorem xorR (r : Reg8) : Statement (.xorR r) := by
  cases r <;> exact fun _ _ => ⟨_, _, rfl, rfl⟩

theorem xorHl : Statement .xorHl := fun _ _ => ⟨_, _, rfl, rfl⟩

theorem xorN (n : Byte) : Statement (.xorN n) := fun _ _ => ⟨_, _, rfl, rfl⟩

theorem orR (r : Reg8) : Statement (.orR r) := by
  cases r <;> exact fun _ _ => ⟨_, _, rfl, rfl⟩

theorem orHl : Statement .orHl := fun _ _ => ⟨_, _, rfl, rfl⟩

theorem orN (n : Byte) : Statement (.orN n) := fun _ _ => ⟨_, _, rfl, rfl⟩

theorem cpR (r : Reg8) : Statement (.cpR r) := by
  cases r <;> exact fun _ _ => ⟨_, _, rfl, rfl⟩

theorem cpHl : Statement .cpHl := fun _ _ => ⟨_, _, rfl, rfl⟩

theorem cpN (n : Byte) : Statement (.cpN n) := fun _ _ => ⟨_, _, rfl, rfl⟩

theorem retCc (cc : Cond) : Statement (.retCc cc) := by
  cases cc <;> exact fun _ _ => ⟨_, _, rfl, rfl⟩

theorem ret : Statement .ret := fun _ _ => ⟨_, _, rfl, rfl⟩

theorem reti : Statement .reti := fun _ _ => ⟨_, _, rfl, rfl⟩

theorem pop (qq : Reg16) : Statement (.pop qq) := by
  cases qq <;> exact fun _ _ => ⟨_, _, rfl, rfl⟩

theorem push (qq : Reg16) : Statement (.push qq) := by
  cases qq <;> exact fun _ _ => ⟨_, _, rfl, rfl⟩

theorem jpCc (cc : Cond) (nn : Word) : Statement (.jpCc cc nn) := by
  cases cc <;> exact fun _ _ => ⟨_, _, rfl, rfl⟩

theorem jp (nn : Word) : Statement (.jp nn) := fun _ _ => ⟨_, _, rfl, rfl⟩

theorem jpHl : Statement .jpHl := fun _ _ => ⟨_, _, rfl, rfl⟩

theorem callCc (cc : Cond) (nn : Word) : Statement (.callCc cc nn) := by
  cases cc <;> exact fun _ _ => ⟨_, _, rfl, rfl⟩

theorem call (nn : Word) : Statement (.call nn) := fun _ _ => ⟨_, _, rfl, rfl⟩

theorem rst (t : BitVec 3) : Statement (.rst t) := by
  intro _ _
  refine ⟨_, _, rfl, ?_⟩
  have h : ∀ t : BitVec 3, isPreOpcode (opByte (0xC7 + 8 * t.toNat)) = false := by decide
  rw [h]
  rfl

theorem ldhNA (n : Byte) : Statement (.ldhNA n) := fun _ _ => ⟨_, _, rfl, rfl⟩

theorem ldhAN (n : Byte) : Statement (.ldhAN n) := fun _ _ => ⟨_, _, rfl, rfl⟩

theorem ldCA : Statement .ldCA := fun _ _ => ⟨_, _, rfl, rfl⟩

theorem ldAC : Statement .ldAC := fun _ _ => ⟨_, _, rfl, rfl⟩

theorem addSpE (e : Byte) : Statement (.addSpE e) := fun _ _ => ⟨_, _, rfl, rfl⟩

theorem ldHlSpE (e : Byte) : Statement (.ldHlSpE e) := fun _ _ => ⟨_, _, rfl, rfl⟩

theorem ldSpHl : Statement .ldSpHl := fun _ _ => ⟨_, _, rfl, rfl⟩

theorem ldNnA (nn : Word) : Statement (.ldNnA nn) := fun _ _ => ⟨_, _, rfl, rfl⟩

theorem ldANn (nn : Word) : Statement (.ldANn nn) := fun _ _ => ⟨_, _, rfl, rfl⟩

theorem di : Statement .di := fun _ _ => ⟨_, _, rfl, rfl⟩

theorem ei : Statement .ei := fun _ _ => ⟨_, _, rfl, rfl⟩

theorem rlcR (r : Reg8) : Statement (.rlcR r) := fun _ _ => ⟨_, _, rfl, rfl⟩

theorem rlcHl : Statement .rlcHl := fun _ _ => ⟨_, _, rfl, rfl⟩

theorem rrcR (r : Reg8) : Statement (.rrcR r) := fun _ _ => ⟨_, _, rfl, rfl⟩

theorem rrcHl : Statement .rrcHl := fun _ _ => ⟨_, _, rfl, rfl⟩

theorem rlR (r : Reg8) : Statement (.rlR r) := fun _ _ => ⟨_, _, rfl, rfl⟩

theorem rlHl : Statement .rlHl := fun _ _ => ⟨_, _, rfl, rfl⟩

theorem rrR (r : Reg8) : Statement (.rrR r) := fun _ _ => ⟨_, _, rfl, rfl⟩

theorem rrHl : Statement .rrHl := fun _ _ => ⟨_, _, rfl, rfl⟩

theorem slaR (r : Reg8) : Statement (.slaR r) := fun _ _ => ⟨_, _, rfl, rfl⟩

theorem slaHl : Statement .slaHl := fun _ _ => ⟨_, _, rfl, rfl⟩

theorem sraR (r : Reg8) : Statement (.sraR r) := fun _ _ => ⟨_, _, rfl, rfl⟩

theorem sraHl : Statement .sraHl := fun _ _ => ⟨_, _, rfl, rfl⟩

theorem swapR (r : Reg8) : Statement (.swapR r) := fun _ _ => ⟨_, _, rfl, rfl⟩

theorem swapHl : Statement .swapHl := fun _ _ => ⟨_, _, rfl, rfl⟩

theorem srlR (r : Reg8) : Statement (.srlR r) := fun _ _ => ⟨_, _, rfl, rfl⟩

theorem srlHl : Statement .srlHl := fun _ _ => ⟨_, _, rfl, rfl⟩

theorem bitR (b : BitVec 3) (r : Reg8) : Statement (.bitR b r) := fun _ _ => ⟨_, _, rfl, rfl⟩

theorem bitHl (b : BitVec 3) : Statement (.bitHl b) := fun _ _ => ⟨_, _, rfl, rfl⟩

theorem resR (b : BitVec 3) (r : Reg8) : Statement (.resR b r) := fun _ _ => ⟨_, _, rfl, rfl⟩

theorem resHl (b : BitVec 3) : Statement (.resHl b) := fun _ _ => ⟨_, _, rfl, rfl⟩

theorem setR (b : BitVec 3) (r : Reg8) : Statement (.setR b r) := fun _ _ => ⟨_, _, rfl, rfl⟩

theorem setHl (b : BitVec 3) : Statement (.setHl b) := fun _ _ => ⟨_, _, rfl, rfl⟩

theorem jpu (nn : Word) : Statement (.jpu nn) := fun _ h => gbx_shape rfl rfl h

theorem lduRHl (r : Reg8) : Statement (.lduRHl r) := fun _ h => gbx_shape rfl rfl h

theorem lduABc : Statement .lduABc := fun _ h => gbx_shape rfl rfl h

theorem lduADe : Statement .lduADe := fun _ h => gbx_shape rfl rfl h

theorem lduAHli : Statement .lduAHli := fun _ h => gbx_shape rfl rfl h

theorem lduAHld : Statement .lduAHld := fun _ h => gbx_shape rfl rfl h

theorem lduANn (nn : Word) : Statement (.lduANn nn) := fun _ h => gbx_shape rfl rfl h

theorem ldhuAN (n : Byte) : Statement (.ldhuAN n) := fun _ h => gbx_shape rfl rfl h

theorem lduAC : Statement .lduAC := fun _ h => gbx_shape rfl rfl h

end Sys2Proof.Laws.Encoding
end

