-- ==== Sys2Proof/Laws/Step.lean ====
section
/-! SUPPORT. What an instruction and a step can do at most, said once: `exec_next` for the parts of the state outside
the registers, `step_next` for a step that answers a next state, and what the fetch leaves unchanged. -/

namespace Sys2Proof.Machine

/-! ## What an instruction can do to memory -/

/-- The memories one instruction can leave: the same, or one or two bytes written in domain `d`
(40_control_unit.md R182). -/
inductive MemoryEffect (m : Memory) (d : Domain) : Memory → Prop
  | none : MemoryEffect m d m
  | byte (a : Word) (v : Byte) (m1 : Memory) : m.writeByte d a v = .ok m1 → MemoryEffect m d m1
  | word (a : Word) (v : Byte) (a' : Word) (v' : Byte) (m1 m2 : Memory) :
      m.writeByte d a v = .ok m1 → m1.writeByte d a' v' = .ok m2 → MemoryEffect m d m2

theorem MemoryEffect.wf {m m' : Memory} {d : Domain} (h : MemoryEffect m d m') (hw : m.wf = true) : m'.wf = true := by
  cases h with
  | none => exact hw
  | byte _ _ _ h => exact Memory.writeByte_wf hw h
  | word _ _ _ _ _ _ h1 h2 => exact Memory.writeByte_wf (Memory.writeByte_wf hw h1) h2

/-- What `exec` leaves unchanged outside the registers and signals, and its effect on memory. -/
structure Effect (s t : State) : Prop where
  alternate : t.alt = s.alt
  mode : t.mode = s.mode
  faultState : t.fault = s.fault
  draws : t.draws = s.draws
  parameters : t.params = s.params
  memory : MemoryEffect s.mem s.mode t.mem

theorem State.callTo_next {s t : State} {v : Word} (h : s.callTo v = .next t) : Effect s t := by
  unfold State.callTo at h
  obtain ⟨m, m', hm, hm', h2⟩ := State.push16_next h
  have h := Host.Outcome.next.inj h2
  subst h
  exact ⟨rfl, rfl, rfl, rfl, rfl, .word _ _ _ _ _ _ hm hm'⟩

theorem State.returnThen_next {s t : State} {k : State → Result} (h : s.returnThen k = .next t) :
    ∃ v, k ((s.setPair .sp (s.pair .sp + 2)).jump v) = .next t := by
  unfold State.returnThen at h
  obtain ⟨m, m', hm, hm', h2⟩ := State.pop16_next h
  exact ⟨_, h2⟩

theorem State.storeAStep_next {s t : State} {d : Word} (h : s.storeAStep d = .next t) : Effect s t := by
  unfold State.storeAStep State.writeBack at h
  obtain ⟨m', hm', h2⟩ := State.write_next h
  have h := Host.Outcome.next.inj h2
  subst h
  exact ⟨rfl, rfl, rfl, rfl, rfl, .byte _ _ _ hm'⟩

/-- A conditional instruction did its work, or only set `IsExecutionAborted` (40_control_unit.md R183). -/
theorem State.conditionally_next {s t : State} {cc : Cond} {r : Result} (h : s.conditionally cc r = .next t) :
    (s.cond cc = true ∧ r = .next t) ∨ (s.cond cc = false ∧ t = s.setAborted true) := by
  unfold State.conditionally at h
  split at h
  · exact .inl ⟨‹_›, h⟩
  · rename_i hc
    cases h
    exact .inr ⟨by simpa using hc, rfl⟩

theorem Effect.of_aborted {s t : State} (h : t = s.setAborted true) : Effect s t := by
  subst h
  exact ⟨rfl, rfl, rfl, rfl, rfl, .none⟩

/-- Over all instructions: what `exec` can do to everything but registers and signals. -/
theorem exec_next {i : Instr} {s t : State} (h : exec i s = .next t) : Effect s t := by
  cases i
  case jrCc cc e =>
    rcases State.conditionally_next h with ⟨-, h⟩ | ⟨-, h⟩
    · cases h
      exact ⟨rfl, rfl, rfl, rfl, rfl, .none⟩
    · exact .of_aborted h
  case jpCc cc e =>
    rcases State.conditionally_next h with ⟨-, h⟩ | ⟨-, h⟩
    · cases h
      exact ⟨rfl, rfl, rfl, rfl, rfl, .none⟩
    · exact .of_aborted h
  case callCc cc e =>
    rcases State.conditionally_next h with ⟨-, h⟩ | ⟨-, h⟩
    · exact State.callTo_next h
    · exact .of_aborted h
  case retCc cc =>
    rcases State.conditionally_next h with ⟨-, h⟩ | ⟨-, h⟩
    · obtain ⟨v, h⟩ := State.returnThen_next h
      cases h
      exact ⟨rfl, rfl, rfl, rfl, rfl, .none⟩
    · exact .of_aborted h
  case call => exact State.callTo_next h
  case rst => exact State.callTo_next h
  case ldHliA => exact State.storeAStep_next h
  case ldHldA => exact State.storeAStep_next h
  case ret =>
    obtain ⟨v, h⟩ := State.returnThen_next h
    cases h
    exact ⟨rfl, rfl, rfl, rfl, rfl, .none⟩
  case reti =>
    simp only [exec, execReti] at h
    obtain ⟨v, h⟩ := State.returnThen_next h
    cases h
    exact ⟨rfl, rfl, rfl, rfl, rfl, .none⟩
  case pop =>
    simp only [exec, execPop] at h
    obtain ⟨m, m', hm, hm', h2⟩ := State.pop16_next h
    have h := Host.Outcome.next.inj h2
    subst h
    exact ⟨rfl, rfl, rfl, rfl, rfl, .none⟩
  all_goals first
    | (have h := Host.Outcome.next.inj h
       subst h
       exact ⟨rfl, rfl, rfl, rfl, rfl, .none⟩)
    | (obtain ⟨m, -, h1⟩ := State.readIn_next h
       first
        | (have h := Host.Outcome.next.inj h1
           subst h
           exact ⟨rfl, rfl, rfl, rfl, rfl, .none⟩)
        | (obtain ⟨m', hm', h2⟩ := State.write_next h1
           have h := Host.Outcome.next.inj h2
           subst h
           exact ⟨rfl, rfl, rfl, rfl, rfl, .byte _ _ _ hm'⟩))
    | (obtain ⟨m', hm', h2⟩ := State.write_next h
       have h := Host.Outcome.next.inj h2
       subst h
       exact ⟨rfl, rfl, rfl, rfl, rfl, .byte _ _ _ hm'⟩)
    | (obtain ⟨m, m', hm, hm', h2⟩ := State.write16_next h
       have h := Host.Outcome.next.inj h2
       subst h
       exact ⟨rfl, rfl, rfl, rfl, rfl, .word _ _ _ _ _ _ hm hm'⟩)
    | (obtain ⟨m, m', hm, hm', h2⟩ := State.push16_next h
       have h := Host.Outcome.next.inj h2
       subst h
       exact ⟨rfl, rfl, rfl, rfl, rfl, .word _ _ _ _ _ _ hm hm'⟩)

/-! ## The fetch -/

/-- What the fetch leaves unchanged: everything but registers (40_control_unit.md R172, R176). -/
structure FetchKeeps (s t : State) : Prop where
  alternate : t.alt = s.alt
  signals : t.signals = s.signals
  mode : t.mode = s.mode
  memory : t.mem = s.mem
  faultState : t.fault = s.fault
  draws : t.draws = s.draws
  parameters : t.params = s.params

theorem FetchKeeps.of_regs (s : State) (k : RegBank) : FetchKeeps s { s with regs := k } :=
  ⟨rfl, rfl, rfl, rfl, rfl, rfl, rfl⟩

theorem FetchKeeps.trans {s t u : State} (h : FetchKeeps s t) (h' : FetchKeeps t u) : FetchKeeps s u :=
  ⟨h'.alternate.trans h.alternate, h'.signals.trans h.signals, h'.mode.trans h.mode, h'.memory.trans h.memory,
    h'.faultState.trans h.faultState, h'.draws.trans h.draws,
    h'.parameters.trans h.parameters⟩

theorem State.fetchByte_ok {s s' : State} {b : Byte} (h : s.fetchByte = .ok (b, s')) :
    s.mem.readByte s.mode (s.pair .pc) .fetch = .ok b ∧ s' = s.setPair .pc (s.pair .pc + 1) := by
  unfold State.fetchByte at h
  split at h
  · cases h
  · cases h
    exact ⟨‹_›, rfl⟩

theorem State.fetchByte_keeps {s s' : State} {b : Byte} (h : s.fetchByte = .ok (b, s')) : FetchKeeps s s' := by
  rw [(State.fetchByte_ok h).2]
  exact .of_regs s _

/-- A readable byte at PC is fetched, and PC moves past it. -/
theorem State.fetchByte_peek {s : State} {b : Byte} (h : s.mem.peek s.mode (s.pair .pc) = some b) :
    s.fetchByte = .ok (b, s.setPair .pc (s.pair .pc + 1)) := by
  unfold State.fetchByte
  rw [Memory.readByte_of_peek .fetch h]

theorem State.fetchByte_unmapped {s : State} (h : s.mem.covers s.mode (s.pair .pc) = false) :
    s.fetchByte = .error (.unmapped (s.pair .pc) s.mode .fetch) := by
  unfold State.fetchByte
  rw [Memory.readByte_of_not_covers .fetch h]

theorem State.fetchOpcode_keeps {s s' : State} (h : s.fetchOpcode = .ok s') : FetchKeeps s s' := by
  unfold State.fetchOpcode at h
  split at h
  · cases h
  · rename_i b s1 h1
    split at h
    · split at h
      · cases h
      · rename_i o s2 h2
        cases h
        exact (State.fetchByte_keeps h1).trans
          ((FetchKeeps.of_regs s1 _).trans ((State.fetchByte_keeps h2).trans (.of_regs s2 _)))
    · cases h
      exact (State.fetchByte_keeps h1).trans (.of_regs s1 _)

theorem State.fetchOperands_keeps {s s' : State} {t : Template} {i : Instr}
    (h : s.fetchOperands t = .ok (i, s')) : FetchKeeps s s' := by
  unfold State.fetchOperands at h
  split at h
  · cases h
    exact .of_regs s _
  · split at h
    · cases h
    · rename_i h1
      cases h
      exact State.fetchByte_keeps h1
  · split at h
    · cases h
    · split at h
      · cases h
      · rename_i h1
        split at h
        · cases h
        · rename_i h2
          cases h
          exact (State.fetchByte_keeps h1).trans (State.fetchByte_keeps h2)

/-- The three phases of a fetch that succeeds. -/
theorem State.fetchInstr_ok {s s' : State} {i : Instr} (h : s.fetchInstr = .ok (i, s')) :
    ∃ s1 t, s.fetchOpcode = .ok s1 ∧ decodeOpcode s.params (s1.reg .pir) (s1.reg .ir) = .ok t ∧
      s1.fetchOperands t = .ok (i, s') := by
  unfold State.fetchInstr at h
  split at h
  · cases h
  · split at h
    · cases h
    · rename_i s1 h1 _ t h2
      exact ⟨s1, t, h1, (State.fetchOpcode_keeps h1).parameters ▸ h2, h⟩

theorem State.fetchInstr_keeps {s s' : State} {i : Instr} (h : s.fetchInstr = .ok (i, s')) : FetchKeeps s s' := by
  obtain ⟨s1, t, h1, -, h2⟩ := State.fetchInstr_ok h
  exact (State.fetchOpcode_keeps h1).trans (State.fetchOperands_keeps h2)

/-! ## The step -/

/-- A step that answers a next state: no fault was recorded, an instruction was fetched and executed, and the
post-cycle step followed (40_control_unit.md R178, R179). -/
theorem step_next {s t : State} (h : step s = .next t) :
    s.fault = none ∧ ∃ i s1 t1, s.beginCycle.fetchInstr = .ok (i, s1) ∧ exec i s1 = .next t1 ∧ t = t1.postCycle := by
  unfold step State.cycle at h
  split at h
  · cases h
  · rename_i hf
    unfold State.runCycle at h
    split at h
    · cases h
    · rename_i i s1 hi
      unfold finishCycle at h
      split at h
      · cases h
        exact ⟨hf, i, s1, _, hi, ‹_›, rfl⟩
      all_goals cases h

/-- Without a recorded fault the step is the fetched instruction's `exec`, finished. -/
theorem step_of_fetch {s s1 : State} {i : Instr} (hf : s.fault = none) (h : s.beginCycle.fetchInstr = .ok (i, s1)) :
    step s = finishCycle (s.pair .pc) (exec i s1) := by
  unfold step State.cycle
  rw [hf]
  simp only
  unfold State.runCycle
  rw [h]

/-- Without a recorded fault a fetch that fails is recorded. -/
theorem step_of_fetch_error {s : State} {c : FaultCause} (hf : s.fault = none)
    (h : s.beginCycle.fetchInstr = .error c) :
    step s = .fault (.recorded { cause := c, instruction := s.pair .pc } s.mem) := by
  unfold step State.cycle
  rw [hf]
  simp only
  unfold State.runCycle
  rw [h]

@[simp] theorem State.postCycle_regs (t : State) : t.postCycle.regs = t.regs := by
  unfold State.postCycle
  split <;> rfl

@[simp] theorem State.postCycle_mem (t : State) : t.postCycle.mem = t.mem := by
  unfold State.postCycle
  split <;> rfl

@[simp] theorem State.postCycle_fault (t : State) : t.postCycle.fault = t.fault := by
  unfold State.postCycle
  split <;> rfl

@[simp] theorem State.postCycle_params (t : State) : t.postCycle.params = t.params := by
  unfold State.postCycle
  split <;> rfl

end Sys2Proof.Machine
end

