-- ==== Sys2Proof/Tests/Slice0.lean ====
section
/-! SUPPORT. Tests. Every expected value is the spec's: the encodings of 30_encoding.md R140 to R143 and R147, and
the vectors of 95_test_vectors.md, named in each docstring, in its memory map M0. The witnesses at the end meet the
hypotheses of the statements of Sys2Proof/Certificates/Slice0/Obligations.lean. -/

namespace Sys2Proof.Tests

open Sys2Proof Sys2Proof.Machine

/-! ## Helpers -/

def blankRam (size : Nat) : Resource := { kind := .ram, size := size, cells := [] }

def entry (resource : Nat) (first last : Word) (type : RangeType) (own : Domain) : Entry :=
  { resource := resource, range := { first := first, last := last, type := type }, ownership := own }

/-- Map M0 of 95_test_vectors.md, with the User RAMs of its GBX vectors. -/
def mapM0 : Memory :=
  { resources :=
      [{ kind := .rom, size := 0x8000, cells := [] }, blankRam 0x2000, blankRam 0x100, blankRam 0x2000, blankRam 0x100]
    table :=
      [entry 0 0x0000 0x8000 .halfOpen .system, entry 1 0xC000 0xE000 .halfOpen .system,
        entry 3 0xC000 0xE000 .halfOpen .user, entry 2 0xFF00 0xFFFF .closed .system,
        entry 4 0xFF00 0xFFFF .closed .user] }

/-- Map M0 with code at PC, System mode. -/
def start (pc : Word) (code : List Byte) : State :=
  { State.reset with mem := mapM0.pokeAll .system pc code, regs := { State.reset.regs with pc := pc } }

/-- The same in User mode. -/
def startUser (pc : Word) (code : List Byte) : State :=
  { start pc [] with mem := mapM0.pokeAll .user pc code, mode := .user }

/-- A byte pre-loaded in a domain. -/
def withByte (d : Domain) (a : Word) (v : Byte) (s : State) : State := { s with mem := s.mem.poke d a v }

/-- The step goes on, to a state that passes the check. -/
def after (s : State) (check : State → Bool) : Bool :=
  match step s with
  | .next t => check t
  | .fault _ => false
  | .refused _ => false

/-- The step stops and records the cause with the instruction's address, memory as before. -/
def stops (s : State) (c : FaultCause) (instruction : Word) : Bool :=
  match step s with
  | .next _ => false
  | .fault f => f == .recorded { cause := c, instruction := instruction } s.mem
  | .refused _ => false

/-- The parameters other than the defaults. -/
def docGranularity : Config.Parameters := { Params.default with hostStepGranularity := .oneMore }
def shortStop : Config.Parameters := { Params.default with stopLength := .one }
def noStraddleFault : Config.Parameters := { Params.default with straddleFault := false }

/-- `FD 21` as `LD HL,nn`, and the GBX forms moved by one opcode. -/
def otherTables : Config.Parameters :=
  { Params.default with
    indexTable := [{ preOpcode := 0xFD, opcode := 0x21, base := 0x21 }]
    gbxTable := [{ opcode := 0xC4, base := 0xC3 }, { opcode := 0x7F, base := 0x7E }] }

/-- Z at bit 0, N at bit 1, H at bit 2, CY at bit 3. -/
def otherLayout : Config.Parameters :=
  { Params.default with flagLayout := { z := 0, n := 1, h := 2, cy := 3, distinct := by decide } }

/-- Z, N, H, CY. -/
def flags (s : State) : List Bool := [s.flag .z, s.flag .n, s.flag .h, s.flag .cy]

/-! ## WellFormed refuses each ill-formed term -/

theorem test_wf_pairs : (Instr.ldRrNn .af 0).wf = false ∧ (Instr.incRr .pc).wf = false ∧ (Instr.decRr .ix).wf = false ∧
    (Instr.addHlRr .af).wf = false ∧ (Instr.pop .sp).wf = false ∧ (Instr.push .iy).wf = false := by decide

theorem test_wf_loads : (Instr.ldRN .f 0).wf = false ∧ (Instr.ldRR .f .a).wf = false ∧ (Instr.ldRR .a .ir).wf = false ∧
    (Instr.ldRHl .pir).wf = false ∧ (Instr.ldHlR .f).wf = false ∧ (Instr.lduRHl .f).wf = false := by decide

theorem test_wf_arithmetic : (Instr.incR .f).wf = false ∧ (Instr.decR .ir).wf = false ∧ (Instr.addR .f).wf = false ∧
    (Instr.adcR .f).wf = false ∧ (Instr.subR .f).wf = false ∧ (Instr.sbcR .f).wf = false ∧ (Instr.andR .f).wf = false ∧
    (Instr.xorR .f).wf = false ∧ (Instr.orR .f).wf = false ∧ (Instr.cpR .f).wf = false := by decide

theorem test_wf_shifts : (Instr.rlcR .f).wf = false ∧ (Instr.rrcR .f).wf = false ∧ (Instr.rlR .f).wf = false ∧
    (Instr.rrR .f).wf = false ∧ (Instr.slaR .f).wf = false ∧ (Instr.sraR .f).wf = false ∧ (Instr.swapR .f).wf = false ∧
    (Instr.srlR .f).wf = false ∧ (Instr.bitR 0 .f).wf = false ∧ (Instr.resR 0 .f).wf = false ∧
    (Instr.setR 0 .pir).wf = false := by decide

/-! ## A word of every constructor decodes (30_encoding.md R140 to R143, R147) -/

/-- The bytes decode to the instruction and nothing is left. -/
def reads (bytes : List Byte) (i : Instr) : Bool :=
  match decode Params.default bytes with
  | .ok (j, rest) => j == i && rest == []
  | .error _ => false

theorem test_decode_system : reads [0x00] .nop = true ∧ reads [0x10, 0x00] (.stop 0) = true ∧ reads [0x76] .halt = true ∧
    reads [0xF3] .di = true ∧ reads [0xFB] .ei = true := by decide

theorem test_decode_loads : reads [0x41] (.ldRR .b .c) = true ∧ reads [0x26, 0xC0] (.ldRN .h 0xC0) = true ∧
    reads [0x5E] (.ldRHl .e) = true ∧ reads [0x75] (.ldHlR .l) = true ∧ reads [0x36, 0x99] (.ldHlN 0x99) = true ∧
    reads [0x0A] .ldABc = true ∧ reads [0x1A] .ldADe = true ∧ reads [0x02] .ldBcA = true ∧ reads [0x12] .ldDeA = true ∧
    reads [0xFA, 0x00, 0xC1] (.ldANn 0xC100) = true ∧ reads [0xEA, 0x00, 0xC1] (.ldNnA 0xC100) = true := by decide

theorem test_decode_more_loads : reads [0x2A] .ldAHli = true ∧ reads [0x3A] .ldAHld = true ∧ reads [0x22] .ldHliA = true ∧
    reads [0x32] .ldHldA = true ∧ reads [0x11, 0x34, 0x12] (.ldRrNn .de 0x1234) = true ∧ reads [0xF9] .ldSpHl = true ∧
    reads [0x08, 0x00, 0xC1] (.ldNnSp 0xC100) = true ∧ reads [0xF8, 0x02] (.ldHlSpE 2) = true ∧
    reads [0xE0, 0x80] (.ldhNA 0x80) = true ∧ reads [0xF0, 0xFF] (.ldhAN 0xFF) = true ∧ reads [0xE2] .ldCA = true ∧
    reads [0xF2] .ldAC = true := by decide

theorem test_decode_add_subtract : reads [0x80] (.addR .b) = true ∧ reads [0x86] .addHl = true ∧
    reads [0xC6, 0x01] (.addN 1) = true ∧ reads [0x8B] (.adcR .e) = true ∧ reads [0x8E] .adcHl = true ∧
    reads [0xCE, 0x00] (.adcN 0) = true ∧ reads [0x90] (.subR .b) = true ∧ reads [0x96] .subHl = true ∧
    reads [0xD6, 0x01] (.subN 1) = true ∧ reads [0x9C] (.sbcR .h) = true ∧ reads [0x9E] .sbcHl = true ∧
    reads [0xDE, 0xFF] (.sbcN 0xFF) = true ∧ reads [0xB8] (.cpR .b) = true ∧ reads [0xBE] .cpHl = true ∧
    reads [0xFE, 0x3C] (.cpN 0x3C) = true := by decide

theorem test_decode_arithmetic : reads [0x04] (.incR .b) = true ∧ reads [0x34] .incHl = true ∧ reads [0x2D] (.decR .l) = true ∧
    reads [0x35] .decHl = true ∧ reads [0x13] (.incRr .de) = true ∧ reads [0x3B] (.decRr .sp) = true ∧
    reads [0x29] (.addHlRr .hl) = true ∧ reads [0xE8, 0xFE] (.addSpE 0xFE) = true ∧ reads [0x27] .daa = true := by decide

theorem test_decode_logic : reads [0xA0] (.andR .b) = true ∧ reads [0xA6] .andHl = true ∧ reads [0xE6, 0xA5] (.andN 0xA5) = true ∧
    reads [0xAF] (.xorR .a) = true ∧ reads [0xAE] .xorHl = true ∧ reads [0xEE, 0xFF] (.xorN 0xFF) = true ∧
    reads [0xB1] (.orR .c) = true ∧ reads [0xB6] .orHl = true ∧ reads [0xF6, 0x00] (.orN 0) = true ∧
    reads [0x2F] .cpl = true ∧ reads [0x37] .scf = true ∧ reads [0x3F] .ccf = true := by decide

theorem test_decode_rotates : reads [0x07] .rlca = true ∧ reads [0x0F] .rrca = true ∧ reads [0x17] .rla = true ∧
    reads [0x1F] .rra = true ∧ reads [0xCB, 0x00] (.rlcR .b) = true ∧ reads [0xCB, 0x06] .rlcHl = true ∧
    reads [0xCB, 0x09] (.rrcR .c) = true ∧ reads [0xCB, 0x0E] .rrcHl = true ∧ reads [0xCB, 0x12] (.rlR .d) = true ∧
    reads [0xCB, 0x16] .rlHl = true ∧ reads [0xCB, 0x1B] (.rrR .e) = true ∧ reads [0xCB, 0x1E] .rrHl = true := by decide

theorem test_decode_shifts : reads [0xCB, 0x24] (.slaR .h) = true ∧ reads [0xCB, 0x26] .slaHl = true ∧
    reads [0xCB, 0x2D] (.sraR .l) = true ∧ reads [0xCB, 0x2E] .sraHl = true ∧ reads [0xCB, 0x37] (.swapR .a) = true ∧
    reads [0xCB, 0x36] .swapHl = true ∧ reads [0xCB, 0x38] (.srlR .b) = true ∧ reads [0xCB, 0x3E] .srlHl = true ∧
    reads [0xCB, 0x7F] (.bitR 7 .a) = true ∧ reads [0xCB, 0x5E] (.bitHl 3) = true ∧ reads [0xCB, 0xBF] (.resR 7 .a) = true ∧
    reads [0xCB, 0x9E] (.resHl 3) = true ∧ reads [0xCB, 0xC0] (.setR 0 .b) = true ∧
    reads [0xCB, 0xFE] (.setHl 7) = true := by decide

theorem test_decode_control : reads [0xC3, 0x50, 0x01] (.jp 0x0150) = true ∧ reads [0xDA, 0x00, 0x02] (.jpCc .c 0x0200) = true ∧
    reads [0xE9] .jpHl = true ∧ reads [0x18, 0xFE] (.jr 0xFE) = true ∧ reads [0x28, 0x0E] (.jrCc .z 0x0E) = true ∧
    reads [0xCD, 0x34, 0x12] (.call 0x1234) = true ∧ reads [0xD4, 0x34, 0x12] (.callCc .nc 0x1234) = true ∧
    reads [0xC9] .ret = true ∧ reads [0xC0] (.retCc .nz) = true ∧ reads [0xD9] .reti = true ∧
    reads [0xEF] (.rst 5) = true ∧ reads [0xE5] (.push .hl) = true ∧ reads [0xF1] (.pop .af) = true := by decide

theorem test_decode_privilege : reads [0xFC, 0xC3, 0x00, 0x40] (.jpu 0x4000) = true ∧ reads [0xFC, 0x7E] (.lduRHl .a) = true ∧
    reads [0xFC, 0x0A] .lduABc = true ∧ reads [0xFC, 0x1A] .lduADe = true ∧ reads [0xFC, 0x2A] .lduAHli = true ∧
    reads [0xFC, 0x3A] .lduAHld = true ∧ reads [0xFC, 0xFA, 0x00, 0xC0] (.lduANn 0xC000) = true ∧
    reads [0xFC, 0xF0, 0x80] (.ldhuAN 0x80) = true ∧ reads [0xFC, 0xF2] .lduAC = true := by decide

/-- The refusals by name (R145, R146, R147; D10, D11). -/
theorem test_decode_refusals : decodeOpcode Params.default 0xDD 0x21 = .error (.unmodelled 0xDD 0x21) ∧
    decodeOpcode Params.default 0xFC 0x76 = .error (.unmodelled 0xFC 0x76) ∧
    decodeOpcode Params.default 0x00 0xED = .error (.undecodable 0xED) ∧
    decode Params.default [0xCB] = .error .truncated ∧ decode Params.default [] = .error .truncated :=
  ⟨rfl, rfl, rfl, rfl, rfl⟩

/-- A table word with a pre-opcode, one without, and one shorter than its instruction (log 16). -/
theorem test_table_words : decodeTableWord 16 0xCB37 = some (.swapR .a) ∧ decodeTableWord 8 0x80 = some (.addR .b) ∧
    decodeTableWord 8 0xC3 = some (.jp 0) ∧ decodeTableWord 16 0xFCC3 = some (.jpu 0) := by decide

/-- A placed word is what the next step runs (log 15). -/
theorem test_place : after (State.reset.withFetchWord 16 0xCB37) (fun t =>
    t.reg .ir == 0x37 && t.reg .pir == 0xCB && t.pair .pc == 2) = true := by decide

/-! ## One step of every instruction (95_test_vectors.md) -/

/-- V-SY-01 (R430), NOP. -/
theorem test_nop : after (start 0x0100 [0x00]) (fun t =>
    t.pair .pc == 0x0101 && flags t == [false, false, false, false]) = true := by decide

/-- V-LS-22 (R376), LD BC,nn. -/
theorem test_ldRrNn : after (start 0x0100 [0x01, 0x34, 0x12]) (fun t =>
    t.pair .pc == 0x0103 && t.reg .b == 0x12 && t.reg .c == 0x34 && flags t == [false, false, false, false]) = true := by decide

/-- V-EX-06 (R94), LD BC,nn. -/
theorem test_ldRrNn_2 : stops (start 0x7FFE [0x01, 0x00]) (.straddle 0x7FFF .system) 0x7FFE = true := by decide

/-- V-LS-11 (R368), LD (BC),A. -/
theorem test_ldBcA : after (start 0x0100 [0x02] |>.setReg .a 0x11 |>.setPair .bc 0xC003) (fun t =>
    t.pair .pc == 0x0101 && flags t == [false, false, false, false] &&
    t.mem.peek .system 0xC003 == some 0x11) = true := by decide

/-- V-LS-12 (R369), LD (DE),A. -/
theorem test_ldDeA : after (start 0x0100 [0x12] |>.setReg .a 0x22 |>.setPair .de 0xC004) (fun t =>
    t.pair .pc == 0x0101 && flags t == [false, false, false, false] &&
    t.mem.peek .system 0xC004 == some 0x22) = true := by decide

/-- V-LS-19 (R374), LD (HL+),A. -/
theorem test_ldHliA : after (start 0x0100 [0x22] |>.setReg .a 0x9A |>.setPair .hl 0xC000) (fun t =>
    t.pair .pc == 0x0101 && t.reg .l == 0x01 && flags t == [false, false, false, false] &&
    t.mem.peek .system 0xC000 == some 0x9A) = true := by decide

/-- V-LS-20 (R375), LD (HL-),A. -/
theorem test_ldHldA : after (start 0x0100 [0x32] |>.setReg .a 0x9B |>.setPair .hl 0xC000) (fun t =>
    t.pair .pc == 0x0101 && t.reg .h == 0xBF && t.reg .l == 0xFF && flags t == [false, false, false, false] &&
    t.mem.peek .system 0xC000 == some 0x9B) = true := by decide

/-- V-LS-09 (R366), LD A,(BC). -/
theorem test_ldABc : after (start 0x0100 [0x0A]
      |>.setPair .bc 0xC001
      |> withByte .system 0xC001 0x05) (fun t =>
    t.pair .pc == 0x0101 && t.reg .a == 0x05 && flags t == [false, false, false, false]) = true := by decide

/-- V-LS-10 (R367), LD A,(DE). -/
theorem test_ldADe : after (start 0x0100 [0x1A]
      |>.setPair .de 0xC002
      |> withByte .system 0xC002 0x06) (fun t =>
    t.pair .pc == 0x0101 && t.reg .a == 0x06 && flags t == [false, false, false, false]) = true := by decide

/-- V-LS-17 (R372), LD A,(HL+). -/
theorem test_ldAHli : after (start 0x0100 [0x2A]
      |>.setPair .hl 0xFFFF
      |> withByte .system 0xFFFF 0x34) (fun t =>
    t.pair .pc == 0x0101 && t.reg .a == 0x34 && t.reg .h == 0x00 && t.reg .l == 0x00 &&
    flags t == [false, false, false, false]) = true := by decide

/-- V-LS-18 (R373), LD A,(HL-). -/
theorem test_ldAHld : after (start 0x0100 [0x3A]
      |>.setPair .hl 0xC001
      |> withByte .system 0xC001 0x56) (fun t =>
    t.pair .pc == 0x0101 && t.reg .a == 0x56 && t.reg .l == 0x00 && flags t == [false, false, false, false]) = true := by decide

/-- V-AR-28 (R229), INC DE. -/
theorem test_incRr : after (start 0x0100 [0x13]
      |>.setPair .de 0xFFFF
      |>.writeFlags true false false true) (fun t =>
    t.pair .pc == 0x0101 && t.reg .d == 0x00 && t.reg .e == 0x00 && flags t == [true, false, false, true]) = true := by decide

/-- V-AR-29 (R230), DEC SP. -/
theorem test_decRr : after (start 0x0100 [0x3B] |>.setPair .sp 0x0000) (fun t =>
    t.pair .pc == 0x0101 && t.pair .sp == 0xFFFF && flags t == [false, false, false, false]) = true := by decide

/-- V-AR-21 (R225), INC B. -/
theorem test_incR : after (start 0x0100 [0x04]
      |>.setReg .b 0xFF
      |>.writeFlags false false false true) (fun t =>
    t.pair .pc == 0x0101 && t.reg .b == 0x00 && flags t == [true, false, true, true]) = true := by decide

/-- V-AR-23 (R226), INC (HL). -/
theorem test_incHl : after (start 0x0100 [0x34]
      |>.setPair .hl 0xC000
      |> withByte .system 0xC000 0x7F) (fun t =>
    t.pair .pc == 0x0101 && flags t == [false, false, true, false] && t.mem.peek .system 0xC000 == some 0x80) = true := by decide

/-- V-AR-27 (R226), INC (HL). -/
theorem test_incHl_2 : stops (start 0x0100 [0x34] |>.setPair .hl 0x0200) (.readOnlyWrite 0x0200 .system) 0x0100 = true := by decide

/-- V-AR-25 (R227), DEC A. -/
theorem test_decR : after (start 0x0100 [0x3D]
      |>.setReg .a 0x00
      |>.writeFlags false false false true) (fun t =>
    t.pair .pc == 0x0101 && t.reg .a == 0xFF && flags t == [false, true, true, true]) = true := by decide

/-- V-AR-26 (R228), DEC (HL). -/
theorem test_decHl : after (start 0x0100 [0x35]
      |>.setPair .hl 0xC000
      |> withByte .system 0xC000 0x10) (fun t =>
    t.pair .pc == 0x0101 && flags t == [false, true, true, false] && t.mem.peek .system 0xC000 == some 0x0F) = true := by decide

/-- V-LS-03 (R362), LD H,n. -/
theorem test_ldRN : after (start 0x0100 [0x26, 0xC0]) (fun t =>
    t.pair .pc == 0x0102 && t.reg .h == 0xC0 && flags t == [false, false, false, false]) = true := by decide

/-- V-LS-08 (R365), LD (HL),n. -/
theorem test_ldHlN : after (start 0x0100 [0x36, 0x99] |>.setPair .hl 0xC000) (fun t =>
    t.pair .pc == 0x0102 && flags t == [false, false, false, false] &&
    t.mem.peek .system 0xC000 == some 0x99) = true := by decide

/-- V-BR-02 (R281), RLCA. -/
theorem test_rlca : after (start 0x0100 [0x07]
      |>.setReg .a 0x00
      |>.writeFlags true false false false) (fun t =>
    t.pair .pc == 0x0101 && flags t == [false, false, false, false]) = true := by decide

/-- V-BR-03 (R282), RRCA. -/
theorem test_rrca : after (start 0x0100 [0x0F] |>.setReg .a 0x3B) (fun t =>
    t.pair .pc == 0x0101 && t.reg .a == 0x9D && flags t == [false, false, false, true]) = true := by decide

/-- V-BR-04 (R283), RLA. -/
theorem test_rla : after (start 0x0100 [0x17]
      |>.setReg .a 0x95
      |>.writeFlags false false false true) (fun t =>
    t.pair .pc == 0x0101 && t.reg .a == 0x2B && flags t == [false, false, false, true]) = true := by decide

/-- V-BR-06 (R284), RRA. -/
theorem test_rra : after (start 0x0100 [0x1F]
      |>.setReg .a 0x01
      |>.writeFlags true false false false) (fun t =>
    t.pair .pc == 0x0101 && t.reg .a == 0x00 && flags t == [false, false, false, true]) = true := by decide

/-- V-LS-25 (R378), LD (nn),SP. -/
theorem test_ldNnSp : after (start 0x0100 [0x08, 0x00, 0xC1] |>.setPair .sp 0xFFF8) (fun t =>
    t.pair .pc == 0x0103 && flags t == [false, false, false, false] &&
    t.mem.peek .system 0xC100 == some 0xF8 && t.mem.peek .system 0xC101 == some 0xFF) = true := by decide

/-- V-LS-26 (R378), LD (nn),SP. -/
theorem test_ldNnSp_2 : stops (start 0x0100 [0x08, 0xFF, 0xDF] |>.setPair .sp 0xFFF8) (.straddle 0xDFFF .system) 0x0100 = true := by decide

/-- V-AR-31 (R231), ADD HL,BC. -/
theorem test_addHlRr : after (start 0x0100 [0x09]
      |>.setPair .hl 0x8A23
      |>.setPair .bc 0x0605
      |>.writeFlags true true false false) (fun t =>
    t.pair .pc == 0x0101 && t.reg .h == 0x90 && t.reg .l == 0x28 && flags t == [true, false, true, false]) = true := by decide

/-- V-SY-05 (R432), STOP. -/
theorem test_stop : after (start 0x0200 [0x10, 0xFF]) (fun t =>
    t.pair .pc == 0x0202 && flags t == [false, false, false, false] && t.signals.stopSignal == true) = true := by decide

/-- V-SY-08 (R432), STOP. -/
theorem test_stop_2 : stops (start 0x7FFF [0x10]) (.unmapped 0x8000 .system .fetch) 0x7FFF = true := by decide

/-- V-CF-10 (R324), JR e. -/
theorem test_jr : after (start 0xFFF0 [0x18, 0x7F]) (fun t =>
    t.pair .pc == 0x0071 && flags t == [false, false, false, false]) = true := by decide

/-- V-CF-11 (R325), JR Z,e. -/
theorem test_jrCc : after (start 0x0004 [0x28, 0x0E]) (fun t =>
    t.pair .pc == 0x0006 && flags t == [false, false, false, false] && t.signals.isExecutionAborted == true) = true := by decide

/-- V-CF-14 (R325), JR C,e. -/
theorem test_jrCc_2 : after (start 0x0100 [0x38, 0x80] |>.writeFlags false false false true) (fun t =>
    t.pair .pc == 0x0082 && flags t == [false, false, false, true]) = true := by decide

/-- V-AR-42 (R233), DAA. -/
theorem test_daa : after (start 0x0100 [0x27] |>.setReg .a 0x9A) (fun t =>
    t.pair .pc == 0x0101 && t.reg .a == 0x00 && flags t == [true, false, false, true]) = true := by decide

/-- V-AR-44 (R233), DAA. -/
theorem test_daa_2 : after (start 0x0100 [0x27]
      |>.setReg .a 0x4B
      |>.writeFlags false true true false) (fun t =>
    t.pair .pc == 0x0101 && t.reg .a == 0x45 && flags t == [false, true, false, false]) = true := by decide

/-- V-LG-10 (R270), CPL. -/
theorem test_cpl : after (start 0x0100 [0x2F]
      |>.setReg .a 0x35
      |>.writeFlags true false false true) (fun t =>
    t.pair .pc == 0x0101 && t.reg .a == 0xCA && flags t == [true, true, true, true]) = true := by decide

/-- V-LG-11 (R271), SCF. -/
theorem test_scf : after (start 0x0100 [0x37] |>.writeFlags true true true false) (fun t =>
    t.pair .pc == 0x0101 && flags t == [true, false, false, true]) = true := by decide

/-- V-LG-12 (R272), CCF. -/
theorem test_ccf : after (start 0x0100 [0x3F] |>.writeFlags false true true true) (fun t =>
    t.pair .pc == 0x0101 && flags t == [false, false, false, false]) = true := by decide

/-- V-LS-01 (R361), LD B,C. -/
theorem test_ldRR : after (start 0x0100 [0x41] |>.setReg .c 0x5A) (fun t =>
    t.pair .pc == 0x0101 && t.reg .b == 0x5A && flags t == [false, false, false, false]) = true := by decide

/-- V-LS-05 (R363), LD H,(HL). -/
theorem test_ldRHl : after (start 0x0100 [0x66]
      |>.setPair .hl 0xC000
      |> withByte .system 0xC000 0x99) (fun t =>
    t.pair .pc == 0x0101 && t.reg .h == 0x99 && flags t == [false, false, false, false]) = true := by decide

/-- V-LS-35 (R363), LD A,(HL). -/
theorem test_ldRHl_2 : stops (start 0x0100 [0x7E] |>.setPair .hl 0xE000) (.unmapped 0xE000 .system .read) 0x0100 = true := by decide

/-- V-LS-07 (R364), LD (HL),L. -/
theorem test_ldHlR : after (start 0x0100 [0x75] |>.setPair .hl 0xC012) (fun t =>
    t.pair .pc == 0x0101 && flags t == [false, false, false, false] &&
    t.mem.peek .system 0xC012 == some 0x12) = true := by decide

/-- V-EX-07 (R82), LD (HL),A. -/
theorem test_ldHlR_2 : stops (start 0x0100 [0x77] |>.setPair .hl 0x0000 |>.setReg .a 0x5A) (.readOnlyWrite 0x0000 .system) 0x0100 = true := by decide

/-- V-SY-02 (R431), HALT. -/
theorem test_halt : after (start 0x0150 [0x76]) (fun t =>
    t.pair .pc == 0x0151 && flags t == [false, false, false, false] && t.signals.haltSignal == true) = true := by decide

/-- V-AR-01 (R210), ADD A,B. -/
theorem test_addR : after (start 0x0100 [0x80] |>.setReg .a 0x3A |>.setReg .b 0xC6) (fun t =>
    t.pair .pc == 0x0101 && t.reg .a == 0x00 && flags t == [true, false, true, true]) = true := by decide

/-- V-AR-04 (R211), ADD A,(HL). -/
theorem test_addHl : after (start 0x0100 [0x86]
      |>.setReg .a 0x3C
      |>.setPair .hl 0xC000
      |> withByte .system 0xC000 0x12) (fun t =>
    t.pair .pc == 0x0101 && t.reg .a == 0x4E && flags t == [false, false, false, false]) = true := by decide

/-- V-AR-03 (R212), ADD A,n. -/
theorem test_addN : after (start 0x0100 [0xC6, 0x01] |>.setReg .a 0xFF) (fun t =>
    t.pair .pc == 0x0102 && t.reg .a == 0x00 && flags t == [true, false, true, true]) = true := by decide

/-- V-AR-06 (R213), ADC A,E. -/
theorem test_adcR : after (start 0x0100 [0x8B]
      |>.setReg .a 0xE1
      |>.setReg .e 0x0F
      |>.writeFlags false false false true) (fun t =>
    t.pair .pc == 0x0101 && t.reg .a == 0xF1 && flags t == [false, false, true, false]) = true := by decide

/-- V-AR-08 (R214), ADC A,(HL). -/
theorem test_adcHl : after (start 0x0100 [0x8E]
      |>.setReg .a 0x0E
      |>.setPair .hl 0xC000
      |>.writeFlags false false false true
      |> withByte .system 0xC000 0x01) (fun t =>
    t.pair .pc == 0x0101 && t.reg .a == 0x10 && flags t == [false, false, true, false]) = true := by decide

/-- V-AR-07 (R215), ADC A,n. -/
theorem test_adcN : after (start 0x0100 [0xCE, 0x00]
      |>.setReg .a 0xFF
      |>.writeFlags false false false true) (fun t =>
    t.pair .pc == 0x0102 && t.reg .a == 0x00 && flags t == [true, false, true, true]) = true := by decide

/-- V-AR-09 (R216), SUB B. -/
theorem test_subR : after (start 0x0100 [0x90] |>.setReg .a 0x3E |>.setReg .b 0x3E) (fun t =>
    t.pair .pc == 0x0101 && t.reg .a == 0x00 && flags t == [true, true, false, false]) = true := by decide

/-- V-AR-12 (R217), SUB (HL). -/
theorem test_subHl : after (start 0x0100 [0x96]
      |>.setReg .a 0x3E
      |>.setPair .hl 0xC000
      |> withByte .system 0xC000 0x40) (fun t =>
    t.pair .pc == 0x0101 && t.reg .a == 0xFE && flags t == [false, true, false, true]) = true := by decide

/-- V-AR-11 (R218), SUB n. -/
theorem test_subN : after (start 0x0100 [0xD6, 0x01] |>.setReg .a 0x00) (fun t =>
    t.pair .pc == 0x0102 && t.reg .a == 0xFF && flags t == [false, true, true, true]) = true := by decide

/-- V-AR-15 (R219), SBC A,H. -/
theorem test_sbcR : after (start 0x0100 [0x9C]
      |>.setReg .a 0x3B
      |>.setReg .h 0x2A
      |>.writeFlags false false false true) (fun t =>
    t.pair .pc == 0x0101 && t.reg .a == 0x10 && flags t == [false, true, false, false]) = true := by decide

/-- V-AR-17 (R220), SBC A,(HL). -/
theorem test_sbcHl : after (start 0x0100 [0x9E]
      |>.setReg .a 0x10
      |>.setPair .hl 0xC000
      |> withByte .system 0xC000 0x0F) (fun t =>
    t.pair .pc == 0x0101 && t.reg .a == 0x01 && flags t == [false, true, true, false]) = true := by decide

/-- V-AR-16 (R221), SBC A,n. -/
theorem test_sbcN : after (start 0x0100 [0xDE, 0xFF]
      |>.setReg .a 0x00
      |>.writeFlags false false false true) (fun t =>
    t.pair .pc == 0x0102 && flags t == [true, true, true, true]) = true := by decide

/-- V-LG-01 (R261), AND B. -/
theorem test_andR : after (start 0x0100 [0xA0]
      |>.setReg .a 0x5A
      |>.setReg .b 0x3F
      |>.writeFlags false true false true) (fun t =>
    t.pair .pc == 0x0101 && t.reg .a == 0x1A && flags t == [false, false, true, false]) = true := by decide

/-- V-LG-03 (R262), AND (HL). -/
theorem test_andHl : after (start 0x0100 [0xA6]
      |>.setReg .a 0xFF
      |>.setPair .hl 0xC000
      |> withByte .system 0xC000 0x81) (fun t =>
    t.pair .pc == 0x0101 && t.reg .a == 0x81 && flags t == [false, false, true, false]) = true := by decide

/-- V-LG-02 (R263), AND n. -/
theorem test_andN : after (start 0x0100 [0xE6, 0xA5] |>.setReg .a 0x5A) (fun t =>
    t.pair .pc == 0x0102 && t.reg .a == 0x00 && flags t == [true, false, true, false]) = true := by decide

/-- V-LG-04 (R264), XOR A. -/
theorem test_xorR : after (start 0x0100 [0xAF]
      |>.setReg .a 0x42
      |>.writeFlags false true true true) (fun t =>
    t.pair .pc == 0x0101 && t.reg .a == 0x00 && flags t == [true, false, false, false]) = true := by decide

/-- V-LG-05 (R265), XOR (HL). -/
theorem test_xorHl : after (start 0x0100 [0xAE]
      |>.setReg .a 0xFF
      |>.setPair .hl 0xC000
      |> withByte .system 0xC000 0x0F) (fun t =>
    t.pair .pc == 0x0101 && t.reg .a == 0xF0 && flags t == [false, false, false, false]) = true := by decide

/-- V-LG-06 (R266), XOR n. -/
theorem test_xorN : after (start 0x0100 [0xEE, 0xFF] |>.setReg .a 0x0F) (fun t =>
    t.pair .pc == 0x0102 && t.reg .a == 0xF0 && flags t == [false, false, false, false]) = true := by decide

/-- V-LG-07 (R267), OR C. -/
theorem test_orR : after (start 0x0100 [0xB1]
      |>.setReg .a 0x5A
      |>.setReg .c 0x00
      |>.writeFlags true false false true) (fun t =>
    t.pair .pc == 0x0101 && flags t == [false, false, false, false]) = true := by decide

/-- V-LG-09 (R268), OR (HL). -/
theorem test_orHl : after (start 0x0100 [0xB6]
      |>.setReg .a 0x01
      |>.setPair .hl 0xC000
      |> withByte .system 0xC000 0x80) (fun t =>
    t.pair .pc == 0x0101 && t.reg .a == 0x81 && flags t == [false, false, false, false]) = true := by decide

/-- V-LG-08 (R269), OR n. -/
theorem test_orN : after (start 0x0100 [0xF6, 0x00] |>.setReg .a 0x00) (fun t =>
    t.pair .pc == 0x0102 && flags t == [true, false, false, false]) = true := by decide

/-- V-AR-20 (R222), CP B. -/
theorem test_cpR : after (start 0x0100 [0xB8] |>.setReg .a 0x3C |>.setReg .b 0x2F) (fun t =>
    t.pair .pc == 0x0101 && flags t == [false, true, true, false]) = true := by decide

/-- V-AR-19 (R223), CP (HL). -/
theorem test_cpHl : after (start 0x0100 [0xBE]
      |>.setReg .a 0x3C
      |>.setPair .hl 0xC000
      |> withByte .system 0xC000 0x40) (fun t =>
    t.pair .pc == 0x0101 && flags t == [false, true, false, true]) = true := by decide

/-- V-AR-18 (R224), CP n. -/
theorem test_cpN : after (start 0x0100 [0xFE, 0x3C] |>.setReg .a 0x3C) (fun t =>
    t.pair .pc == 0x0102 && flags t == [true, true, false, false]) = true := by decide

/-- V-CF-22 (R329), RET NZ. -/
theorem test_retCc : after (start 0x0100 [0xC0]
      |>.setPair .sp 0xCFFE
      |>.writeFlags true false false false
      |> withByte .system 0xCFFE 0x03
      |> withByte .system 0xCFFF 0x01) (fun t =>
    t.pair .pc == 0x0101 && flags t == [true, false, false, false] && t.signals.isExecutionAborted == true) = true := by decide

/-- V-CF-23 (R329), RET C. -/
theorem test_retCc_2 : after (start 0x0100 [0xD8]
      |>.setPair .sp 0xCFFE
      |>.writeFlags false false false true
      |> withByte .system 0xCFFE 0x03
      |> withByte .system 0xCFFF 0x01) (fun t =>
    t.pair .pc == 0x0103 && t.pair .sp == 0xD000 && flags t == [false, false, false, true]) = true := by decide

/-- V-CF-21 (R328), RET. -/
theorem test_ret : after (start 0x0100 [0xC9]
      |>.setPair .sp 0xCFFE
      |> withByte .system 0xCFFE 0x03
      |> withByte .system 0xCFFF 0x01) (fun t =>
    t.pair .pc == 0x0103 && t.pair .sp == 0xD000 && flags t == [false, false, false, false]) = true := by decide

/-- V-CF-24 (R328), RET. -/
theorem test_ret_2 : stops (start 0x0100 [0xC9] |>.setPair .sp 0xFFFF) (.straddle 0xFFFF .system) 0x0100 = true := by decide

/-- V-CF-25 (R330), RETI. -/
theorem test_reti : after (start 0x0100 [0xD9]
      |>.setPair .sp 0xCFFE
      |> withByte .system 0xCFFE 0x03
      |> withByte .system 0xCFFF 0x01
      |>.setInterruptSignals false true) (fun t =>
    t.pair .pc == 0x0103 && t.pair .sp == 0xD000 && flags t == [false, false, false, false] &&
    t.signals.interruptMasterEnable == true && t.signals.clearInterruptStatusSignal == false) = true := by decide

/-- V-ST-05 (R412), POP AF. -/
theorem test_pop : after (start 0x0100 [0xF1]
      |>.setPair .sp 0xCFFE
      |>.writeFlags true true true true
      |> withByte .system 0xCFFE 0xF0
      |> withByte .system 0xCFFF 0x00) (fun t =>
    t.pair .pc == 0x0101 && t.pair .sp == 0xD000 && t.reg .f == 0xF0) = true := by decide

/-- V-ST-11 (R412), POP HL. -/
theorem test_pop_2 : stops (start 0x0100 [0xE1] |>.setPair .sp 0xDFFF) (.straddle 0xDFFF .system) 0x0100 = true := by decide

/-- V-ST-03 (R411), PUSH AF. -/
theorem test_push : after (start 0x0100 [0xF5]
      |>.setPair .sp 0xD000
      |>.setReg .a 0x12
      |>.setReg .f 0xF5) (fun t =>
    t.pair .pc == 0x0101 && t.pair .sp == 0xCFFE && t.mem.peek .system 0xCFFE == some 0xF5 &&
    t.mem.peek .system 0xCFFF == some 0x12) = true := by decide

/-- V-ST-07 (R411), PUSH HL. -/
theorem test_push_2 : after (start 0x0100 [0xE5] |>.setPair .sp 0x0000 |>.setPair .hl 0xBEEF) (fun t =>
    t.pair .pc == 0x0101 && t.pair .sp == 0xFFFE && flags t == [false, false, false, false] &&
    t.mem.peek .system 0xFFFE == some 0xEF && t.mem.peek .system 0xFFFF == some 0xBE) = true := by decide

/-- V-CF-03 (R322), JP NZ,nn. -/
theorem test_jpCc : after (start 0x0100 [0xC2, 0x00, 0x02] |>.writeFlags true false false false) (fun t =>
    t.pair .pc == 0x0103 && flags t == [true, false, false, false] && t.signals.isExecutionAborted == true) = true := by decide

/-- V-CF-04 (R322), JP C,nn. -/
theorem test_jpCc_2 : after (start 0x0100 [0xDA, 0x00, 0x02] |>.writeFlags false false false true) (fun t =>
    t.pair .pc == 0x0200 && flags t == [false, false, false, true]) = true := by decide

/-- V-CF-01 (R321), JP nn. -/
theorem test_jp : after (start 0x0100 [0xC3, 0x50, 0x01]) (fun t =>
    t.pair .pc == 0x0150 && flags t == [false, false, false, false]) = true := by decide

/-- V-CF-06 (R323), JP HL. -/
theorem test_jpHl : after (start 0x0100 [0xE9] |>.setPair .hl 0x4000) (fun t =>
    t.pair .pc == 0x4000 && flags t == [false, false, false, false]) = true := by decide

/-- V-CF-17 (R327), CALL NC,nn. -/
theorem test_callCc : after (start 0x0100 [0xD4, 0x34, 0x12] |>.setPair .sp 0xD000) (fun t =>
    t.pair .pc == 0x1234 && t.pair .sp == 0xCFFE && flags t == [false, false, false, false] &&
    t.mem.peek .system 0xCFFE == some 0x03 && t.mem.peek .system 0xCFFF == some 0x01) = true := by decide

/-- V-CF-20 (R327), CALL C,nn. -/
theorem test_callCc_2 : after (start 0x0100 [0xDC, 0x34, 0x12] |>.setPair .sp 0xC001) (fun t =>
    t.pair .pc == 0x0103 && flags t == [false, false, false, false] && t.signals.isExecutionAborted == true) = true := by decide

/-- V-CF-15 (R326), CALL nn. -/
theorem test_call : after (start 0x0100 [0xCD, 0x34, 0x12] |>.setPair .sp 0xD000) (fun t =>
    t.pair .pc == 0x1234 && t.pair .sp == 0xCFFE && flags t == [false, false, false, false] &&
    t.mem.peek .system 0xCFFE == some 0x03 && t.mem.peek .system 0xCFFF == some 0x01) = true := by decide

/-- V-CF-18 (R326), CALL nn. -/
theorem test_call_2 : stops (start 0x0100 [0xCD, 0x34, 0x12] |>.setPair .sp 0xC001) (.unmapped 0xBFFF .system .write) 0x0100 = true := by decide

/-- V-CF-26 (R331), RST 0x28. -/
theorem test_rst : after (start 0x0200 [0xEF] |>.setPair .sp 0xD000) (fun t =>
    t.pair .pc == 0x0028 && t.pair .sp == 0xCFFE && flags t == [false, false, false, false] &&
    t.mem.peek .system 0xCFFE == some 0x01 && t.mem.peek .system 0xCFFF == some 0x02) = true := by decide

/-- V-LS-31 (R380), LDH (n),A. -/
theorem test_ldhNA : after (start 0x0100 [0xE0, 0x80] |>.setReg .a 0x42) (fun t =>
    t.pair .pc == 0x0102 && flags t == [false, false, false, false] &&
    t.mem.peek .system 0xFF80 == some 0x42) = true := by decide

/-- V-LS-32 (R381), LDH A,(n). -/
theorem test_ldhAN : after (start 0x0100 [0xF0, 0xFF] |> withByte .system 0xFFFF 0x0A) (fun t =>
    t.pair .pc == 0x0102 && t.reg .a == 0x0A && flags t == [false, false, false, false]) = true := by decide

/-- V-LS-33 (R382), LD (C),A. -/
theorem test_ldCA : after (start 0x0100 [0xE2] |>.setReg .a 0x43 |>.setReg .c 0x81) (fun t =>
    t.pair .pc == 0x0101 && flags t == [false, false, false, false] &&
    t.mem.peek .system 0xFF81 == some 0x43) = true := by decide

/-- V-LS-34 (R383), LD A,(C). -/
theorem test_ldAC : after (start 0x0100 [0xF2]
      |>.setReg .c 0x81
      |> withByte .system 0xFF81 0x44) (fun t =>
    t.pair .pc == 0x0101 && t.reg .a == 0x44 && flags t == [false, false, false, false]) = true := by decide

/-- V-AR-37 (R232), ADD SP,e. -/
theorem test_addSpE : after (start 0x0100 [0xE8, 0xFE] |>.setPair .sp 0xD000) (fun t =>
    t.pair .pc == 0x0102 && t.pair .sp == 0xCFFE && flags t == [false, false, false, true]) = true := by decide

/-- V-AR-39 (R232), ADD SP,e. -/
theorem test_addSpE_2 : after (start 0x0100 [0xE8, 0x01] |>.setPair .sp 0x0FFF) (fun t =>
    t.pair .pc == 0x0102 && t.pair .sp == 0x1000 && flags t == [false, false, true, false]) = true := by decide

/-- V-LS-28 (R379), LD HL,SP+e. -/
theorem test_ldHlSpE : after (start 0x0100 [0xF8, 0xFF] |>.setPair .sp 0x0001) (fun t =>
    t.pair .pc == 0x0102 && flags t == [false, false, true, true]) = true := by decide

/-- V-LS-24 (R377), LD SP,HL. -/
theorem test_ldSpHl : after (start 0x0100 [0xF9] |>.setPair .hl 0xC100) (fun t =>
    t.pair .pc == 0x0101 && t.pair .sp == 0xC100 && flags t == [false, false, false, false]) = true := by decide

/-- V-LS-14 (R371), LD (nn),A. -/
theorem test_ldNnA : after (start 0x0100 [0xEA, 0x00, 0xC0] |>.setReg .a 0x37) (fun t =>
    t.pair .pc == 0x0103 && flags t == [false, false, false, false] &&
    t.mem.peek .system 0xC000 == some 0x37) = true := by decide

/-- V-LS-13 (R370), LD A,(nn). -/
theorem test_ldANn : after (start 0x0100 [0xFA, 0x00, 0xC0] |> withByte .system 0xC000 0x77) (fun t =>
    t.pair .pc == 0x0103 && t.reg .a == 0x77 && flags t == [false, false, false, false]) = true := by decide

/-- V-SY-06 (R433), DI. -/
theorem test_di : after (start 0x0100 [0xF3] |>.setInterruptSignals true false) (fun t =>
    t.pair .pc == 0x0101 && flags t == [false, false, false, false] &&
    t.signals.interruptMasterEnable == false && t.signals.clearInterruptStatusSignal == true) = true := by decide

/-- V-SY-07 (R434), EI. -/
theorem test_ei : after (start 0x0100 [0xFB] |>.setInterruptSignals false true) (fun t =>
    t.pair .pc == 0x0101 && flags t == [false, false, false, false] &&
    t.signals.interruptMasterEnable == true && t.signals.clearInterruptStatusSignal == false) = true := by decide

/-- V-BR-07 (R285), RLC B. -/
theorem test_rlcR : after (start 0x0100 [0xCB, 0x00] |>.setReg .b 0x80) (fun t =>
    t.pair .pc == 0x0102 && t.reg .b == 0x01 && flags t == [false, false, false, true]) = true := by decide

/-- V-BR-08 (R286), RLC (HL). -/
theorem test_rlcHl : after (start 0x0100 [0xCB, 0x06]
      |>.setPair .hl 0xC000
      |>.writeFlags false false false true
      |> withByte .system 0xC000 0x00) (fun t =>
    t.pair .pc == 0x0102 && flags t == [true, false, false, false]) = true := by decide

/-- V-BR-09 (R287), RRC C. -/
theorem test_rrcR : after (start 0x0100 [0xCB, 0x09] |>.setReg .c 0x01) (fun t =>
    t.pair .pc == 0x0102 && t.reg .c == 0x80 && flags t == [false, false, false, true]) = true := by decide

/-- V-BR-10 (R288), RRC (HL). -/
theorem test_rrcHl : after (start 0x0100 [0xCB, 0x0E]
      |>.setPair .hl 0xC000
      |> withByte .system 0xC000 0x02) (fun t =>
    t.pair .pc == 0x0102 && flags t == [false, false, false, false] &&
    t.mem.peek .system 0xC000 == some 0x01) = true := by decide

/-- V-BR-11 (R289), RL D. -/
theorem test_rlR : after (start 0x0100 [0xCB, 0x12] |>.setReg .d 0x80) (fun t =>
    t.pair .pc == 0x0102 && t.reg .d == 0x00 && flags t == [true, false, false, true]) = true := by decide

/-- V-BR-12 (R290), RL (HL). -/
theorem test_rlHl : after (start 0x0100 [0xCB, 0x16]
      |>.setPair .hl 0xC000
      |>.writeFlags false false false true
      |> withByte .system 0xC000 0x11) (fun t =>
    t.pair .pc == 0x0102 && flags t == [false, false, false, false] &&
    t.mem.peek .system 0xC000 == some 0x23) = true := by decide

/-- V-BR-13 (R291), RR E. -/
theorem test_rrR : after (start 0x0100 [0xCB, 0x1B] |>.setReg .e 0x01) (fun t =>
    t.pair .pc == 0x0102 && t.reg .e == 0x00 && flags t == [true, false, false, true]) = true := by decide

/-- V-BR-14 (R292), RR (HL). -/
theorem test_rrHl : after (start 0x0100 [0xCB, 0x1E]
      |>.setPair .hl 0xC000
      |>.writeFlags false false false true
      |> withByte .system 0xC000 0x8A) (fun t =>
    t.pair .pc == 0x0102 && flags t == [false, false, false, false] &&
    t.mem.peek .system 0xC000 == some 0xC5) = true := by decide

/-- V-BR-15 (R293), SLA H. -/
theorem test_slaR : after (start 0x0100 [0xCB, 0x24] |>.setReg .h 0xFF) (fun t =>
    t.pair .pc == 0x0102 && t.reg .h == 0xFE && flags t == [false, false, false, true]) = true := by decide

/-- V-BR-16 (R294), SLA (HL). -/
theorem test_slaHl : after (start 0x0100 [0xCB, 0x26]
      |>.setPair .hl 0xC000
      |> withByte .system 0xC000 0x80) (fun t =>
    t.pair .pc == 0x0102 && flags t == [true, false, false, true] && t.mem.peek .system 0xC000 == some 0x00) = true := by decide

/-- V-BR-17 (R295), SRA L. -/
theorem test_sraR : after (start 0x0100 [0xCB, 0x2D] |>.setReg .l 0x8A) (fun t =>
    t.pair .pc == 0x0102 && t.reg .l == 0xC5 && flags t == [false, false, false, false]) = true := by decide

/-- V-BR-19 (R296), SRA (HL). -/
theorem test_sraHl : after (start 0x0100 [0xCB, 0x2E]
      |>.setPair .hl 0xC000
      |> withByte .system 0xC000 0xFF) (fun t =>
    t.pair .pc == 0x0102 && flags t == [false, false, false, true]) = true := by decide

/-- V-BR-20 (R297), SWAP A. -/
theorem test_swapR : after (start 0x0100 [0xCB, 0x37]
      |>.setReg .a 0xF0
      |>.writeFlags false true true true) (fun t =>
    t.pair .pc == 0x0102 && t.reg .a == 0x0F && flags t == [false, false, false, false]) = true := by decide

/-- V-BR-21 (R298), SWAP (HL). -/
theorem test_swapHl : after (start 0x0100 [0xCB, 0x36]
      |>.setPair .hl 0xC000
      |> withByte .system 0xC000 0x00) (fun t =>
    t.pair .pc == 0x0102 && flags t == [true, false, false, false]) = true := by decide

/-- V-BR-23 (R299), SRL B. -/
theorem test_srlR : after (start 0x0100 [0xCB, 0x38] |>.setReg .b 0xFF) (fun t =>
    t.pair .pc == 0x0102 && t.reg .b == 0x7F && flags t == [false, false, false, true]) = true := by decide

/-- V-BR-24 (R300), SRL (HL). -/
theorem test_srlHl : after (start 0x0100 [0xCB, 0x3E]
      |>.setPair .hl 0xC000
      |> withByte .system 0xC000 0x80) (fun t =>
    t.pair .pc == 0x0102 && flags t == [false, false, false, false] &&
    t.mem.peek .system 0xC000 == some 0x40) = true := by decide

/-- V-BR-25 (R301), BIT 7,A. -/
theorem test_bitR : after (start 0x0100 [0xCB, 0x7F]
      |>.setReg .a 0x80
      |>.writeFlags false true false true) (fun t =>
    t.pair .pc == 0x0102 && flags t == [false, false, true, true]) = true := by decide

/-- V-BR-27 (R302), BIT 3,(HL). -/
theorem test_bitHl : after (start 0x0100 [0xCB, 0x5E]
      |>.setPair .hl 0xC000
      |>.writeFlags true false false true
      |> withByte .system 0xC000 0x08) (fun t =>
    t.pair .pc == 0x0102 && flags t == [false, false, true, true]) = true := by decide

/-- V-BR-28 (R303), RES 7,A. -/
theorem test_resR : after (start 0x0100 [0xCB, 0xBF]
      |>.setReg .a 0xFF
      |>.writeFlags true false false true) (fun t =>
    t.pair .pc == 0x0102 && t.reg .a == 0x7F && flags t == [true, false, false, true]) = true := by decide

/-- V-BR-29 (R304), RES 3,(HL). -/
theorem test_resHl : after (start 0x0100 [0xCB, 0x9E]
      |>.setPair .hl 0xC000
      |> withByte .system 0xC000 0xFF) (fun t =>
    t.pair .pc == 0x0102 && flags t == [false, false, false, false] &&
    t.mem.peek .system 0xC000 == some 0xF7) = true := by decide

/-- V-BR-30 (R305), SET 0,B. -/
theorem test_setR : after (start 0x0100 [0xCB, 0xC0] |>.setReg .b 0x00) (fun t =>
    t.pair .pc == 0x0102 && t.reg .b == 0x01 && flags t == [false, false, false, false]) = true := by decide

/-- V-BR-31 (R306), SET 7,(HL). -/
theorem test_setHl : after (start 0x0100 [0xCB, 0xFE]
      |>.setPair .hl 0xC000
      |> withByte .system 0xC000 0x00) (fun t =>
    t.pair .pc == 0x0102 && flags t == [false, false, false, false] &&
    t.mem.peek .system 0xC000 == some 0x80) = true := by decide

/-- V-GX-01 (R450), JPU nn. -/
theorem test_jpu : after (start 0x0100 [0xFC, 0xC3, 0x00, 0x40]) (fun t =>
    t.pair .pc == 0x4000 && flags t == [false, false, false, false] && t.mode == .user) = true := by decide

/-- V-GX-02 (R450), JPU nn. -/
theorem test_jpu_2 : after (startUser 0xC000 [0xFC, 0xC3, 0x00, 0x40]) (fun t =>
    t.pair .pc == 0x4000 && flags t == [false, false, false, false]) = true := by decide

/-- V-GX-03 (R453), LDU A,(HL). -/
theorem test_lduRHl : after (start 0x0100 [0xFC, 0x7E]
      |>.setPair .hl 0xC000
      |> withByte .system 0xC000 0x11
      |> withByte .user 0xC000 0x77) (fun t =>
    t.pair .pc == 0x0102 && t.reg .a == 0x77 && flags t == [false, false, false, false]) = true := by decide

/-- V-GX-12 (R453), LDU A,(HL). -/
theorem test_lduRHl_2 : stops (start 0x0100 [0xFC, 0x7E] |>.setPair .hl 0x0040) (.unmapped 0x0040 .user .read) 0x0100 = true := by decide

/-- V-GX-05 (R454), LDU A,(BC). -/
theorem test_lduABc : after (start 0x0100 [0xFC, 0x0A]
      |>.setPair .bc 0xC001
      |> withByte .user 0xC001 0x05) (fun t =>
    t.pair .pc == 0x0102 && t.reg .a == 0x05 && flags t == [false, false, false, false]) = true := by decide

/-- V-GX-06 (R455), LDU A,(DE). -/
theorem test_lduADe : after (start 0x0100 [0xFC, 0x1A]
      |>.setPair .de 0xC002
      |> withByte .user 0xC002 0x06) (fun t =>
    t.pair .pc == 0x0102 && t.reg .a == 0x06 && flags t == [false, false, false, false]) = true := by decide

/-- V-GX-07 (R456), LDU A,(HL+). -/
theorem test_lduAHli : after (start 0x0100 [0xFC, 0x2A]
      |>.setPair .hl 0xC000
      |> withByte .user 0xC000 0x77) (fun t =>
    t.pair .pc == 0x0102 && t.reg .a == 0x77 && t.reg .l == 0x01 && flags t == [false, false, false, false]) = true := by decide

/-- V-GX-08 (R457), LDU A,(HL-). -/
theorem test_lduAHld : after (start 0x0100 [0xFC, 0x3A]
      |>.setPair .hl 0xC001
      |> withByte .user 0xC001 0x05) (fun t =>
    t.pair .pc == 0x0102 && t.reg .a == 0x05 && t.reg .l == 0x00 && flags t == [false, false, false, false]) = true := by decide

/-- V-GX-09 (R458), LDU A,(nn). -/
theorem test_lduANn : after (start 0x0100 [0xFC, 0xFA, 0x00, 0xC0] |> withByte .user 0xC000 0x77) (fun t =>
    t.pair .pc == 0x0104 && t.reg .a == 0x77 && flags t == [false, false, false, false]) = true := by decide

/-- V-GX-10 (R459), LDHU A,(n). -/
theorem test_ldhuAN : after (start 0x0100 [0xFC, 0xF0, 0x80] |> withByte .user 0xFF80 0x10) (fun t =>
    t.pair .pc == 0x0103 && t.reg .a == 0x10 && flags t == [false, false, false, false]) = true := by decide

/-- V-GX-11 (R460), LDU A,(C). -/
theorem test_lduAC : after (start 0x0100 [0xFC, 0xF2]
      |>.setReg .c 0x80
      |> withByte .user 0xFF80 0x10) (fun t =>
    t.pair .pc == 0x0102 && t.reg .a == 0x10 && flags t == [false, false, false, false]) = true := by decide

/-- V-EX-02 (R145), V-EX-04, V-EX-05 (R146), V-GX-14 (R147): the opcodes without a decode branch. -/
theorem test_no_branch : stops (start 0x0100 [0xD3]) (.undecodable 0xD3) 0x0100 = true ∧
    stops (start 0x0100 [0xDD, 0x21, 0x00, 0x00]) (.unmodelled 0xDD 0x21) 0x0100 = true ∧
    stops (start 0x0100 [0xFD, 0x00]) (.unmodelled 0xFD 0x00) 0x0100 = true ∧
    stops (start 0x0100 [0xFC, 0x76]) (.unmodelled 0xFC 0x76) 0x0100 = true := by decide

/-- V-EX-01, V-EX-10 (R175): a fetch of an unmapped byte. -/
theorem test_fetch_unmapped : stops (start 0x8000 []) (.unmapped 0x8000 .system .fetch) 0x8000 = true ∧
    stops (start 0x7FFF [0xCB]) (.unmapped 0x8000 .system .fetch) 0x7FFF = true := by decide

/-- Example E14 (R172): PIR and IR after a prefixed instruction. -/
theorem test_prefix_fetch : after (start 0x0100 [0xCB, 0x37] |>.setReg .a 0xF0) (fun t =>
    t.reg .pir == 0xCB && t.reg .ir == 0x37 && t.pair .pc == 0x0102 && t.reg .a == 0x0F) = true := by decide

/-- V-AR-36, V-AR-38: the other value of `SP_FLAG_RULE`. -/
theorem test_sp_rule_byte : (addsp .byte 0x00FF 0x01).h = true ∧ (addsp .byte 0x00FF 0x01).cy = true ∧
    (addsp .byte 0xD000 0xFE).h = false ∧ (addsp .byte 0xD000 0xFE).cy = false := by decide

/-- `STOP_LENGTH` 1 (R432, D19): PC moves by one byte, and the byte after `10` is the next instruction. -/
theorem test_stop_length_one : after { start 0x7FFF [0x10] with params := shortStop } (fun t =>
    t.pair .pc == 0x8000 && t.signals.stopSignal) = true := by decide

/-- `STRADDLE_FAULT` false (R94, D15): a 16-bit immediate across the wrap of the address space is read; and a second
byte that is unmapped faults on its own. -/
theorem test_straddle_fault_off :
    after { (start 0xFFFE [0xC3, 0x50] |> withByte .system 0x0000 0x01) with params := noStraddleFault }
      (fun t => t.pair .pc == 0x0150) = true ∧
    stops { start 0x7FFE [0x01, 0x00] with params := noStraddleFault } (.unmapped 0x8000 .system .fetch) 0x7FFE = true := by
  decide

/-- `STRADDLE_FAULT` false and V-CF-18: the high byte of the return address is stored before the low byte faults, and
the fault keeps it (R476). -/
theorem test_first_store_stays :
    step { (start 0x0100 [0xCD, 0x34, 0x12] |>.setPair .sp 0xC001) with params := noStraddleFault } =
      .fault (.recorded { cause := .unmapped 0xBFFF .system .write, instruction := 0x0100 }
        ((start 0x0100 [0xCD, 0x34, 0x12]).mem.poke .system 0xC000 0x01)) := rfl

/-- A row of `INDEX_TABLE` (R146) and another `GBX_TABLE` (R147): `FD 21` loads HL, `FC C4` jumps, and the words of the
default table have no branch. -/
theorem test_other_tables :
    after { start 0x0100 [0xFD, 0x21, 0x34, 0x12] with params := otherTables } (fun t =>
      t.pair .hl == 0x1234 && t.pair .pc == 0x0104 && t.reg .pir == 0xFD) = true ∧
    after { start 0x0100 [0xFC, 0xC4, 0x00, 0x40] with params := otherTables } (fun t =>
      t.pair .pc == 0x4000 && t.mode == .user) = true ∧
    stops { start 0x0100 [0xFC, 0xC3] with params := otherTables } (.unmodelled 0xFC 0xC3) 0x0100 = true := by decide

/-- Another `FLAG_LAYOUT` (R39): SCF sets bit 3, where CY is, and clears bits 1 and 2. -/
theorem test_other_layout : after { (start 0x0100 [0x37] |>.setReg .f 0xA7) with params := otherLayout } (fun t =>
    t.reg .f == 0xA9 && flags t == [true, false, false, true]) = true := by decide

/-- The memory of example E9: a System ROM with the called code and a System RAM with the call. -/
def callState (p : Config.Parameters) : State :=
  { State.reset with
    regs := { State.reset.regs with pc := 0x8000, sp := 0xFFFE }
    params := p
    mem := ((({ resources := [{ kind := .rom, size := 0x8000, cells := [] }, blankRam 0x8000]
                table := [entry 0 0x0000 0x8000 .halfOpen .system, entry 1 0x8000 0xFFFF .closed .system] } :
                Memory).pokeAll .system 0x7000 [0x3E, 0xFE, 0xC9]).pokeAll .system 0x8000 [0xCD, 0x00, 0x70]) }

/-- PC, A, SP of a state. -/
def pcASp (s : State) : Word × Byte × Word := (s.pair .pc, s.reg .a, s.pair .sp)

/-- Example E9: 2 and 3 `RunCycle`s with one instruction each, 3 and 4 by the document's count. -/
theorem test_step_granularity :
    pcASp ((callState Params.default).runCycles 2) = (0x7002, 0xFE, 0xFFFC) ∧
    pcASp ((callState Params.default).runCycles 3) = (0x8003, 0xFE, 0xFFFE) ∧
    pcASp ((callState docGranularity).runCycles 3) = (0x7002, 0xFE, 0xFFFC) ∧
    pcASp ((callState docGranularity).runCycles 4) = (0x8003, 0xFE, 0xFFFE) := by decide

/-- A refused word access of a host names the resource offset, not the one after it (R471): the last byte of a RAM of 0x2000
bytes, and an offset past its end. -/
theorem test_word_bounds :
    (blankRam 0x2000).readWord 0x1FFF = .error (.outOfBounds 0x1FFF) ∧
    (blankRam 0x2000).writeWord 0x1FFF 0x1234 0xDFFF .system = .error (.outOfBounds 0x1FFF) ∧
    (blankRam 0x2000).writeWord 0x3000 0x1234 0xDFFF .system = .error (.outOfBounds 0x3000) ∧
    (start 0x0100 []).hostWriteWord 0xDFFF 0x1234 = .error (.outOfBounds 0x1FFF) :=
  ⟨rfl, rfl, rfl, rfl⟩

/-- A range whose end lies below its begin is refused, a resource of size 0 too (R88, R90; log 27). -/
theorem test_reversed_range :
    ({ resources := [blankRam 0], table := [] } : Memory).register 0
      { first := 0x0300, last := 0x0200, type := .halfOpen } .system =
        .error (.sizeMismatch { first := 0x0300, last := 0x0200, type := .halfOpen }) := rfl

/-- Example E5 (R84): the window of a Banked ROM repeats, with the image byte at `p` equal to `p mod 256`. -/
theorem test_bank_window :
    ({ kind := .bankedRom 128 5, size := 2048, cells := [(656, 0x90), (712, 0xC8)] } : Resource).readByte 0x10 =
      .ok 0x90 ∧
    ({ kind := .bankedRom 128 5, size := 2048, cells := [(656, 0x90), (712, 0xC8)] } : Resource).readByte 200 =
      .ok 0xC8 := ⟨rfl, rfl⟩

/-- Example E2 (R40): F after `SetFlag(H)`, `ClearFlag(Z)`, `WriteFlag(CY, 0)`. -/
theorem test_flag_bits : ((start 0 []).setFlagOf .h).reg .f = 0x02 ∧
    (((start 0 []).setReg .f 0xFF).clearFlagOf .z).reg .f = 0xF7 ∧
    (((start 0 []).setReg .f 0xA5).writeFlag .cy false).reg .f = 0xA4 := by decide

/-! ## Witnesses: states and operands that meet the hypotheses of each statement, clause by clause -/

/-- Map M0 with every pointer in RAM: HL, BC, DE at 0xC000, 0xC001 and the last byte 0xDFFF, the stack at 0xD000. -/
def ramState : State :=
  start 0x0100 [] |>.setPair .hl 0xC000 |>.setPair .bc 0xC001 |>.setPair .de 0xDFFF |>.setPair .sp 0xD000
    |>.setReg .a 0x5A |>.writeFlags true false true false

/-- HL at the last RAM byte, the stack wrapping to 0xFFFE. -/
def edgeState : State := start 0x0100 [] |>.setPair .hl 0xDFFF |>.setPair .sp 0x0000 |>.writeFlags false true false true

/-- Nothing is mapped. -/
def voidState : State := { ramState with mem := { resources := [], table := [] } }

/-- One ROM over the whole space. -/
def romState : State :=
  { ramState with
    mem := { resources := [{ kind := .rom, size := 0x10000, cells := [] }], table := [entry 0 0 0xFFFF .closed .system] } }

/-- A 16-bit access at SP, at SP - 2 and at PC straddles: 0xDFFF is the last byte of a RAM, 0xFFFF the last of all. -/
def straddleState : State := start 0x7FFF [] |>.setPair .sp 0xDFFF
def wrapState : State := start 0xFFFF [] |>.setPair .sp 0x0001

/-- The same state with `STRADDLE_FAULT` false. -/
def noCheck (s : State) : State := { s with params := noStraddleFault }

/-- A ROM up to 0xBFFF and a RAM above it, with the first RAM byte at `sp - 1`, and `STRADDLE_FAULT` false. -/
def borderState : State :=
  { noCheck ramState with
    regs := { ramState.regs with sp := 0xC001 }
    mem := { resources := [{ kind := .rom, size := 0xC000, cells := [] }, blankRam 0x4000]
             table := [entry 0 0 0xC000 .halfOpen .system, entry 1 0xC000 0xFFFF .closed .system] } }

/-- User mode, the User RAM under every pointer. -/
def userState : State := { ramState with mode := .user }

theorem rom_in_rom (a : Word) : romState.mem.inRom .system a := by
  refine ⟨0, { kind := .rom, size := 0x10000, cells := [] }, a.toNat, ?_, by decide⟩
  have h : AddressRange.contains { first := 0#16, last := 0xFFFF#16, type := .closed } a = true := by
    simp only [AddressRange.contains, Bool.and_eq_true, decide_eq_true_eq]
    exact ⟨by simp, by simpa using Nat.le_of_lt_succ a.isLt⟩
  have hr : romState.mem.route .system a = some (entry 0 0 0xFFFF .closed .system) := by
    simp [Memory.route, romState, entry, h]
  unfold Memory.target
  rw [hr]
  rfl

theorem test_witness_states : ramState.mem.wf = true ∧ edgeState.mem.wf = true ∧ voidState.mem.wf = true ∧
    romState.mem.wf = true ∧ straddleState.mem.wf = true ∧ wrapState.mem.wf = true ∧ userState.mem.wf = true := by decide

/-- A map with a ROM of four banks of 0x4000 bytes, given with bank 3 current. -/
def bankedMap : Memory :=
  { resources := [{ kind := .bankedRom 0x4000 3, size := 0x10000, cells := [] }, blankRam 0x2000]
    table := [entry 0 0 0xFFFF .closed .system, entry 1 0xC000 0xE000 .halfOpen .user] }

/-- Construction makes bank 0 current (R65, R84), whatever bank the map is given with; SelectBank then changes it. -/
theorem test_reset_bank :
    ((State.resetWith Params.default { ResetParameters.default with memoryMap := bankedMap }).mem.resources.map (·.kind)) =
      [.bankedRom 0x4000 0, .ram] ∧
    ((State.resetWith Params.default { ResetParameters.default with memoryMap := bankedMap }).selectBank 0 3).toOption.map
      (fun s => s.mem) = some bankedMap := by decide

/-- ResetState, ResetKeepsForm: construction with other parameters than the chosen ones, and a resource of each kind. -/
theorem test_witness_reset : mapM0.wf = true ∧ bankedMap.wf = true ∧
    (State.resetWith otherLayout { ResetParameters.default with memoryMap := mapM0, resetPc := 0x0100 }).pair .pc = 0x0100 ∧
    (State.resetWith otherLayout { ResetParameters.default with memoryMap := mapM0, resetPc := 0x0100 }).mem = mapM0 ∧
    mapM0.resources[0]?.map (·.kind) = some .rom ∧ bankedMap.resources[0]?.map (·.kind) = some (.bankedRom 0x4000 3) ∧
    bankedMap.resources[1]?.map (·.kind) = some .ram :=
  ⟨by decide, by decide, rfl, rfl, rfl, rfl, rfl⟩

/-- StepKeepsForm, StepKeepsConfiguration: an invariant state whose step goes on, with a resource of each kind. -/
theorem test_witness_step : ramState.Inv ∧ (∃ t, step ramState = .next t) ∧ State.reset.Inv ∧
    (∃ t, step State.reset = .next t) ∧ ramState.mem.resources[0]?.map (·.kind) = some .rom ∧
    ramState.mem.resources[4]?.map (·.kind) = some .ram :=
  ⟨⟨by decide, rfl, rfl⟩, ⟨_, rfl⟩, ⟨by decide, rfl, rfl⟩, ⟨_, rfl⟩, rfl, rfl⟩

/-- StepRunsDecoded: an instruction without and one with a 16-bit immediate, whose last byte is the last RAM byte; and
with `STRADDLE_FAULT` false one whose immediate straddles. -/
theorem test_witness_step_runs :
    ((start 0xDFFD [0xC3, 0x50, 0x01]).fault = none ∧ (Instr.jp 0x0150).wf = true ∧
      decode Params.default [0xC3, 0x50, 0x01] = .ok (.jp 0x0150, []) ∧
      (start 0xDFFD [0xC3, 0x50, 0x01]).bytesAtPc [0xC3, 0x50, 0x01] ∧
      (start 0xDFFD [0xC3, 0x50, 0x01]).unstraddled (0xDFFD + BitVec.ofNat 16 1)) ∧
    (ramState.fault = none ∧ decode Params.default [0x00] = .ok (.nop, []) ∧ ramState.bytesAtPc [0x00] ∧
      hasWordOperand Params.default .nop = false) ∧
    (decode noStraddleFault [0xC3, 0x50, 0x00] = .ok (.jp 0x0050, []) ∧
      (noCheck (start 0xFFFE [0xC3, 0x50])).bytesAtPc [0xC3, 0x50, 0x00] ∧
      (noCheck (start 0xFFFE [0xC3, 0x50])).unstraddled (0xFFFE + BitVec.ofNat 16 1) ∧
      (start 0xFFFE [0xC3, 0x50]).mem.pairInOneEntry .system (0xFFFE + BitVec.ofNat 16 1) = false) := by
  refine ⟨⟨rfl, rfl, rfl, ?_, fun _ => by decide⟩, ⟨rfl, rfl, ?_, rfl⟩, rfl, ?_, nofun, by decide⟩ <;>
    · unfold State.bytesAtPc
      decide

/-- FetchFaults: the first byte; the opcode after each pre-opcode; a one-byte immediate, unprefixed and prefixed; the
first and the second byte of a 16-bit immediate, for both values of `STRADDLE_FAULT`. -/
theorem test_witness_fetch_faults :
    (start 0x8000 []).mem.covers .system 0x8000 = false ∧
    ([0xCB, 0xDD, 0xFC, 0xFD].all fun p => isPreOpcode p && (start 0x7FFF [p]).mem.peek .system 0x7FFF == some p &&
      !(start 0x7FFF [p]).mem.covers .system (0x7FFF + 1)) = true ∧
    (OpcodeRead (start 0x7FFF [0x18]) 0x00 0x18 0x8000 ∧ decodeOpcode Params.default 0x00 0x18 = .ok (.imm8 .jr)) ∧
    (OpcodeRead (start 0x7FFE [0xFC, 0xF0]) 0xFC 0xF0 0x8000 ∧
      decodeOpcode Params.default 0xFC 0xF0 = .ok (.imm8 .ldhuAN)) ∧
    (OpcodeRead (start 0x7FFF [0xC3]) 0x00 0xC3 0x8000 ∧ decodeOpcode Params.default 0x00 0xC3 = .ok (.imm16 .jp)) ∧
    (OpcodeRead (start 0x7FFE [0xC3, 0x34]) 0x00 0xC3 0x7FFF ∧
      (start 0x7FFE [0xC3, 0x34]).mem.peek .system 0x7FFF = some 0x34 ∧
      decodeOpcode noStraddleFault 0x00 0xC3 = .ok (.imm16 .jp)) ∧
    (start 0x7FFE [0xC3, 0x34]).mem.covers .system (0x7FFF + 1) = false :=
  ⟨by decide, by decide, ⟨.unprefixed _ rfl (by decide), rfl⟩, ⟨.prefixed _ _ rfl (by decide) (by decide), rfl⟩,
    ⟨.unprefixed _ rfl (by decide), rfl⟩, ⟨.unprefixed _ rfl (by decide), by decide, rfl⟩, by decide⟩

/-- IllegalOpcodes, UnmodelledOpcodes: the bytes at PC, with the default tables and with others. -/
theorem test_witness_no_branch : isPreOpcode 0x00 = false ∧ (start 0x0100 [0xED]).mem.peek .system 0x0100 = some 0xED ∧
    (start 0x0100 [0xDD, 0x21]).mem.peek .system 0x0100 = some 0xDD ∧
    (start 0x0100 [0xFD, 0x21]).mem.peek .system 0x0100 = some 0xFD ∧
    (start 0x0100 [0xFC, 0x76]).mem.peek .system 0x0100 = some 0xFC ∧
    (start 0x0100 [0xFC, 0x76]).mem.peek .system 0x0101 = some 0x76 ∧
    (∀ row, row ∈ otherTables.indexTable → row.preOpcode = 0xDD → row.opcode ≠ 0x21) ∧
    (∀ row, row ∈ otherTables.gbxTable → row.opcode ≠ 0x76) := by decide

/-- DecodeEncode, EncodeDecode: the last value of an operand, bytes with more after them, an encodable GBX form under
another `GBX_TABLE`, STOP in one byte, and a row of `INDEX_TABLE`. -/
theorem test_witness_encodings : (Instr.setR 7 .a).wf = true ∧ (Instr.ldNnSp 0xFFFF).wf = true ∧
    decode Params.default [0xCB, 0xFF, 0x12] = .ok (.setR 7 .a, [0x12]) ∧
    otherTables.gbxOneToOne = true ∧ (Instr.jpu 0x4000).encodable otherTables = true ∧
    encode otherTables (.jpu 0x4000) = [0xFC, 0xC4, 0x00, 0x40] ∧ (Instr.stop 0).encodable shortStop = true ∧
    decode otherTables [0xFD, 0x21, 0x34, 0x12] = .ok (.ldRrNn .hl 0x1234, []) ∧
    otherTables.indexBase? 0xFD 0x21 = some 0x21 := ⟨rfl, rfl, rfl, by decide, rfl, rfl, rfl, rfl, rfl⟩

/-- FaultStopsCore, FaultRecordAndMemory: a step that records a fault from an invariant state, and a recorded one. -/
theorem test_witness_fault : (start 0x0100 [0xD3]).Inv ∧
    step (start 0x0100 [0xD3]) =
      .fault (.recorded { cause := .undecodable 0xD3, instruction := 0x0100 } (start 0x0100 [0xD3]).mem) ∧
    (start 0x0100 [0xD3]).run.fault = some { cause := .undecodable 0xD3, instruction := 0x0100 } ∧
    (start 0x0100 [0xD3]).beginCycle.fetchInstr = .error (.undecodable 0xD3) ∧
    Params.default.straddleFault = true :=
  ⟨⟨by decide, rfl, rfl⟩, rfl, rfl, rfl, rfl⟩

/-- CALL 0x1234 at 0x0100, RAM from 0xC000, `STRADDLE_FAULT` false, SP such that only the first byte of the push, or not
even that one, can be stored. -/
def callAt (sp : Word) : State := noCheck (start 0x0100 [0xCD, 0x34, 0x12] |>.setPair .sp sp)

/-- LD A,(HL), HL where nothing is mapped, `STRADDLE_FAULT` false. -/
def loadAtHole : State := noCheck (start 0x0100 [0x7E] |>.setPair .hl 0xFEFF)

/-- FaultRecordAndMemory: an instruction whose first store completes (`test_first_store_stays`), one whose first store is
refused, and one that does not store two bytes. -/
theorem test_witness_fault_memory :
    ((callAt 0xC001).Inv ∧ (callAt 0xC001).params.straddleFault = false ∧
      (callAt 0xC001).beginCycle.fetchInstr = .ok (.call 0x1234, (callAt 0xC001).atExecute [0xCD, 0x34, 0x12]) ∧
      FirstOfTwoStores ((callAt 0xC001).atExecute [0xCD, 0x34, 0x12]) (.call 0x1234) 0xC000 0x01 ∧
      (callAt 0xC001).mem.writeByte .system 0xC000 0x01 = .ok ((callAt 0xC001).mem.poke .system 0xC000 0x01)) ∧
    ((callAt 0xC000).beginCycle.fetchInstr = .ok (.call 0x1234, (callAt 0xC000).atExecute [0xCD, 0x34, 0x12]) ∧
      FirstOfTwoStores ((callAt 0xC000).atExecute [0xCD, 0x34, 0x12]) (.call 0x1234) 0xBFFF 0x01 ∧
      (callAt 0xC000).mem.writeByte .system 0xBFFF 0x01 = .error (.unmapped 0xBFFF .system .write) ∧
      step (callAt 0xC000) = .fault (.recorded { cause := .unmapped 0xBFFF .system .write, instruction := 0x0100 }
        (callAt 0xC000).mem)) ∧
    (loadAtHole.Inv ∧ loadAtHole.beginCycle.fetchInstr = .ok (.ldRHl .a, loadAtHole.atExecute [0x7E]) ∧
      (∀ a v, ¬ FirstOfTwoStores (loadAtHole.atExecute [0x7E]) (.ldRHl .a) a v) ∧
      step loadAtHole = .fault (.recorded { cause := .unmapped 0xFEFF .system .read, instruction := 0x0100 }
        loadAtHole.mem)) :=
  ⟨⟨⟨by decide, rfl, rfl⟩, rfl, rfl, .call _, rfl⟩, ⟨rfl, .call _, rfl, rfl⟩, ⟨by decide, rfl, rfl⟩, rfl, nofun, rfl⟩

/-- ScratchRegisters, HaltAndStopDoNotBlock, UnusedStateUntouched, SignalWriters: an instruction and two steps that go on. -/
theorem test_witness_runs : (Instr.addR .b).wf = true ∧ (∃ t, exec (.addR .b) ramState = .next t) ∧
    (∃ t, step (start 0x0100 [0x80]) = .next t) ∧ (start 0x0100 [0x80]).mem.peek .system 0x0100 = some 0x80 ∧
    isPreOpcode 0x80 = false ∧ (∃ t, step (start 0x0100 [0xFC, 0x7E] |>.setPair .hl 0xC000) = .next t) ∧
    (start 0x0100 [0xFC, 0x7E]).mem.peek .system 0x0100 = some 0xFC ∧
    (start 0x0100 [0xFC, 0x7E]).mem.peek .system 0x0101 = some 0x7E ∧ isPreOpcode 0xFC = true :=
  ⟨rfl, ⟨_, rfl⟩, ⟨_, rfl⟩, by decide, rfl, ⟨_, rfl⟩, by decide, by decide, rfl⟩

/-- ModeChangesOnlyByJpu: a request made by JPU, and a step in User mode. -/
theorem test_witness_mode : (∃ t, exec (.jpu 0x4000) ramState = .next t ∧ t.signals.userModeRequested = true) ∧
    (∃ t, step (startUser 0xC000 [0x00]) = .next t) ∧ (startUser 0xC000 [0x00]).mode = .user :=
  ⟨⟨_, rfl, rfl⟩, ⟨_, rfl⟩, rfl⟩

/-- UserModeIsolation: two User states that differ in a System byte, one pair that goes on and one that faults, and a
resource no User entry names. -/
theorem test_witness_isolation :
    (AgreeForUser (startUser 0xC000 [0x7E]) (withByte .system 0xC000 0x11 (startUser 0xC000 [0x7E])) ∧
      (startUser 0xC000 [0x7E]).mem ≠ (withByte .system 0xC000 0x11 (startUser 0xC000 [0x7E])).mem ∧
      stops (startUser 0xC000 [0x7E]) (.unmapped 0 .user .read) 0xC000 = true) ∧
    (AgreeForUser (startUser 0xC000 [0x3C]) (withByte .system 0xC000 0x11 (startUser 0xC000 [0x3C])) ∧
      (∃ t, step (startUser 0xC000 [0x3C]) = .next t)) ∧
    (∀ e, e ∈ (startUser 0xC000 [0x3C]).mem.table → e.ownership = .user → e.resource ≠ 1) := by
  refine ⟨⟨⟨rfl, rfl, rfl, rfl, rfl, rfl, rfl, rfl, by decide⟩, by decide, by decide⟩,
    ⟨⟨rfl, rfl, rfl, rfl, rfl, rfl, rfl, rfl, by decide⟩, ⟨_, rfl⟩⟩, by decide⟩

/-- AddressingModeBounds: an instruction for each of the three hypotheses. -/
theorem test_witness_modes :
    (addressingModeFormat (addressingMode Params.default .addHl)).writesMemory = false ∧ (∃ t, exec .addHl ramState = .next t) ∧
    (addressingModeFormat (addressingMode Params.default .incHl)).changesPC = false ∧ (∃ t, exec .incHl ramState = .next t) ∧
    (addressingModeFormat (addressingMode Params.default (.jp 0))).writesMemory = false ∧
    (addressingModeFormat (addressingMode Params.default (.jp 0))).readsMemory = false := ⟨rfl, ⟨_, rfl⟩, rfl, ⟨_, rfl⟩, rfl, rfl⟩

/-- PairAccess: the four pairs of single registers, a single register, a byte cell and the sentinel. -/
theorem test_witness_pairs : pairHalves .af = [.a, .f] ∧ pairHalves .bc = [.b, .c] ∧ pairHalves .de = [.d, .e] ∧
    pairHalves .hl = [.h, .l] ∧ (∀ rr, RegisterName.noRegister ≠ .pair rr) ∧
    (∀ rr, RegisterName.single .a ≠ .pair rr) ∧ (∀ rr, RegisterName.half .sp true ≠ .pair rr) :=
  ⟨rfl, rfl, rfl, rfl, nofun, nofun, nofun⟩

/-- FlagIsolation: another flag. -/
theorem test_witness_flags : Flag.z ≠ .cy ∧ Flag.h ≠ .n := by decide

/-- BankWindowing: an image that loads, the last bank and the last offset. -/
theorem test_witness_banks : (List.replicate 2048 (0x5A : Byte)).length = 2048 ∧ 15 < 16 ∧ 127 < 128 ∧
    ∃ r, (Params.blankResource (.bankedRom 128 0) 2048).load (List.replicate 2048 0x5A) 0 = .ok r :=
  ⟨List.length_replicate, by decide, by decide, by
    unfold Resource.load
    exact ⟨_, if_pos (Nat.le_of_eq (by rw [List.length_replicate]; rfl))⟩⟩

/-- OverlapRejection, BoundaryLaw: a registration over [0x0200, 0x0300) that succeeds, an address it shares with a
second range, and its two neighbours uncovered. -/
theorem test_witness_registration :
    (∃ m, ({ resources := [blankRam 0x100], table := [] } : Memory).register 0
      { first := 0x0200, last := 0x0300, type := .halfOpen } .system = .ok m) ∧
    AddressRange.contains { first := 0x0200, last := 0x0300, type := .halfOpen } 0x02FF = true ∧
    AddressRange.contains { first := 0x02FF, last := 0x02FF, type := .closed } 0x02FF = true ∧
    ({ resources := [blankRam 0x100], table := [] } : Memory).covers .system 0x01FF = false ∧
    ({ resources := [blankRam 0x100], table := [] } : Memory).covers .system 0x0300 = false :=
  ⟨⟨_, rfl⟩, by decide, by decide, by decide, by decide⟩

/-- RoutingLaw, ReadAfterWrite: the last byte of an entry, and a store there that succeeds. -/
theorem test_witness_routing : entry 1 0xC000 0xE000 .halfOpen .system ∈ mapM0.table ∧
    (entry 1 0xC000 0xE000 .halfOpen .system).range.contains 0xDFFF = true ∧
    (∃ m, mapM0.writeByte .system 0xDFFF 0x77 = .ok m) ∧ mapM0.writable .system 0xDFFF = true :=
  ⟨by decide, by decide, ⟨_, rfl⟩, by decide⟩

/-- AddResult to LogicResult: the three forms of the source operand, and their faults. -/
theorem test_witness_source8 : Source8 ramState .addR .addHl .addN (.addR .a) 0x5A ∧
    Source8 edgeState .adcR .adcHl .adcN .adcHl 0x00 ∧ Source8 ramState .cpR .cpHl .cpN (.cpN 0xFF) 0xFF ∧
    edgeState.flag .cy = true ∧ voidState.mem.covers .system (voidState.pair .hl) = false ∧
    voidState.mem.covers .system (voidState.pair .pc) = false :=
  ⟨.register .a, .memory 0x00 (by decide), .immediate 0xFF, by decide, by decide, by decide⟩

/-- IncDecRegister, AddHlResult, ShiftRegister, ResetAndSetBit, PopResult: the operands the fields name. -/
theorem test_witness_operands : Reg8.isOperand .a = true ∧ Reg8.isOperand .h = true ∧ Reg16.isAluPair .bc = true ∧
    Reg16.isAluPair .hl = true ∧ Reg16.isAluPair .sp = true ∧ Reg16.isStackPair .af = true ∧
    Reg16.isStackPair .hl = true := by decide

/-- IncDecMemory, ShiftMemory, BitTest, ResetAndSetBit: the byte at HL in RAM, unmapped, and in a ROM. -/
theorem test_witness_modify : CanModify ramState 0x00 ∧ CanModify (withByte .system 0xDFFF 0x80 edgeState) 0x80 ∧
    voidState.mem.covers voidState.mode (voidState.pair .hl) = false ∧
    romState.mem.peek romState.mode (romState.pair .hl) = some 0x00 ∧ romState.mem.inRom romState.mode (romState.pair .hl) :=
  ⟨⟨by decide, by decide, by decide⟩, ⟨by decide, by decide, by decide⟩, by decide, by decide, rom_in_rom _⟩

/-- DecimalAdjust: after an addition and after a subtraction. -/
theorem test_witness_daa : ramState.flag .n = false ∧ edgeState.flag .n = true := by decide

/-- AccumulatorRotates: each pair of the list. -/
theorem test_witness_rotates : (Instr.rlca, ShiftKind.rlc) ∈ [(Instr.rlca, ShiftKind.rlc), (.rrca, .rrc), (.rla, .rl), (.rra, .rr)] ∧
    (Instr.rra, ShiftKind.rr) ∈ [(Instr.rlca, ShiftKind.rlc), (.rrca, .rrc), (.rla, .rl), (.rra, .rr)] := by decide

/-- The conditional statements: each condition holds somewhere and fails somewhere. -/
theorem test_witness_conditions : (condHolds .z ramState ∧ condHolds .nc ramState ∧ condHolds .nz edgeState ∧
    condHolds .c edgeState) ∧ ¬ condHolds .z edgeState ∧ ¬ condHolds .nc edgeState ∧ ¬ condHolds .nz ramState ∧
    ¬ condHolds .c ramState := by
  unfold condHolds
  decide

/-- FaultsOnByte, FaultsOnWord: the immediate unmapped, straddling at the end of an entry and of the space, and its
second byte unmapped with `STRADDLE_FAULT` false. -/
theorem test_witness_immediates : voidState.mem.covers voidState.mode (voidState.pair .pc) = false ∧
    straddleState.mem.covers .system (straddleState.pair .pc) = true ∧
    straddleState.mem.pairInOneEntry .system (straddleState.pair .pc) = false ∧
    wrapState.mem.covers .system (wrapState.pair .pc) = true ∧
    wrapState.mem.pairInOneEntry .system (wrapState.pair .pc) = false ∧
    (noCheck straddleState).mem.peek .system 0x7FFF = some 0 ∧
    (noCheck straddleState).mem.covers .system ((noCheck straddleState).pair .pc + 1) = false := by decide

/-- CanPush, PushFaults, PushPopRoundTrip: the stack in RAM, at the wrap, unmapped, straddling, in a ROM; with
`STRADDLE_FAULT` false the first byte unmapped or in a ROM, the second byte unmapped or in a ROM after a first that is
stored, and a stack across two entries. -/
theorem test_witness_push : CanPush ramState ∧ CanPush edgeState ∧
    voidState.mem.covers voidState.mode (voidState.pair .sp - 2) = false ∧
    (wrapState.mem.covers wrapState.mode (wrapState.pair .sp - 2) = true ∧
      wrapState.mem.pairInOneEntry wrapState.mode (wrapState.pair .sp - 2) = false) ∧
    (romState.unstraddled (romState.pair .sp - 2) ∧ romState.mem.inRom romState.mode (romState.pair .sp - 1)) ∧
    (noCheck voidState).mem.covers .system ((noCheck voidState).pair .sp - 1) = false ∧
    ((noCheck romState).unstraddled ((noCheck romState).pair .sp - 2) ∧
      (noCheck romState).mem.inRom .system ((noCheck romState).pair .sp - 1)) ∧
    ((∃ m, (noCheck (ramState.setPair .sp 0xC001)).mem.writeByte .system 0xC000 0x12 = .ok m) ∧
      (noCheck (ramState.setPair .sp 0xC001)).mem.covers .system (0xC001 - 2) = false) ∧
    ((∃ m, borderState.mem.writeByte .system 0xC000 0x12 = .ok m) ∧
      borderState.mem.inRom .system (borderState.pair .sp - 2)) ∧
    (CanPush (noCheck ramState) ∧ (noCheck ramState).mem.locate .system (ramState.pair .sp - 2) ≠
      (noCheck ramState).mem.locate .system (ramState.pair .sp - 1)) :=
  ⟨⟨by decide, fun _ => by decide, by decide, by decide⟩, ⟨by decide, fun _ => by decide, by decide, by decide⟩,
    by decide, ⟨by decide, by decide⟩, ⟨fun _ => by decide, rom_in_rom _⟩, by decide, ⟨nofun, rom_in_rom _⟩,
    ⟨⟨_, rfl⟩, by decide⟩, ⟨⟨_, rfl⟩, 0, _, _, rfl, by decide⟩, ⟨by decide, nofun, by decide, by decide⟩, by decide⟩

/-- CanPop, PopFaults: the two bytes at SP, unmapped, straddling; with `STRADDLE_FAULT` false the byte above SP
unmapped, and two bytes of two entries. -/
theorem test_witness_pop : CanPop (withByte .system 0xD001 0x12 (withByte .system 0xD000 0x34 ramState)) 0x12 0x34 ∧
    voidState.mem.covers voidState.mode (voidState.pair .sp) = false ∧
    straddleState.mem.covers straddleState.mode (straddleState.pair .sp) = true ∧
    straddleState.mem.pairInOneEntry straddleState.mode (straddleState.pair .sp) = false ∧
    ((noCheck straddleState).mem.peek .system 0xDFFF = some 0 ∧
      (noCheck straddleState).mem.covers .system ((noCheck straddleState).pair .sp + 1) = false) ∧
    CanPop (noCheck (ramState.setPair .sp 0xFFFF)) 0x00 0x00 :=
  ⟨⟨fun _ => by decide, by decide, by decide⟩, by decide, by decide, by decide, ⟨by decide, by decide⟩,
    ⟨nofun, by decide, by decide⟩⟩

/-- MemoryLoad: every form, with its address in RAM; and the address unmapped. -/
theorem test_witness_loads :
    (LoadForm ramState (.ldRHl .h) .h 0xC000 ∧ LoadForm ramState .ldABc .a 0xC001 ∧ LoadForm ramState .ldADe .a 0xDFFF ∧
      LoadForm ramState (.ldANn 0xDFFF) .a 0xDFFF ∧ LoadForm ramState (.ldhAN 0xFF) .a 0xFFFF ∧
      LoadForm ramState .ldAC .a 0xFF01) ∧
    (ramState.mem.peek .system 0xC000 = some 0 ∧ ramState.mem.peek .system 0xC001 = some 0 ∧
      ramState.mem.peek .system 0xDFFF = some 0 ∧ ramState.mem.peek .system 0xFFFF = some 0 ∧
      ramState.mem.peek .system 0xFF01 = some 0) ∧
    voidState.mem.covers .system 0xFFFF = false :=
  ⟨⟨.hl .h, .bc, .de, .absolute 0xDFFF, .page 0xFF, .pageC⟩, by decide, by decide⟩

/-- MemoryStore: every form, its address in RAM; SteppingStore; and the address unmapped or in a ROM. -/
theorem test_witness_stores :
    (StoreForm ramState (.ldHlR .l) 0xC000 0x00 ∧ StoreForm ramState (.ldHlN 0xFF) 0xC000 0xFF ∧
      StoreForm ramState .ldBcA 0xC001 0x5A ∧ StoreForm ramState .ldDeA 0xDFFF 0x5A ∧
      StoreForm ramState (.ldNnA 0xDFFF) 0xDFFF 0x5A ∧ StoreForm ramState (.ldhNA 0xFF) 0xFFFF 0x5A ∧
      StoreForm ramState .ldCA 0xFF01 0x5A) ∧
    (ramState.mem.writable .system 0xC000 = true ∧ ramState.mem.writable .system 0xC001 = true ∧
      ramState.mem.writable .system 0xDFFF = true ∧ ramState.mem.writable .system 0xFFFF = true ∧
      ramState.mem.writable .system 0xFF01 = true) ∧
    voidState.mem.covers .system 0xC000 = false ∧ romState.mem.inRom .system 0xFFFF :=
  ⟨⟨.hl .l, .hlImmediate 0xFF, .bc, .de, .absolute 0xDFFF, .page 0xFF, .pageC⟩, by decide, by decide, rom_in_rom _⟩

/-- SteppingLoad, SteppingStore: HL at the first and at the last RAM byte. -/
theorem test_witness_stepping : ramState.mem.peek .system (ramState.pair .hl) = some 0 ∧
    edgeState.mem.peek .system (edgeState.pair .hl) = some 0 ∧
    edgeState.mem.writable .system (edgeState.pair .hl) = true := by decide

/-- StackPointerStore: two bytes in RAM, unmapped, straddling, in a ROM, and the last address covered; with
`STRADDLE_FAULT` false two bytes of which the first, or the second after a stored first, is unmapped or in a ROM. -/
theorem test_witness_word_store : CanStoreWord ramState 0xDFFE ∧ voidState.mem.covers .system 0xDFFE = false ∧
    ramState.mem.covers .system 0xDFFF = true ∧ ramState.mem.pairInOneEntry .system 0xDFFF = false ∧
    (romState.unstraddled 0xFFFE ∧ romState.mem.inRom .system 0xFFFE) ∧
    ramState.mem.covers .system 0xFFFF = true ∧ (noCheck voidState).mem.covers .system 0xFFFF = false ∧
    ((noCheck romState).unstraddled 0xFFFF ∧ (noCheck romState).mem.inRom .system 0xFFFF) ∧
    ((∃ m, (noCheck ramState).mem.writeByte .system 0xDFFF 0x00 = .ok m) ∧
      (noCheck ramState).mem.covers .system (0xDFFF + 1) = false) ∧
    ((∃ m, borderState.mem.writeByte .system 0xFFFF 0x00 = .ok m) ∧ borderState.mem.inRom .system (0xFFFF + 1)) :=
  ⟨⟨by decide, fun _ => by decide, by decide, by decide⟩, by decide, by decide, by decide,
    ⟨fun _ => by decide, rom_in_rom _⟩, by decide, by decide, ⟨nofun, rom_in_rom _⟩, ⟨⟨_, rfl⟩, by decide⟩,
    ⟨⟨_, rfl⟩, 0, _, _, rfl, by decide⟩⟩

/-- SystemInstructions: every member of the list. -/
theorem test_witness_system : Instr.halt ∈ [Instr.halt, .stop 0, .di, .ei] ∧ Instr.stop 0 ∈ [Instr.halt, .stop 0, .di, .ei] ∧
    Instr.di ∈ [Instr.halt, .stop 0, .di, .ei] ∧ Instr.ei ∈ [Instr.halt, .stop 0, .di, .ei] := by decide

/-- UserLoad: every form from System mode, its User byte different from the System byte; and the address unmapped. -/
theorem test_witness_user_loads :
    (UserLoadForm ramState (.lduRHl .h) .h 0xC000 ∧ UserLoadForm ramState .lduABc .a 0xC001 ∧
      UserLoadForm ramState .lduADe .a 0xDFFF ∧ UserLoadForm ramState (.lduANn 0xDFFF) .a 0xDFFF ∧
      UserLoadForm ramState (.ldhuAN 0xFF) .a 0xFFFF ∧ UserLoadForm ramState .lduAC .a 0xFF01) ∧
    ((withByte .user 0xC000 0x77 ramState).mem.peek .user 0xC000 = some 0x77 ∧
      (withByte .user 0xC000 0x77 ramState).mem.peek .system 0xC000 = some 0x00 ∧
      ramState.mem.peek .user 0xC001 = some 0 ∧ ramState.mem.peek .user 0xDFFF = some 0 ∧
      ramState.mem.peek .user 0xFFFF = some 0 ∧ ramState.mem.peek .user 0xFF01 = some 0) ∧
    voidState.mem.covers .user 0xC000 = false :=
  ⟨⟨.hl .h, .bc, .de, .absolute 0xDFFF, .page 0xFF, .pageC⟩, by decide, by decide⟩

end Sys2Proof.Tests
end

section
/-! PROOFS. The statements of 10_state.md: the laws of registers, flags and reset, what every well-formed instruction
leaves unchanged, and which signals it writes. -/

namespace Sys2Proof.Machine

/-! ## Reset -/

/-- The registers `RESET_PC` does not give are `INIT_REGS`' (10_state.md R65). -/
@[simp] theorem State.resetWith_reg (p : Config.Parameters) (u : ResetParameters) (r : Reg8) :
    (State.resetWith p u).reg r = u.initRegs.reg r := by
  cases r <;> rfl

theorem State.resetWith_word (p : Config.Parameters) (u : ResetParameters) {w : Reg16}
    (hw : isWordRegister w = true) (hpc : w ≠ .pc) : (State.resetWith p u).pair w = u.initRegs.pair w := by
  cases w
  case sp | ix | iy => rfl
  case pc => exact absurd rfl hpc
  case af | bc | de | hl => cases hw

/-- Construction touches of a resource only its current bank (10_state.md R65, 20_memory.md R84). -/
theorem State.resetWith_resource (p : Config.Parameters) (u : ResetParameters) {n : Nat} {r : Resource}
    (h : u.memoryMap.resources[n]? = some r) :
    (State.resetWith p u).mem.resources[n]? = some r.atConstruction :=
  (Memory.atConstruction_resource u.memoryMap n).trans (congrArg (Option.map _) h)

/-- Settles O1: reset sets the fields it names and takes the rest from its parameters. -/
theorem resetState : Obligations.ResetState := by
  refine ⟨?_, rfl, rfl⟩
  rintro p u _ rfl
  refine ⟨rfl, State.resetWith_reg p u, fun _ => State.resetWith_word p u, rfl, rfl, List.length_map _,
    fun n r hr => ⟨_, State.resetWith_resource p u hr, rfl, rfl, fun h => ?_, fun h => ?_, fun bankSize bank h => ?_⟩,
    rfl, rfl, rfl, rfl, rfl, rfl, rfl, rfl, rfl, rfl⟩ <;>
  simp only [Resource.atConstruction, h, ResourceKind.atConstruction]

/-! ## The fault state -/

/-- A recorded fault stops the step (40_control_unit.md R171). -/
theorem State.cycle_of_fault {s : State} {r : FaultRecord} (h : s.fault = some r) :
    s.cycle = .fault (.stopped r) := by
  unfold State.cycle
  rw [h]

theorem State.run_of_recorded {s : State} {r : FaultRecord} {m : Memory}
    (h : s.cycle = .fault (.recorded r m)) : s.run = s.afterFault r m := by
  unfold State.run
  rw [h]

theorem State.run_of_fault {s : State} {r : FaultRecord} (h : s.fault = some r) : s.run = s := by
  unfold State.run
  rw [State.cycle_of_fault h]

/-- Settles O12: `Run()` records what the step raises, and with a record neither has anything to do. -/
theorem faultStopsCore : Obligations.FaultStopsCore := by
  refine ⟨rfl, fun s r m h => ?_, fun s r h => ⟨State.cycle_of_fault h, State.run_of_fault h⟩⟩
  rw [State.run_of_recorded h]
  rfl

/-! ## Register pairs -/

theorem Word.low_eq_mod (v : Word) : v.low = BitVec.ofNat 8 (v.toNat % 256) := by
  apply BitVec.eq_of_toNat_eq
  simp [Word.low]

/-- A pair reads as its two halves (10_state.md R31). -/
theorem State.pair_of_halves (s : State) {rr : Reg16} {high low : Reg8} (h : pairHalves rr = [high, low]) :
    s.pair rr = Word.ofBytes (s.reg high) (s.reg low) := by
  cases rr <;> cases h <;> rfl

/-- Writing a pair writes its two halves (10_state.md R33). -/
theorem State.reg_setPair_halves (s : State) (v : Word) {rr : Reg16} {high low : Reg8}
    (h : pairHalves rr = [high, low]) : (s.setPair rr v).reg high = v.high ∧ (s.setPair rr v).reg low = v.low := by
  cases rr <;> cases h <;> exact ⟨rfl, rfl⟩

/-- Settles O22: the pair accessors answer for the pairs alone, through the two halves. -/
theorem pairAccess : Obligations.PairAccess := by
  refine ⟨fun s rr v => ⟨_, rfl, congrArg _ (State.pair_setPair_self s rr v)⟩, fun s v rr high low h => ?_,
    fun s n v h => ?_, fun s => ⟨_, rfl, rfl, rfl⟩⟩
  · obtain ⟨hhigh, hlow⟩ := State.reg_setPair_halves s v h
    exact ⟨_, rfl, congrArg _ hhigh, congrArg _ (hlow.trans (Word.low_eq_mod v)),
      congrArg _ (State.pair_of_halves s h)⟩
  · cases n
    case pair rr => exact absurd rfl (h rr)
    case single | half | noRegister => exact ⟨rfl, rfl, rfl⟩

/-! ## Flags -/

theorem bitOf_eq_getLsbD (v : Byte) (k : Nat) : bitOf v k = v.getLsbD k := by
  rw [bitOf, BitVec.getLsbD, Nat.testBit_eq_decide_div_mod_eq]
  rfl

/-- Settles O23: `WriteFlag` writes one bit of F, and `FLAG_LAYOUT` gives no other flag that bit. -/
theorem flagIsolation : Obligations.FlagIsolation := by
  intro s f b
  have written : ∀ k, bitOf ((s.writeFlag f b).reg .f) k =
      if k = (flagPosition s.params.flagLayout f).val then b else bitOf (s.reg .f) k := by
    intro k
    rw [bitOf_eq_getLsbD, bitOf_eq_getLsbD]
    exact writeFlag_bit _ _ _ _ _
  refine ⟨?_, written, by simp, by simp [State.setFlagOf], by simp [State.clearFlagOf], fun g hg => by simp [hg],
    by simp, ?_⟩
  · rw [bitOf_eq_getLsbD]
    exact readFlag_eq_bit _ _ _
  · exact Quiet.of_frame ((Frame.refl s [] [] [f]).writeFlag List.mem_cons_self b) rfl rfl

end Sys2Proof.Machine
end

section
/-! PROOFS. What every instruction keeps and which signals it writes (10_state.md R36 to R38, R46 to R52): a property of
the answered state is carried through each shared operation once, and so is a change of state no operation sees. -/

namespace Sys2Proof.Machine

/-! ## A property of the state an instruction answers -/

/-- If the answer is a next state, it has the property. -/
def Ensures (P : State → Prop) (r : Result) : Prop := ∀ t, r = .next t → P t

section
variable {P : State → Prop} {s : State}

theorem Ensures.next {t : State} (h : P t) : Ensures P (.next t) := by
  intro u hu
  cases hu
  exact h

theorem Ensures.readIn {d : Domain} {a : Word} {k : Byte → Result} (h : ∀ v, Ensures P (k v)) :
    Ensures P (s.readIn d a k) := by
  intro t ht
  obtain ⟨v, -, hv⟩ := State.readIn_next ht
  exact h v t hv

theorem Ensures.write {a : Word} {v : Byte} {k : State → Result} (h : ∀ m, Ensures P (k { s with mem := m })) :
    Ensures P (s.write a v k) := by
  intro t ht
  obtain ⟨m, -, hm⟩ := State.write_next ht
  exact h m t hm

theorem Ensures.write16 {a v : Word} {k : State → Result} (h : ∀ m, Ensures P (k { s with mem := m })) :
    Ensures P (s.write16 a v k) := by
  intro t ht
  obtain ⟨_, m, -, -, hm⟩ := State.write16_next ht
  exact h m t hm

theorem Ensures.push16 {v : Word} {k : State → Result}
    (h : ∀ m, Ensures P (k ({ s with mem := m }.setPair .sp (s.pair .sp - 2)))) : Ensures P (s.push16 v k) := by
  intro t ht
  obtain ⟨_, m, -, -, hm⟩ := State.push16_next ht
  exact h m t hm

theorem Ensures.pop16 {k : Word → State → Result}
    (h : ∀ v, Ensures P (k v (s.setPair .sp (s.pair .sp + 2)))) : Ensures P (s.pop16 k) := by
  intro t ht
  obtain ⟨_, _, -, -, hk⟩ := State.pop16_next ht
  exact h _ t hk

theorem Ensures.callTo {a : Word}
    (h : ∀ m, P (({ s with mem := m }.setPair .sp (s.pair .sp - 2)).jump a)) : Ensures P (s.callTo a) :=
  .push16 fun m => .next (h m)

theorem Ensures.returnThen {k : State → Result}
    (h : ∀ v, Ensures P (k ((s.setPair .sp (s.pair .sp + 2)).jump v))) : Ensures P (s.returnThen k) := .pop16 h

theorem Ensures.storeAStep {delta : Word} (h : ∀ m, P ({ s with mem := m }.setPair .hl (s.pair .hl + delta))) :
    Ensures P (s.storeAStep delta) := by
  unfold State.storeAStep State.writeBack
  exact .write fun m => .next (h m)

theorem Ensures.conditionally {cc : Cond} {r : Result} (htaken : s.cond cc = true → Ensures P r)
    (hnot : s.cond cc = false → P (s.setAborted true)) : Ensures P (s.conditionally cc r) := by
  intro t ht
  rcases State.conditionally_next ht with ⟨hc, hr⟩ | ⟨hc, rfl⟩
  · exact htaken hc t hr
  · exact hnot hc

end

/-! ## Signals -/

/-- A conditional instruction leaves the signals alone if taken, and else sets `IsExecutionAborted`
(40_control_unit.md R183). -/
theorem Ensures.conditionally_signals {s : State} {cc : Cond} {r : Result}
    (h : Ensures (fun t => t.signals = s.signals) r) :
    Ensures (fun t => t.signals =
      { s.signals with isExecutionAborted := s.signals.isExecutionAborted || !s.cond cc }) (s.conditionally cc r) := by
  refine .conditionally (fun hc t ht => ?_) (fun hc => ?_)
  · rw [h t ht, hc, Bool.not_true, Bool.or_false]
  · rw [hc, Bool.not_false, Bool.or_true]
    rfl

theorem exec_signals (i : Instr) (s : State) : Ensures (fun t => t.signals = signalsAfter i s) (exec i s) := by
  cases i
  case jrCc | jpCc => exact .conditionally_signals (.next rfl)
  case callCc => exact .conditionally_signals (.callTo fun _ => rfl)
  case retCc => exact .conditionally_signals (.returnThen fun _ => .next rfl)
  case call | rst => exact .callTo fun _ => rfl
  case push => exact .push16 fun _ => .next rfl
  case ret => exact .returnThen fun _ => .next rfl
  case reti => exact show Ensures _ (execReti s) from .returnThen fun _ => .next rfl
  case pop qq => exact show Ensures _ (execPop qq s) from .pop16 fun _ => .next rfl
  case ldHliA | ldHldA => exact .storeAStep fun _ => rfl
  case ldNnSp => exact .write16 fun _ => .next rfl
  case ldBcA | ldDeA | ldHlN | ldHlR | ldhNA | ldCA | ldNnA => exact .write fun _ => .next rfl
  case ldABc | ldADe | ldAHli | ldAHld | ldRHl | ldhAN | ldAC | ldANn | addHl | adcHl | subHl | sbcHl | andHl | xorHl
    | orHl | cpHl | bitHl | lduRHl | lduABc | lduADe | lduAHli | lduAHld | lduANn | ldhuAN | lduAC =>
    exact .readIn fun _ => .next rfl
  case incHl | decHl | rlcHl | rrcHl | rlHl | rrHl | slaHl | sraHl | swapHl | srlHl | resHl | setHl =>
    exact .readIn fun _ => .write fun _ => .next rfl
  all_goals exact .next rfl

/-- Settles O19: along the operation each instruction is made of, one case per shape. -/
theorem signalWriters : Obligations.SignalWriters := fun s t i h => exec_signals i s t h

/-! ## The registers no encoding names -/

/-- IR, PIR, IX and IY: the registers that are the operand of no instruction (10_state.md R36, R37). -/
def State.unnamed (s : State) : Byte × Byte × Word × Word := (s.reg .ir, s.reg .pir, s.pair .ix, s.pair .iy)

theorem State.unnamed_eq {s : State} {ir pir : Byte} {ix iy : Word} :
    s.unnamed = (ir, pir, ix, iy) ↔ s.reg .ir = ir ∧ s.reg .pir = pir ∧ s.pair .ix = ix ∧ s.pair .iy = iy := by
  simp [State.unnamed]

section
variable (s : State)

theorem State.unnamed_setReg {r : Reg8} (h : r.isOperand = true) (v : Byte) :
    (s.setReg r v).unnamed = s.unnamed := by
  cases r
  case ir | pir | f => cases h
  all_goals rfl

theorem State.unnamed_setAluPair {rr : Reg16} (h : rr.isAluPair = true) (v : Word) :
    (s.setPair rr v).unnamed = s.unnamed := by
  cases rr
  case af | pc | ix | iy => cases h
  all_goals rfl

theorem State.unnamed_setStackPair {qq : Reg16} (h : qq.isStackPair = true) (v : Word) :
    (s.setPair qq v).unnamed = s.unnamed := by
  cases qq
  case sp | pc | ix | iy => cases h
  all_goals rfl

@[simp] theorem State.unnamed_setReg_a (v : Byte) : (s.setReg .a v).unnamed = s.unnamed := rfl
@[simp] theorem State.unnamed_setPair_hl (v : Word) : (s.setPair .hl v).unnamed = s.unnamed := rfl
@[simp] theorem State.unnamed_setPair_sp (v : Word) : (s.setPair .sp v).unnamed = s.unnamed := rfl
@[simp] theorem State.unnamed_jump (v : Word) : (s.jump v).unnamed = s.unnamed := rfl
@[simp] theorem State.unnamed_writeFlag (f : Flag) (b : Bool) : (s.writeFlag f b).unnamed = s.unnamed := rfl

@[simp] theorem State.unnamed_writeFlags (z n h cy : Bool) : (s.writeFlags z n h cy).unnamed = s.unnamed := by
  simp [State.writeFlags]
@[simp] theorem State.unnamed_incFlags (v : Byte) : (s.incFlags v).unnamed = s.unnamed := by
  simp [State.incFlags]
@[simp] theorem State.unnamed_decFlags (v : Byte) : (s.decFlags v).unnamed = s.unnamed := by
  simp [State.decFlags]
@[simp] theorem State.unnamed_bitFlags (v : Byte) (b : BitVec 3) : (s.bitFlags v b).unnamed = s.unnamed := by
  simp [State.bitFlags]
@[simp] theorem State.unnamed_shiftFlags (o : ShiftOut) : (s.shiftFlags o).unnamed = s.unnamed := by
  simp [State.shiftFlags]
@[simp] theorem State.unnamed_addA (v : Byte) (c : Bool) : (s.addA v c).unnamed = s.unnamed := by
  simp [State.addA, State.flagsOf]
@[simp] theorem State.unnamed_subA (v : Byte) (c : Bool) : (s.subA v c).unnamed = s.unnamed := by
  simp [State.subA, State.flagsOf]
@[simp] theorem State.unnamed_cpA (v : Byte) : (s.cpA v).unnamed = s.unnamed := by
  simp [State.cpA, State.flagsOf]
@[simp] theorem State.unnamed_logicA (v : Byte) (h : Bool) : (s.logicA v h).unnamed = s.unnamed := by
  simp [State.logicA]
@[simp] theorem State.unnamed_rotateA (o : ShiftOut) : (s.rotateA o).unnamed = s.unnamed := by
  simp [State.rotateA]

end

theorem State.unnamed_withMemory (m : Memory) (s : State) : ({ s with mem := m } : State).unnamed = s.unnamed := rfl

theorem State.shiftHl_unnamed (s : State) (f : Byte → ShiftOut) :
    Ensures (fun t => t.unnamed = s.unnamed) (s.shiftHl f) :=
  .readIn fun v => .write fun m =>
    .next ((State.unnamed_withMemory m (s.shiftFlags (f v))).trans (s.unnamed_shiftFlags _))

/-- The registers an instruction writes are the ones it names and A, F, HL, SP and PC. -/
theorem exec_unnamed {i : Instr} (hw : i.wf = true) (s : State) :
    Ensures (fun t => t.unnamed = s.unnamed) (exec i s) := by
  cases i
  case jrCc | jpCc => exact .conditionally (fun _ => .next rfl) (fun _ => rfl)
  case callCc => exact .conditionally (fun _ => .callTo fun _ => rfl) (fun _ => rfl)
  case retCc => exact .conditionally (fun _ => .returnThen fun _ => .next rfl) (fun _ => rfl)
  case call | rst => exact .callTo fun _ => rfl
  case push => exact .push16 fun _ => .next rfl
  case ret => exact .returnThen fun _ => .next rfl
  case reti => exact show Ensures _ (execReti s) from .returnThen fun _ => .next rfl
  case pop qq =>
    exact show Ensures _ (execPop qq s) from .pop16 fun _ => .next (State.unnamed_setStackPair _ hw _)
  case ldRrNn | incRr | decRr => exact .next (s.unnamed_setAluPair hw _)
  case ldHliA | ldHldA => exact .storeAStep fun _ => State.unnamed_setPair_hl _ _
  case ldNnSp => exact .write16 fun _ => .next rfl
  case ldBcA | ldDeA | ldHlN | ldHlR | ldhNA | ldCA | ldNnA => exact .write fun _ => .next rfl
  case ldRHl | lduRHl => exact .readIn fun _ => .next (s.unnamed_setReg hw _)
  case ldAHli | ldAHld | lduAHli | lduAHld =>
    exact .readIn fun _ => .next (State.unnamed_setPair_hl _ _)
  case ldABc | ldADe | ldhAN | ldAC | ldANn | lduABc | lduADe | lduANn | ldhuAN
    | lduAC => exact .readIn fun _ => .next rfl
  case addHl | adcHl | subHl | sbcHl | andHl | xorHl | orHl | cpHl | bitHl =>
    exact .readIn fun _ => .next (by simp)
  case incHl => exact .readIn fun _ => .write fun _ => .next (s.unnamed_incFlags _)
  case decHl => exact .readIn fun _ => .write fun _ => .next (s.unnamed_decFlags _)
  case rlcHl | rrcHl | rlHl | rrHl | slaHl | sraHl | swapHl | srlHl =>
    exact s.shiftHl_unnamed _
  case resHl | setHl => exact .readIn fun _ => .write fun _ => .next rfl
  case ldRR => exact .next (s.unnamed_setReg (Bool.and_eq_true_iff.1 hw).1 _)
  case ldRN | resR | setR => exact .next (s.unnamed_setReg hw _)
  case incR => exact .next ((State.unnamed_incFlags _ _).trans (s.unnamed_setReg hw _))
  case decR => exact .next ((State.unnamed_decFlags _ _).trans (s.unnamed_setReg hw _))
  case rlcR | rrcR | rlR | rrR | slaR | sraR | swapR | srlR =>
    exact .next ((State.unnamed_shiftFlags _ _).trans (s.unnamed_setReg hw _))
  case nop | stop | halt | di | ei | jpu => exact .next rfl
  all_goals exact .next (by simp [State.spFlags])

end Sys2Proof.Machine
end

section
/-! PROOFS. A change of the state that no operation of an instruction sees passes through the instruction: it is carried
through each shared operation once. -/

namespace Sys2Proof.Machine

/-- The answer with its next state changed; a fault stays as it is. -/
def mapNext (f : State → State) : Result → Result
  | .next t => .next (f t)
  | .fault r => .fault r
  | .refused q => .refused q

section
variable {f : State → State} {s s' : State}

theorem readIn_mapNext {d : Domain} {a : Word} {k k' : Byte → Result} (hm : s'.mem = s.mem)
    (hk : ∀ v, k' v = mapNext f (k v)) : s'.readIn d a k' = mapNext f (s.readIn d a k) := by
  unfold State.readIn State.orRaise State.raise
  rw [hm]
  cases s.mem.readByte d a .read with
  | ok v => exact hk v
  | error c => rfl

theorem write_mapNext {a : Word} {v : Byte} {k k' : State → Result} (hm : s'.mem = s.mem) (hd : s'.mode = s.mode)
    (hk : ∀ m, k' { s' with mem := m } = mapNext f (k { s with mem := m })) :
    s'.write a v k' = mapNext f (s.write a v k) := by
  unfold State.write State.orRaise State.raise
  rw [hm, hd]
  cases s.mem.writeByte s.mode a v with
  | ok m => exact hd ▸ hk m
  | error c => rfl

theorem checkStraddle_mapNext {a : Word} {kind : AccessKind} {r r' : Result} (hm : s'.mem = s.mem)
    (hd : s'.mode = s.mode) (hp : s'.params = s.params) (hr : r' = mapNext f r) :
    s'.checkStraddle a kind r' = mapNext f (s.checkStraddle a kind r) := by
  unfold State.checkStraddle State.unlessRaised State.raise
  rw [hm, hd, hp]
  cases s.mem.straddleCheck s.params.straddleFault s.mode a kind with
  | none => exact hr
  | some c => rfl

theorem conditionally_mapNext {cc : Cond} {r r' : Result} (hc : s'.cond cc = s.cond cc) (hr : r' = mapNext f r)
    (ha : s'.setAborted true = f (s.setAborted true)) :
    s'.conditionally cc r' = mapNext f (s.conditionally cc r) := by
  unfold State.conditionally
  rw [hc]
  split
  · exact hr
  · exact congrArg _ ha

end

/-! ## The alternate bank -/

/-- The state with another alternate bank. -/
def State.withAlt (s : State) (b : RegBank) : State := { s with alt := b }

section
variable (s : State) (b : RegBank)

@[simp] theorem State.withAlt_reg (r : Reg8) : (s.withAlt b).reg r = s.reg r := rfl
@[simp] theorem State.withAlt_pair (rr : Reg16) : (s.withAlt b).pair rr = s.pair rr := rfl
@[simp] theorem State.withAlt_flag (f : Flag) : (s.withAlt b).flag f = s.flag f := rfl
@[simp] theorem State.withAlt_params : (s.withAlt b).params = s.params := rfl
@[simp] theorem State.withAlt_cond (cc : Cond) : (s.withAlt b).cond cc = s.cond cc := by cases cc <;> rfl

@[simp] theorem State.withAlt_setReg (r : Reg8) (v : Byte) :
    (s.withAlt b).setReg r v = (s.setReg r v).withAlt b := rfl
@[simp] theorem State.withAlt_setPair (rr : Reg16) (v : Word) :
    (s.withAlt b).setPair rr v = (s.setPair rr v).withAlt b := rfl
@[simp] theorem State.withAlt_writeFlag (f : Flag) (x : Bool) :
    (s.withAlt b).writeFlag f x = (s.writeFlag f x).withAlt b := rfl
@[simp] theorem State.withAlt_writeFlags (z n h cy : Bool) :
    (s.withAlt b).writeFlags z n h cy = (s.writeFlags z n h cy).withAlt b := by
  simp [State.writeFlags]
@[simp] theorem State.withAlt_incFlags (v : Byte) : (s.withAlt b).incFlags v = (s.incFlags v).withAlt b := by
  simp [State.incFlags]
@[simp] theorem State.withAlt_decFlags (v : Byte) : (s.withAlt b).decFlags v = (s.decFlags v).withAlt b := by
  simp [State.decFlags]
@[simp] theorem State.withAlt_bitFlags (v : Byte) (k : BitVec 3) :
    (s.withAlt b).bitFlags v k = (s.bitFlags v k).withAlt b := by
  simp [State.bitFlags]
@[simp] theorem State.withAlt_shiftFlags (o : ShiftOut) :
    (s.withAlt b).shiftFlags o = (s.shiftFlags o).withAlt b := by
  simp [State.shiftFlags]
@[simp] theorem State.withAlt_addA (v : Byte) (c : Bool) : (s.withAlt b).addA v c = (s.addA v c).withAlt b := by
  simp [State.addA, State.flagsOf]
@[simp] theorem State.withAlt_subA (v : Byte) (c : Bool) : (s.withAlt b).subA v c = (s.subA v c).withAlt b := by
  simp [State.subA, State.flagsOf]
@[simp] theorem State.withAlt_cpA (v : Byte) : (s.withAlt b).cpA v = (s.cpA v).withAlt b := by
  simp [State.cpA, State.flagsOf]
@[simp] theorem State.withAlt_logicA (v : Byte) (h : Bool) :
    (s.withAlt b).logicA v h = (s.logicA v h).withAlt b := by
  simp [State.logicA]
@[simp] theorem State.withAlt_rotateA (o : ShiftOut) : (s.withAlt b).rotateA o = (s.rotateA o).withAlt b := by
  simp [State.rotateA]
@[simp] theorem State.withAlt_shiftReg (r : Reg8) (o : ShiftOut) :
    (s.withAlt b).shiftReg r o = (s.shiftReg r o).withAlt b := by
  simp [State.shiftReg]

/-- The answers agree but for the alternate bank `b` in the next state of the first. -/
def SameButAlt (b : RegBank) (r' r : Result) : Prop := r' = mapNext (fun t => t.withAlt b) r

variable {s b}

theorem SameButAlt.next {t t' : State} (h : t' = t.withAlt b) : SameButAlt b (.next t') (.next t) :=
  congrArg _ h

theorem SameButAlt.readIn {d : Domain} {a : Word} {k k' : Byte → Result} (hk : ∀ v, SameButAlt b (k' v) (k v)) :
    SameButAlt b ((s.withAlt b).readIn d a k') (s.readIn d a k) := readIn_mapNext rfl hk

theorem SameButAlt.write {a : Word} {v : Byte} {k k' : State → Result}
    (hk : ∀ t : State, SameButAlt b (k' (t.withAlt b)) (k t)) :
    SameButAlt b ((s.withAlt b).write a v k') (s.write a v k) := write_mapNext rfl rfl fun m => hk { s with mem := m }

theorem SameButAlt.write16 {a v : Word} {k k' : State → Result}
    (hk : ∀ t : State, SameButAlt b (k' (t.withAlt b)) (k t)) :
    SameButAlt b ((s.withAlt b).write16 a v k') (s.write16 a v k) :=
  checkStraddle_mapNext rfl rfl rfl (SameButAlt.write fun _ => SameButAlt.write hk)

theorem SameButAlt.push16 {v : Word} {k k' : State → Result}
    (hk : ∀ t : State, SameButAlt b (k' (t.withAlt b)) (k t)) :
    SameButAlt b ((s.withAlt b).push16 v k') (s.push16 v k) :=
  checkStraddle_mapNext rfl rfl rfl (SameButAlt.write fun _ => SameButAlt.write fun t => hk (t.setPair .sp _))

theorem SameButAlt.pop16 {k k' : Word → State → Result}
    (hk : ∀ v (t : State), SameButAlt b (k' v (t.withAlt b)) (k v t)) :
    SameButAlt b ((s.withAlt b).pop16 k') (s.pop16 k) :=
  checkStraddle_mapNext rfl rfl rfl
    (SameButAlt.readIn fun _ => SameButAlt.readIn fun _ => hk _ (s.setPair .sp (s.pair .sp + 2)))

theorem SameButAlt.callTo (a : Word) : SameButAlt b ((s.withAlt b).callTo a) (s.callTo a) :=
  SameButAlt.push16 fun _ => .next rfl

theorem SameButAlt.returnThen {k k' : State → Result} (hk : ∀ t : State, SameButAlt b (k' (t.withAlt b)) (k t)) :
    SameButAlt b ((s.withAlt b).returnThen k') (s.returnThen k) :=
  SameButAlt.pop16 fun v t => hk (t.jump v)

theorem SameButAlt.storeAStep (delta : Word) : SameButAlt b ((s.withAlt b).storeAStep delta) (s.storeAStep delta) := by
  unfold State.storeAStep State.writeBack
  exact .write fun _ => .next rfl

theorem SameButAlt.modifyHl {f f' : Byte → Byte × State} (hf : ∀ m, f' m = ((f m).1, (f m).2.withAlt b)) :
    SameButAlt b ((s.withAlt b).modifyHl f') (s.modifyHl f) := by
  refine SameButAlt.readIn fun m => ?_
  rw [hf]
  exact SameButAlt.write fun _ => .next rfl

theorem SameButAlt.conditionally {cc : Cond} {r r' : Result} (hr : SameButAlt b r' r) :
    SameButAlt b ((s.withAlt b).conditionally cc r') (s.conditionally cc r) :=
  conditionally_mapNext (s.withAlt_cond b cc) hr rfl

end

/-- No instruction reads the alternate bank (10_state.md R38). -/
theorem exec_withAlt (i : Instr) (s : State) (b : RegBank) : SameButAlt b (exec i (s.withAlt b)) (exec i s) := by
  cases i
  case jrCc | jpCc => exact .conditionally (.next rfl)
  case callCc => exact .conditionally (.callTo _)
  case retCc => exact .conditionally (.returnThen fun _ => .next rfl)
  case call | rst => exact .callTo _
  case push => exact .push16 fun _ => .next rfl
  case ret => exact .returnThen fun _ => .next rfl
  case reti =>
    exact show SameButAlt b (execReti _) (execReti s) from .returnThen fun _ => .next rfl
  case pop qq => exact show SameButAlt b (execPop qq _) (execPop qq s) from .pop16 fun _ _ => .next rfl
  case ldNnSp => exact .write16 fun _ => .next rfl
  case ldHliA | ldHldA => exact .storeAStep _
  case ldBcA | ldDeA | ldHlN | ldHlR | ldhNA | ldCA | ldNnA => exact .write fun _ => .next rfl
  case ldABc | ldADe | ldAHli | ldAHld | ldRHl | ldhAN | ldAC | ldANn | lduRHl | lduABc | lduADe | lduAHli | lduAHld
    | lduANn | ldhuAN | lduAC => exact readIn_mapNext rfl fun _ => rfl
  case addHl | adcHl | subHl | sbcHl | andHl | xorHl | orHl | cpHl | bitHl =>
    exact .readIn fun _ => .next (by simp)
  case incHl | decHl | rlcHl | rrcHl | rlHl | rrHl | slaHl | sraHl | swapHl | srlHl | resHl | setHl =>
    exact .modifyHl fun _ => by simp
  case nop | stop | halt | di | ei | jr | jp | jpHl | jpu => exact .next rfl
  all_goals exact .next (by simp [State.spFlags])

end Sys2Proof.Machine
end

section
/-! PROOFS. The decoder answers well-formed instructions, and the opcode fetch fills IR and PIR: with the registers no
encoding names, what a step leaves in IR and PIR (10_state.md R36 to R38). -/

namespace Sys2Proof

/-! ## The decoder names operands of the fields only (30_encoding.md R136 to R138) -/

/-- The instruction a template becomes with operand bytes `v`; a one-byte operand is the low byte. -/
def Template.instr : Template → Word → Instr
  | .done i, _ => i
  | .imm8 f, v => f v.low
  | .imm16 f, v => f v

/-- Every instruction the template becomes is well-formed. -/
def Template.wf (t : Template) : Prop := ∀ v, (t.instr v).wf = true

theorem regField_isOperand {z : Nat} {r : Reg8} (h : regField z = some r) : r.isOperand = true := by
  unfold regField at h
  split at h <;> cases h <;> rfl

theorem aluPairField_isAluPair (n : Nat) : (aluPairField n).isAluPair = true := by
  unfold aluPairField
  split <;> rfl

theorem stackPairField_isStackPair (n : Nat) : (stackPairField n).isStackPair = true := by
  unfold stackPairField
  split <;> rfl

theorem onOperand_wf (z : Nat) {reg : Reg8 → Instr} {hl : Instr} (hr : ∀ r, (reg r).wf = r.isOperand)
    (hh : hl.wf = true) : (onOperand z reg hl).wf := by
  unfold onOperand
  split
  · rename_i r h
    exact fun _ => (hr r).trans (regField_isOperand h)
  · exact fun _ => hh

theorem decodeX0_wf (p : Config.Parameters) (y z : Nat) : (decodeX0 p y z).wf := by
  unfold decodeX0
  split
  · split
    case h_3 => split <;> exact fun _ => rfl
    all_goals exact fun _ => rfl
  · split <;> exact fun _ => aluPairField_isAluPair _
  · split <;> exact fun _ => rfl
  · split <;> exact fun _ => aluPairField_isAluPair _
  · exact onOperand_wf y (fun _ => rfl) rfl
  · exact onOperand_wf y (fun _ => rfl) rfl
  · split
    · exact fun _ => regField_isOperand ‹_›
    · exact fun _ => rfl
  · split <;> exact fun _ => rfl

theorem decodeX1_wf (y z : Nat) : (decodeX1 y z).wf := by
  unfold decodeX1
  split
  · exact fun _ => rfl
  · rename_i r hr _
    exact fun _ => regField_isOperand hr
  · rename_i r _ hr
    exact fun _ => regField_isOperand hr
  · rename_i r r' hr hr'
    exact fun _ => Bool.and_eq_true_iff.2 ⟨regField_isOperand hr, regField_isOperand hr'⟩

theorem decodeX2_wf (y z : Nat) : (decodeX2 y z).wf := by
  unfold decodeX2
  split <;> exact onOperand_wf z (fun _ => rfl) rfl

theorem decodeX3_wf (y z : Nat) : ∀ t ∈ decodeX3 y z, t.wf := by
  unfold decodeX3
  split
  · split <;> rintro _ ⟨⟩ <;> exact fun _ => rfl
  · split
    case h_5 =>
      rintro _ ⟨⟩
      exact fun _ => stackPairField_isStackPair _
    all_goals
      rintro _ ⟨⟩
      exact fun _ => rfl
  · split <;> rintro _ ⟨⟩ <;> exact fun _ => rfl
  · split <;> rintro _ ⟨⟩ <;> exact fun _ => rfl
  · split <;> rintro _ ⟨⟩
    exact fun _ => rfl
  · split
    · rintro _ ⟨⟩
      exact fun _ => stackPairField_isStackPair _
    · split <;> rintro _ ⟨⟩
      exact fun _ => rfl
  · split <;> rintro _ ⟨⟩ <;> exact fun _ => rfl
  · rintro _ ⟨⟩
    exact fun _ => rfl

theorem decodeBase_wf {p : Config.Parameters} {o : Byte} {t : Template} (h : decodeBase p o = .ok t) : t.wf := by
  unfold decodeBase at h
  split at h
  · cases h
    exact decodeX0_wf p _ _
  · cases h
    exact decodeX1_wf _ _
  · cases h
    exact decodeX2_wf _ _
  · split at h
    · cases h
      exact decodeX3_wf _ _ t ‹_›
    · cases h

theorem decodeCb_wf (o : Byte) : (decodeCb o).wf := by
  fun_cases decodeCb o <;> exact onOperand_wf _ (fun _ => rfl) rfl

theorem gbxForm_wf (base : Byte) : ∀ t ∈ gbxForm base, t.wf := by
  fun_cases gbxForm base
  case case9 =>
    intro t ht
    obtain ⟨r, hr, rfl⟩ := Option.map_eq_some_iff.1 ht
    exact fun _ => regField_isOperand hr
  case case10 => rintro _ ⟨⟩
  all_goals
    rintro _ ⟨⟩
    exact fun _ => rfl

theorem decodeGbx_wf {p : Config.Parameters} {o : Byte} {t : Template} (h : decodeGbx p o = .ok t) : t.wf := by
  unfold decodeGbx at h
  split at h
  · rename_i t' ht
    cases h
    obtain ⟨base, -, hb⟩ := Option.bind_eq_some_iff.1 ht
    exact gbxForm_wf base t hb
  · cases h

theorem decodeIndex_wf {p : Config.Parameters} {pir o : Byte} {t : Template} (h : decodeIndex p pir o = .ok t) :
    t.wf := by
  unfold decodeIndex at h
  split at h
  · cases h
  · split at h
    · cases h
      exact decodeBase_wf ‹_›
    · cases h

/-- Whatever the tables, the decoder answers well-formed instructions (30_encoding.md R136 to R138). -/
theorem decodeOpcode_wf {p : Config.Parameters} {pir o : Byte} {t : Template} (h : decodeOpcode p pir o = .ok t) :
    t.wf := by
  unfold decodeOpcode at h
  split at h
  · cases h
    exact decodeCb_wf o
  · split at h
    · exact decodeGbx_wf h
    · split at h
      · exact decodeIndex_wf h
      · exact decodeBase_wf h

namespace Machine

/-- The operand fetch fills in the template and moves PC, and nothing else (40_control_unit.md R176). -/
theorem State.fetchOperands_ok {s s' : State} {t : Template} {i : Instr} (h : s.fetchOperands t = .ok (i, s')) :
    ∃ v a, i = t.instr v ∧ s' = s.setPair .pc a := by
  unfold State.fetchOperands at h
  split at h
  · cases h
    exact ⟨0, s.pair .pc, rfl, rfl⟩
  · split at h
    · cases h
    · rename_i f _ n s1 h1
      cases h
      exact ⟨Word.ofBytes 0 n, _, congrArg f (Word.low_ofBytes 0 n).symm, (State.fetchByte_ok h1).2⟩
  · split at h
    · cases h
    · split at h
      · cases h
      · rename_i h1
        split at h
        · cases h
        · rename_i h2
          cases h
          rw [(State.fetchByte_ok h2).2, (State.fetchByte_ok h1).2]
          exact ⟨_, _, rfl, rfl⟩

/-- The fetch answers well-formed instructions. -/
theorem State.fetchInstr_wf {s s' : State} {i : Instr} (h : s.fetchInstr = .ok (i, s')) : i.wf = true := by
  obtain ⟨s1, t, -, ht, ho⟩ := State.fetchInstr_ok h
  obtain ⟨v, _, rfl, -⟩ := State.fetchOperands_ok ho
  exact decodeOpcode_wf ht v

/-! ## IR and PIR -/

/-- The opcode fetch leaves the pre-opcode, or 0, in PIR and the opcode in IR, with PC past them
(30_encoding.md R134, 40_control_unit.md R172). -/
theorem State.fetchOpcode_read {s : State} {p o : Byte} {a : Word} (h : OpcodeRead s p o a) :
    s.fetchOpcode = .ok (((s.setPair .pc a).setReg .pir p).setReg .ir o) := by
  cases h with
  | unprefixed _ ho hb =>
    unfold State.fetchOpcode
    rw [State.fetchByte_peek hb]
    simp [ho]
  | prefixed _ _ hp hb hb' =>
    have second : ((s.setPair .pc (s.pair .pc + 1)).setReg .pir p).fetchByte =
        .ok (o, ((s.setPair .pc (s.pair .pc + 1)).setReg .pir p).setPair .pc (s.pair .pc + 1 + 1)) :=
      State.fetchByte_peek hb'
    have succ : s.pair .pc + 1 + 1 = s.pair .pc + 2 := BitVec.add_assoc _ _ _
    unfold State.fetchOpcode
    rw [State.fetchByte_peek hb]
    simp only [hp, if_true]
    rw [second, succ]
    rfl

/-- What a step leaves in the registers no encoding names is what the opcode fetch left there. -/
theorem step_unnamed {s t : State} {p o : Byte} {a : Word} (hr : OpcodeRead s p o a) (h : step s = .next t) :
    t.unnamed = (o, p, s.pair .ix, s.pair .iy) := by
  obtain ⟨-, i, s1, t1, hi, ht, rfl⟩ := step_next h
  obtain ⟨s2, _, h2, -, h1⟩ := State.fetchInstr_ok hi
  obtain ⟨_, a', -, rfl⟩ := State.fetchOperands_ok h1
  have hr' : OpcodeRead s.beginCycle p o a := by
    cases hr with
    | unprefixed _ ho hb => exact .unprefixed o ho hb
    | prefixed _ _ hp hb hb' => exact .prefixed p o hp hb hb'
  cases (State.fetchOpcode_read hr').symm.trans h2
  calc t1.postCycle.unnamed
    _ = t1.unnamed := by simp [State.unnamed, State.reg, State.pair]
    _ = _ := exec_unnamed (State.fetchInstr_wf hi) _ t1 ht
    _ = (o, p, s.pair .ix, s.pair .iy) := rfl

theorem step_scratch {s t : State} {p o : Byte} {a : Word} (hr : OpcodeRead s p o a) (h : step s = .next t) :
    t.reg .ir = o ∧ t.reg .pir = p := by
  obtain ⟨hir, hpir, -⟩ := State.unnamed_eq.1 (step_unnamed hr h)
  exact ⟨hir, hpir⟩

/-- Settles O14: the opcode fetch writes IR and PIR, and no well-formed instruction names them. -/
theorem scratchRegisters : Obligations.ScratchRegisters := by
  refine ⟨fun s t i hw h => ?_, fun s t o h hb ho => step_scratch (.unprefixed o ho hb) h,
    fun s t p o h hb hb' hp => step_scratch (.prefixed p o hp hb hb') h⟩
  obtain ⟨hir, hpir, -⟩ := State.unnamed_eq.1 (exec_unnamed hw s t h)
  exact ⟨hir, hpir⟩

/-- Settles O18: the registers no encoding names stay, and no instruction reads the alternate bank. -/
theorem unusedStateUntouched : Obligations.UnusedStateUntouched := by
  intro s t i hw h
  obtain ⟨halt, -, hfault, hdraws, hparams, -⟩ := exec_next h
  obtain ⟨-, -, hix, hiy⟩ := State.unnamed_eq.1 (exec_unnamed hw s t h)
  refine ⟨halt, hix, hiy, hfault, hdraws, hparams, fun b => ?_⟩
  have hb := exec_withAlt i s b
  rw [h] at hb
  exact hb

end Machine
end Sys2Proof
end

section
/-! PROOFS. The statements of 20_memory.md about the Memory Controller and the resources, and what a step leaves of
memory: its form and its configuration. -/

namespace Sys2Proof.Machine

/-! ## The table (20_memory.md R88 to R93) -/

theorem AddressRange.overlaps_of_contains {g g' : AddressRange} {a : Word} (h : g.contains a = true)
    (h' : g'.contains a = true) : g.overlaps g' = true := by
  unfold AddressRange.contains at h h'
  unfold AddressRange.overlaps AddressRange.bound
  cases hg : g.type <;> cases hg' : g'.type <;>
    simp only [hg, hg', Bool.and_eq_true, decide_eq_true_eq] at h h' ⊢ <;> omega

theorem mem_insertEntry {e x : Entry} {t : List Entry} : x ∈ insertEntry e t ↔ x = e ∨ x ∈ t := by
  induction t with
  | nil => simp [insertEntry]
  | cons y rest ih =>
    unfold insertEntry
    split
    · simp
    · simp only [List.mem_cons, ih]
      exact or_left_comm

theorem Memory.covers_iff {m : Memory} {d : Domain} {a : Word} :
    m.covers d a = true ↔ ∃ e ∈ m.table, e.ownership = d ∧ e.range.contains a = true := by
  simp [Memory.covers, Memory.route, List.find?_isSome]

/-- All a registration can do: no entry of the domain overlaps the range, and the table has one entry more
(20_memory.md R90). -/
theorem Memory.register_ok {m m' : Memory} {n : Nat} {g : AddressRange} {own : Domain}
    (h : m.register n g own = .ok m') :
    (∀ e ∈ m.table, e.ownership = own → e.range.overlaps g = false) ∧
      m' = { m with table := insertEntry { resource := n, range := g, ownership := own } m.table } := by
  unfold Memory.register at h
  split at h
  · cases h
  · split at h
    · cases h
    · split at h
      · cases h
      · rename_i hov
        cases h
        refine ⟨fun e he ho => ?_, rfl⟩
        simpa [ho] using List.any_eq_false.1 (Bool.eq_false_iff.2 hov) e he

/-- Every refusal of a registration is a `MemoryControllerException` (20_memory.md R90). -/
theorem Memory.register_error {m : Memory} {n : Nat} {g : AddressRange} {own : Domain} {c : FaultCause}
    (h : m.register n g own = .error c) : exceptionOf c = .memoryController := by
  unfold Memory.register at h
  split at h
  · cases h; rfl
  · split at h
    · cases h; rfl
    · split at h
      · cases h; rfl
      · cases h

/-- A registration covers its range, and what was covered. -/
theorem Memory.covers_register {m m' : Memory} {n : Nat} {g : AddressRange} {own : Domain}
    (h : m.register n g own = .ok m') (d : Domain) (a : Word) :
    m'.covers d a = true ↔ (own = d ∧ g.contains a = true) ∨ m.covers d a = true := by
  obtain ⟨-, rfl⟩ := Memory.register_ok h
  simp [Memory.covers_iff, mem_insertEntry]

/-- Settles O25: the second registration cannot succeed, because the two ranges share the address. -/
theorem overlapRejection : Obligations.OverlapRejection := by
  intro m m' n n' g g' own a h hg hg'
  cases h' : m'.register n' g' own with
  | error c => exact ⟨c, rfl, Memory.register_error h'⟩
  | ok m'' =>
    obtain ⟨-, rfl⟩ := Memory.register_ok h
    obtain ⟨hno, -⟩ := Memory.register_ok h'
    have hfree := hno _ (mem_insertEntry.2 (.inl rfl)) rfl
    rw [AddressRange.overlaps_of_contains hg hg'] at hfree
    cases hfree

/-- Settles O26: the range covers 0x0200 and 0x02FF, and neither of the addresses next to it. -/
theorem boundaryLaw : Obligations.BoundaryLaw := by
  intro m m' n own k v h hlow hhigh
  have outside : ∀ {a : Word}, AddressRange.contains ⟨0x0200#16, 0x0300#16, .halfOpen⟩ a = false →
      m.covers own a = false → m'.covers own a = false := by
    intro a ha hm
    rw [← Bool.not_eq_true, Memory.covers_register h, ha, hm]
    simp
  have inside : ∀ {a : Word}, AddressRange.contains ⟨0x0200#16, 0x0300#16, .halfOpen⟩ a = true →
      m'.covers own a = true := fun ha => (Memory.covers_register h _ _).2 (.inl ⟨rfl, ha⟩)
  exact ⟨⟨_, Memory.readByte_of_not_covers k (outside (by decide) hlow), rfl⟩,
    ⟨_, Memory.writeByte_of_not_covers v (outside (by decide) hhigh), rfl⟩, inside (by decide), inside (by decide)⟩

/-! ## Routing, reading and writing -/

/-- A byte write changes no resource but the one the address is routed to. -/
theorem Memory.writeByte_resource_ne {m m' : Memory} {d : Domain} {a : Word} {v : Byte} {e : Entry}
    (h : m.writeByte d a v = .ok m') (he : m.route d a = some e) {n : Nat} (hn : n ≠ e.resource) :
    m'.resources[n]? = m.resources[n]? := by
  obtain ⟨_, r, o, ht, -, -, rfl⟩ := Memory.writeByte_ok h
  obtain ⟨e', he', rfl, -⟩ := Memory.target_some ht
  cases he.symm.trans he'
  exact List.getElem?_set_ne hn.symm

/-- Settles O27: in a well-formed memory the entry is the one its addresses are routed to. -/
theorem routingLaw : Obligations.RoutingLaw := by
  intro m e a hwf he ha
  have hroute := Memory.route_of_mem hwf he ha
  obtain ⟨e', r, he', -, -, -, hr, ht, -⟩ := Memory.target_of_covers hwf
    (Memory.covers_iff.2 ⟨e, he, rfl, ha⟩)
  cases hroute.symm.trans he'
  refine ⟨r, hr, fun k => ?_, fun v m' h n => Memory.writeByte_resource_ne h hroute⟩
  unfold Memory.readByte
  rw [ht]
  rfl

/-- Settles O28: a writable byte is written, and is read through every address that names it. -/
theorem readAfterWrite : Obligations.ReadAfterWrite := by
  intro s a v hwf hw
  obtain ⟨m, hm⟩ := Memory.writeByte_writable v hw
  have hstored : StoredByte s { s with mem := m } a v := .of_writeByte hwf hm rfl
  exact ⟨m, hm, Memory.writeByte_wf hwf hm, hstored.stored _ a rfl, hstored⟩

/-! ## Banks (20_memory.md R84, R86, R87) -/

@[simp] theorem Resource.putAll_kind (r : Resource) (o : Nat) (data : List Byte) : (r.putAll o data).kind = r.kind := by
  induction data generalizing r o with
  | nil => rfl
  | cons v rest ih => simp [Resource.putAll, ih]

/-- A load stores its bytes from the offset on, and no byte below it. -/
theorem Resource.cellGet_putAll {r : Resource} (h : r.wf = true) {o : Nat} {data : List Byte}
    (hd : o + data.length ≤ r.size) : (∀ j < o, cellGet (r.putAll o data).cells j = cellGet r.cells j) ∧
      ∀ j < data.length, cellGet (r.putAll o data).cells (o + j) = data.getD j 0 := by
  induction data generalizing r o with
  | nil => exact ⟨fun _ _ => rfl, fun j hj => absurd hj (Nat.not_lt_zero j)⟩
  | cons v rest ih =>
    simp only [List.length_cons] at hd
    have hcells := (Bool.and_eq_true_iff.1 h).1
    obtain ⟨below, stored⟩ := ih (Resource.put_wf h (by omega : o < r.size) v) (o := o + 1)
      (by rw [Resource.put_size]; omega)
    refine ⟨fun j hj => (below j (by omega)).trans (cellGet_cellSet_ne _ _ _ _ (by omega)), fun j hj => ?_⟩
    cases j with
    | zero => exact (below o (by omega)).trans (cellGet_cellSet_self o v hcells)
    | succ j =>
      rw [show o + (j + 1) = o + 1 + j by omega]
      exact stored j (Nat.lt_of_succ_lt_succ hj)

theorem Resource.load_ok {r r' : Resource} {data : List Byte} {o : Nat} (h : r.load data o = .ok r') :
    o + data.length ≤ r.size ∧ r' = r.putAll o data := by
  unfold Resource.load at h
  split at h
  · cases h
    exact ⟨‹_›, rfl⟩
  · cases h

/-- Settles O24: bank `k` shows the 128 bytes the load stored from `k * 128` on. -/
theorem bankWindowing : Obligations.BankWindowing := by
  intro image r k o hlen hk ho h
  obtain ⟨hfits, rfl⟩ := Resource.load_ok h
  obtain ⟨-, hstored⟩ := Resource.cellGet_putAll (by decide) hfits
  have hbyte := hstored (k * 128 + o) (by omega)
  rw [Nat.zero_add] at hbyte
  refine ⟨{ (Params.blankResource (.bankedRom 128 0) 2048).putAll 0 image with kind := .bankedRom 128 k }, ?_, ?_⟩
  · simp [Resource.selectBank, Params.blankResource, hk]
  · simp only [Resource.readByte, Resource.putAll_size, Resource.effectiveOffset, Nat.mod_eq_of_lt ho, hbyte]
    exact if_pos (Nat.lt_trans ho (by decide))

/-! ## The form: construction and the step -/

/-- Settles O2: construction keeps the map's form and clears every signal. -/
theorem resetKeepsForm : Obligations.ResetKeepsForm :=
  have construction : ∀ p u, u.memoryMap.wf = true → (State.resetWith p u).Inv :=
    fun _ _ h => ⟨Memory.atConstruction_wf h, rfl, rfl⟩
  ⟨construction, construction _ _ (by decide)⟩

/-- What a step can do to memory is what its instruction can, in the mode before it. -/
theorem step_memory {s t : State} (h : step s = .next t) : MemoryEffect s.mem s.mode t.mem := by
  obtain ⟨-, i, s1, t1, hi, ht, rfl⟩ := step_next h
  have fetched := State.fetchInstr_keeps hi
  have executed := (exec_next ht).memory
  rw [fetched.memory, fetched.mode] at executed
  rw [State.postCycle_mem]
  exact executed

/-- The post-cycle step clears both request signals (40_control_unit.md R179). -/
theorem State.postCycle_requests (t : State) : t.postCycle.signals.userModeRequested = false ∧
    t.postCycle.signals.userModeSourceOperandRequested = false := by
  unfold State.postCycle
  split
  · exact ⟨rfl, rfl⟩
  · exact ⟨Bool.eq_false_iff.2 ‹_›, rfl⟩

/-- Settles O3: an instruction only writes bytes, and the post-cycle step clears the requests. -/
theorem stepKeepsForm : Obligations.StepKeepsForm := by
  intro s t hs h
  obtain ⟨-, _, _, t1, -, -, rfl⟩ := step_next h
  obtain ⟨hmode, hsource⟩ := t1.postCycle_requests
  exact ⟨(step_memory h).wf hs.memory, hmode, hsource⟩

/-! ## The configuration -/

/-- The two memories have the same table and the same resources, but for the contents of RAMs. -/
structure Memory.SameConfiguration (m m' : Memory) : Prop where
  table : m'.table = m.table
  count : m'.resources.length = m.resources.length
  resource : ∀ {n : Nat} {r : Resource}, m.resources[n]? = some r →
    ∃ r', m'.resources[n]? = some r' ∧ r'.kind = r.kind ∧ r'.size = r.size ∧ (r.kind ≠ .ram → r' = r)

theorem Memory.SameConfiguration.refl (m : Memory) : m.SameConfiguration m :=
  ⟨rfl, rfl, fun h => ⟨_, h, rfl, rfl, fun _ => rfl⟩⟩

theorem Memory.SameConfiguration.trans {m m' m'' : Memory} (h : m.SameConfiguration m')
    (h' : m'.SameConfiguration m'') : m.SameConfiguration m'' := by
  refine ⟨h'.table.trans h.table, h'.count.trans h.count, fun hr => ?_⟩
  obtain ⟨r', hr', hk', hs', hrom'⟩ := h.resource hr
  obtain ⟨r'', hr'', hk'', hs'', hrom''⟩ := h'.resource hr'
  exact ⟨r'', hr'', hk''.trans hk', hs''.trans hs', fun hk => (hrom'' (hk' ▸ hk)).trans (hrom' hk)⟩

/-- A byte write stores in a RAM only (20_memory.md R82, R85). -/
theorem Memory.SameConfiguration.of_writeByte {m m' : Memory} {d : Domain} {a : Word} {v : Byte}
    (h : m.writeByte d a v = .ok m') : m.SameConfiguration m' := by
  refine ⟨Memory.writeByte_table h, ?_, fun {n r} hr => ?_⟩ <;>
    obtain ⟨n', r', o, ht, hram, -, rfl⟩ := Memory.writeByte_ok h
  · exact List.length_set
  · obtain ⟨-, -, -, hr', -⟩ := Memory.target_some ht
    by_cases hn : n' = n
    · subst hn
      cases hr'.symm.trans hr
      exact ⟨_, List.getElem?_set_self (List.getElem?_eq_some_iff.1 hr).1, rfl, rfl, fun hk => absurd hram hk⟩
    · exact ⟨r, (List.getElem?_set_ne hn).trans hr, rfl, rfl, fun _ => rfl⟩

theorem MemoryEffect.sameConfiguration {m m' : Memory} {d : Domain} (h : MemoryEffect m d m') :
    m.SameConfiguration m' := by
  cases h with
  | none => exact .refl m
  | byte _ _ _ h => exact .of_writeByte h
  | word _ _ _ _ _ _ h h' => exact (Memory.SameConfiguration.of_writeByte h).trans (.of_writeByte h')

theorem step_params {s t : State} (h : step s = .next t) : t.params = s.params := by
  obtain ⟨-, _, _, _, hi, ht, rfl⟩ := step_next h
  rw [State.postCycle_params, (exec_next ht).parameters, (State.fetchInstr_keeps hi).parameters]
  rfl

/-- Settles O17: a step writes at most two bytes, each of a RAM. -/
theorem stepKeepsConfiguration : Obligations.StepKeepsConfiguration := by
  intro s t h
  obtain ⟨htable, hcount, hresource⟩ := (step_memory h).sameConfiguration
  exact ⟨step_params h, htable, hcount, fun _ _ => hresource⟩

end Sys2Proof.Machine
end

section
/-! PROOFS. The isolation of the domains (20_memory.md R106): two runs in User mode whose memories differ only in
resources no User entry names stay together, through each shared operation once, and leave those resources alone. -/

namespace Sys2Proof.Machine

/-! ## Memories that User mode cannot tell apart -/

/-- The two memories have one table and the same resources where a User entry names them. -/
structure Memory.AgreeForUser (m m' : Memory) : Prop where
  table : m'.table = m.table
  resource : ∀ e ∈ m.table, e.ownership = .user → m'.resources[e.resource]? = m.resources[e.resource]?

/-- From `m` to `m'` the table stays, and so does every resource no User entry names. -/
structure Memory.KeepsHidden (m m' : Memory) : Prop where
  table : m'.table = m.table
  resource : ∀ n, (∀ e ∈ m.table, e.ownership = .user → e.resource ≠ n) → m'.resources[n]? = m.resources[n]?

theorem Memory.route_user {m : Memory} {a : Word} {e : Entry} (h : m.route .user a = some e) :
    e ∈ m.table ∧ e.ownership = .user := by
  have hp := List.find?_some h
  rw [Bool.and_eq_true, beq_iff_eq] at hp
  exact ⟨List.mem_of_find?_eq_some h, hp.1⟩

section
variable {m m' : Memory} (h : m.AgreeForUser m') (a : Word)
include h

theorem Memory.AgreeForUser.route : m'.route .user a = m.route .user a := Memory.route_table h.table .user a

theorem Memory.AgreeForUser.routed {a : Word} {e : Entry} (hr : m.route .user a = some e) :
    m'.resources[e.resource]? = m.resources[e.resource]? :=
  h.resource e (Memory.route_user hr).1 (Memory.route_user hr).2

/-- Every User address is routed to the same resource. -/
theorem Memory.AgreeForUser.target : m'.target .user a = m.target .user a := by
  unfold Memory.target
  rw [h.route]
  cases hr : m.route .user a with
  | none => rfl
  | some e => simp only [h.routed hr]

theorem Memory.AgreeForUser.readByte (k : AccessKind) : m'.readByte .user a k = m.readByte .user a k := by
  unfold Memory.readByte
  rw [h.target]

theorem Memory.AgreeForUser.straddleCheck (b : Bool) (k : AccessKind) :
    m'.straddleCheck b .user a k = m.straddleCheck b .user a k := by
  have pair : m'.pairInOneEntry .user a = m.pairInOneEntry .user a := by
    unfold Memory.pairInOneEntry
    rw [h.route]
    cases hr : m.route .user a with
    | none => rfl
    | some e => simp only [h.routed hr]
  unfold Memory.straddleCheck
  rw [h.target, pair]

/-- A User write is refused in both memories or stores the same byte of the same resource in both. -/
theorem Memory.AgreeForUser.writeByte (v : Byte) :
    (∃ c, m.writeByte .user a v = .error c ∧ m'.writeByte .user a v = .error c) ∨
    ∃ m1 m1', m.writeByte .user a v = .ok m1 ∧ m'.writeByte .user a v = .ok m1' ∧ m1.AgreeForUser m1' := by
  unfold Memory.writeByte
  rw [h.target]
  cases ht : m.target .user a with
  | none => exact .inl ⟨_, rfl, rfl⟩
  | some x =>
    obtain ⟨n, r, o⟩ := x
    dsimp only
    cases r.writeByte o v a .user with
    | error c => exact .inl ⟨c, rfl, rfl⟩
    | ok r1 =>
      refine .inr ⟨_, _, rfl, rfl, h.table, fun e he ho => ?_⟩
      have hsame := h.resource e he ho
      by_cases hn : n = e.resource
      · simp only [hn, List.getElem?_set_self', hsame]
      · exact (List.getElem?_set_ne hn).trans (hsame.trans (List.getElem?_set_ne hn).symm)

end

/-- A User write leaves the resources no User entry names. -/
theorem Memory.KeepsHidden.writeByte {m0 m m1 : Memory} {a : Word} {v : Byte} (h : m0.KeepsHidden m)
    (hw : m.writeByte .user a v = .ok m1) : m0.KeepsHidden m1 := by
  refine ⟨(Memory.writeByte_table hw).trans h.table, fun n hn => ?_⟩
  obtain ⟨_, _, _, ht, -⟩ := Memory.writeByte_ok hw
  obtain ⟨e, he, -⟩ := Memory.target_some ht
  obtain ⟨hmem, ho⟩ := Memory.route_user he
  have hne : n ≠ e.resource := (hn e (h.table ▸ hmem) ho).symm
  exact (Memory.writeByte_resource_ne hw he hne).trans (h.resource n hn)

/-! ## Two runs side by side -/

/-- Two runs that began with memory `m0` in the first now stand in mode `d` at memories `m` and `m'`. -/
structure SideBySide (m0 : Memory) (d : Domain) (m m' : Memory) : Prop where
  user : d = .user
  agree : m.AgreeForUser m'
  hidden : m0.KeepsHidden m

/-- The state with another memory. -/
def State.setMem (s : State) (m : Memory) : State := { s with mem := m }

/-- Two states User mode cannot tell apart are one state with two memories. -/
theorem AgreeForUser.iff_setMem {s s' : State} :
    AgreeForUser s s' ↔ ∃ m', s.mem.AgreeForUser m' ∧ s' = s.setMem m' := by
  constructor
  · intro h
    refine ⟨s'.mem, ⟨h.table, h.userResources⟩, ?_⟩
    obtain ⟨hregs, halt, hsignals, hmode, hfault, hdraws, hparams, -, -⟩ := h
    simp only [State.setMem, ← hregs, ← halt, ← hsignals, ← hmode, ← hfault, ← hdraws, ← hparams]
  · rintro ⟨m', hm, rfl⟩
    exact ⟨rfl, rfl, rfl, rfl, rfl, rfl, rfl, hm.table, hm.resource⟩

section
variable (s : State) (m : Memory)

@[simp] theorem State.setMem_mem : (s.setMem m).mem = m := rfl
@[simp] theorem State.setMem_signals : (s.setMem m).signals = s.signals := rfl
@[simp] theorem State.setMem_fault : (s.setMem m).fault = s.fault := rfl
@[simp] theorem State.setMem_mode : (s.setMem m).mode = s.mode := rfl
@[simp] theorem State.setMem_params : (s.setMem m).params = s.params := rfl
@[simp] theorem State.setMem_reg (r : Reg8) : (s.setMem m).reg r = s.reg r := rfl
@[simp] theorem State.setMem_pair (rr : Reg16) : (s.setMem m).pair rr = s.pair rr := rfl
@[simp] theorem State.setMem_flag (f : Flag) : (s.setMem m).flag f = s.flag f := rfl
@[simp] theorem State.setMem_cond (cc : Cond) : (s.setMem m).cond cc = s.cond cc := by cases cc <;> rfl

@[simp] theorem State.setMem_setReg (r : Reg8) (v : Byte) : (s.setMem m).setReg r v = (s.setReg r v).setMem m := rfl
@[simp] theorem State.setMem_setPair (rr : Reg16) (v : Word) :
    (s.setMem m).setPair rr v = (s.setPair rr v).setMem m := rfl
@[simp] theorem State.setMem_writeFlag (f : Flag) (b : Bool) :
    (s.setMem m).writeFlag f b = (s.writeFlag f b).setMem m := rfl
@[simp] theorem State.setMem_writeFlags (z n h cy : Bool) :
    (s.setMem m).writeFlags z n h cy = (s.writeFlags z n h cy).setMem m := by
  simp [State.writeFlags]

theorem State.setMem_postCycle : (s.setMem m).postCycle = s.postCycle.setMem m := by
  unfold State.postCycle
  rw [State.setMem_signals]
  split <;> rfl

end

/-- The answers of two runs side by side: the same next state but for memory, or the same fault. -/
inductive Together (m0 : Memory) : Result → Result → Prop
  | next {t t' : State} {m' : Memory} (h : SideBySide m0 t.mode t.mem m') (ht : t' = t.setMem m') :
      Together m0 (.next t) (.next t')
  | raised {d : Domain} {m m' : Memory} (c : FaultCause) (h : SideBySide m0 d m m') :
      Together m0 (.fault (.raised c m)) (.fault (.raised c m'))
  | recorded {d : Domain} {m m' : Memory} (r : FaultRecord) (h : SideBySide m0 d m m') :
      Together m0 (.fault (.recorded r m)) (.fault (.recorded r m'))
  | stopped (r : FaultRecord) : Together m0 (.fault (.stopped r)) (.fault (.stopped r))

section
variable {m0 m' : Memory} {s : State} (h : SideBySide m0 s.mode s.mem m')
include h

theorem Together.readIn {a : Word} {k k' : Byte → Result} (hk : ∀ v, Together m0 (k v) (k' v)) :
    Together m0 (s.readIn .user a k) ((s.setMem m').readIn .user a k') := by
  unfold State.readIn State.orRaise
  rw [State.setMem_mem, h.agree.readByte]
  cases s.mem.readByte .user a .read with
  | ok v => exact hk v
  | error c => exact .raised c h

theorem Together.read {a : Word} {k k' : Byte → Result} (hk : ∀ v, Together m0 (k v) (k' v)) :
    Together m0 (s.readIn s.mode a k) ((s.setMem m').readIn (s.setMem m').mode a k') := by
  rw [State.setMem_mode, h.user]
  exact Together.readIn h hk

theorem Together.write {a : Word} {v : Byte} {k k' : State → Result}
    (hk : ∀ m m', SideBySide m0 s.mode m m' → Together m0 (k (s.setMem m)) (k' ((s.setMem m).setMem m'))) :
    Together m0 (s.write a v k) ((s.setMem m').write a v k') := by
  have both := h.agree.writeByte a v
  rw [← h.user] at both
  show Together m0 (s.orRaise (s.mem.writeByte s.mode a v) _) ((s.setMem m').orRaise (m'.writeByte s.mode a v) _)
  rcases both with ⟨c, hc, hc'⟩ | ⟨m1, m1', hm, hm', hagree⟩
  · rw [hc, hc']
    exact .raised c h
  · rw [hm, hm']
    exact hk m1 m1' ⟨h.user, hagree, h.hidden.writeByte (h.user ▸ hm)⟩

theorem Together.checkStraddle {a : Word} {kind : AccessKind} {r r' : Result} (hr : Together m0 r r') :
    Together m0 (s.checkStraddle a kind r) ((s.setMem m').checkStraddle a kind r') := by
  unfold State.checkStraddle State.unlessRaised
  rw [State.setMem_mem, State.setMem_mode, State.setMem_params, h.user, h.agree.straddleCheck]
  cases s.mem.straddleCheck s.params.straddleFault .user a kind with
  | none => exact hr
  | some c => exact .raised c h

theorem Together.conditionally {cc : Cond} {r r' : Result} (hr : Together m0 r r') :
    Together m0 (s.conditionally cc r) ((s.setMem m').conditionally cc r') := by
  unfold State.conditionally
  rw [State.setMem_cond]
  split
  · exact hr
  · exact .next h rfl

theorem Together.write16 {a v : Word} {k k' : State → Result}
    (hk : ∀ m m', SideBySide m0 s.mode m m' → Together m0 (k (s.setMem m)) (k' ((s.setMem m).setMem m'))) :
    Together m0 (s.write16 a v k) ((s.setMem m').write16 a v k') :=
  .checkStraddle h <| .write h fun m _ h1 => .write (s := s.setMem m) h1 hk

theorem Together.push16 {v : Word} {k k' : State → Result}
    (hk : ∀ (t : State) (m' : Memory), SideBySide m0 t.mode t.mem m' → Together m0 (k t) (k' (t.setMem m'))) :
    Together m0 (s.push16 v k) ((s.setMem m').push16 v k') :=
  .checkStraddle h <| .write h fun m _ h1 => .write (s := s.setMem m) h1 fun m _ h2 =>
    hk ((s.setMem m).setPair .sp (s.pair .sp - 2)) _ h2

theorem Together.pop16 {k k' : Word → State → Result}
    (hk : ∀ v (t : State), SideBySide m0 t.mode t.mem m' → Together m0 (k v t) (k' v (t.setMem m'))) :
    Together m0 (s.pop16 k) ((s.setMem m').pop16 k') :=
  .checkStraddle h <| .read h fun _ => .read h fun _ => hk _ (s.setPair .sp (s.pair .sp + 2)) h

theorem Together.callTo (a : Word) : Together m0 (s.callTo a) ((s.setMem m').callTo a) :=
  .push16 h fun _ _ h1 => .next h1 rfl

theorem Together.returnThen {k k' : State → Result}
    (hk : ∀ t : State, SideBySide m0 t.mode t.mem m' → Together m0 (k t) (k' (t.setMem m'))) :
    Together m0 (s.returnThen k) ((s.setMem m').returnThen k') :=
  .pop16 h fun v t h1 => hk (t.jump v) h1

theorem Together.storeAStep (delta : Word) : Together m0 (s.storeAStep delta) ((s.setMem m').storeAStep delta) := by
  unfold State.storeAStep State.writeBack
  exact .write h fun _ _ h1 => .next h1 rfl

theorem Together.modifyHl {f f' : Byte → Byte × State} (hf : ∀ v, f' v = ((f v).1, (f v).2.setMem m'))
    (hm : ∀ v, (f v).2.mem = s.mem) (hd : ∀ v, (f v).2.mode = s.mode) :
    Together m0 (s.modifyHl f) ((s.setMem m').modifyHl f') := by
  refine .read h fun v => ?_
  have h1 : SideBySide m0 (f v).2.mode (f v).2.mem m' := by rwa [hm, hd]
  rw [hf]
  exact .write h1 fun _ _ h2 => .next h2 rfl

/-- An instruction does the same in both runs. -/
theorem exec_together (i : Instr) : Together m0 (exec i s) (exec i (s.setMem m')) := by
  cases i
  case jrCc | jpCc => exact .conditionally h (.next h rfl)
  case callCc => exact .conditionally h (.callTo h _)
  case retCc => exact .conditionally h (.returnThen h fun _ h1 => .next h1 rfl)
  case call | rst => exact .callTo h _
  case push => exact .push16 h fun _ _ h1 => .next h1 rfl
  case ret => exact .returnThen h fun _ h1 => .next h1 rfl
  case reti =>
    exact show Together m0 (execReti s) (execReti _) from .returnThen h fun _ h1 => .next h1 rfl
  case pop qq =>
    exact show Together m0 (execPop qq s) (execPop qq _) from .pop16 h fun _ _ h1 => .next h1 rfl
  case ldNnSp => exact .write16 h fun _ _ h1 => .next h1 rfl
  case ldHliA | ldHldA => exact .storeAStep h _
  case ldBcA | ldDeA | ldHlN | ldHlR | ldhNA | ldCA | ldNnA => exact .write h fun _ _ h1 => .next h1 rfl
  case ldABc | ldADe | ldAHli | ldAHld | ldRHl | ldhAN | ldAC | ldANn => exact .read h fun _ => .next h rfl
  case lduRHl | lduABc | lduADe | lduAHli | lduAHld | lduANn | ldhuAN | lduAC =>
    exact .readIn (s := s.requestUserSource) h fun _ => .next h rfl
  case addHl | adcHl | subHl | sbcHl | andHl | xorHl | orHl | cpHl | bitHl =>
    exact .read h fun _ => .next h (by
      simp [State.addA, State.subA, State.cpA, State.logicA, State.bitFlags, State.flagsOf])
  case incHl | decHl | rlcHl | rrcHl | rlHl | rrHl | slaHl | sraHl | swapHl | srlHl | resHl | setHl =>
    exact .modifyHl h (fun _ => by simp [State.incFlags, State.decFlags, State.shiftFlags])
      (fun _ => rfl) fun _ => rfl
  case nop | stop | halt | di | ei | jr | jp | jpHl | jpu => exact .next h rfl
  all_goals exact .next h (by
    simp [State.addA, State.subA, State.cpA, State.logicA, State.bitFlags, State.flagsOf, State.incFlags,
      State.decFlags, State.shiftReg, State.shiftFlags, State.rotateA, State.spFlags])


end

/-! ## The fetch -/

section
variable {s : State} {m' : Memory} (hd : s.mode = .user) (hm : s.mem.AgreeForUser m')
include hd hm

theorem State.fetchByte_setMem :
    (s.setMem m').fetchByte = s.fetchByte.map fun x => (x.1, x.2.setMem m') := by
  unfold State.fetchByte
  rw [State.setMem_mem, State.setMem_mode, hd, State.setMem_pair, hm.readByte]
  cases s.mem.readByte .user (s.pair .pc) .fetch <;> rfl

theorem State.fetchOpcode_setMem : (s.setMem m').fetchOpcode = s.fetchOpcode.map fun t => t.setMem m' := by
  unfold State.fetchOpcode
  rw [State.fetchByte_setMem hd hm]
  cases h1 : s.fetchByte with
  | error c => rfl
  | ok x =>
    obtain ⟨b, s1⟩ := x
    obtain ⟨-, rfl⟩ := State.fetchByte_ok h1
    simp only [Except.map, State.setMem_setReg]
    split
    · rw [State.fetchByte_setMem (s := (s.setPair .pc (s.pair .pc + 1)).setReg .pir b) hd hm]
      cases ((s.setPair .pc (s.pair .pc + 1)).setReg .pir b).fetchByte <;> rfl
    · rfl

theorem State.fetchOperands_setMem (t : Template) :
    (s.setMem m').fetchOperands t = (s.fetchOperands t).map fun x => (x.1, x.2.setMem m') := by
  unfold State.fetchOperands
  cases t with
  | done i => rfl
  | imm8 f =>
    dsimp only
    rw [State.fetchByte_setMem hd hm]
    cases s.fetchByte <;> rfl
  | imm16 f =>
    dsimp only
    rw [State.setMem_mem, State.setMem_mode, State.setMem_params, State.setMem_pair, hd, hm.straddleCheck,
      State.fetchByte_setMem hd hm]
    cases s.mem.straddleCheck s.params.straddleFault .user (s.pair .pc) .fetch with
    | some c => rfl
    | none =>
      cases h1 : s.fetchByte with
      | error c => rfl
      | ok x =>
        obtain ⟨low, s1⟩ := x
        obtain ⟨-, rfl⟩ := State.fetchByte_ok h1
        simp only [Except.map]
        rw [State.fetchByte_setMem (s := s.setPair .pc (s.pair .pc + 1)) hd hm]
        cases (s.setPair .pc (s.pair .pc + 1)).fetchByte <;> rfl

/-- The fetch reads the same bytes in both runs. -/
theorem State.fetchInstr_setMem :
    (s.setMem m').fetchInstr = s.fetchInstr.map fun x => (x.1, x.2.setMem m') := by
  unfold State.fetchInstr
  rw [State.fetchOpcode_setMem hd hm]
  cases h1 : s.fetchOpcode with
  | error c => rfl
  | ok s1 =>
    have keeps := State.fetchOpcode_keeps h1
    simp only [Except.map, State.setMem_params, State.setMem_reg]
    cases decodeOpcode s.params (s1.reg .pir) (s1.reg .ir) with
    | error r => rfl
    | ok t => exact State.fetchOperands_setMem (keeps.mode.trans hd) (keeps.memory ▸ hm) t

end

/-! ## The step -/

theorem State.postCycle_user {t : State} (h : t.mode = .user) : t.postCycle.mode = .user := by
  unfold State.postCycle
  split
  · rfl
  · exact h

theorem Together.finishCycle {m0 : Memory} {r r' : Result} (h : Together m0 r r') (start : Word) :
    Together m0 (Machine.finishCycle start r) (Machine.finishCycle start r') := by
  cases h with
  | @next t _ m' h ht =>
    subst ht
    refine .next ?_ (t.setMem_postCycle m')
    rw [State.postCycle_mem]
    exact ⟨State.postCycle_user h.user, h.agree, h.hidden⟩
  | raised c h => exact .recorded _ h
  | recorded r h => exact .recorded r h
  | stopped r => exact .stopped r

/-- A step does the same in both runs. -/
theorem step_together {m0 m' : Memory} {s : State} (h : SideBySide m0 s.mode s.mem m') :
    Together m0 (step s) (step (s.setMem m')) := by
  cases hf : s.fault with
  | some r =>
    rw [step, State.cycle_of_fault hf, step, State.cycle_of_fault (s := s.setMem m') hf]
    exact .stopped r
  | none =>
    have hfetch := State.fetchInstr_setMem (s := s.beginCycle) h.user h.agree
    cases hi : s.beginCycle.fetchInstr with
    | error c =>
      rw [hi] at hfetch
      rw [step_of_fetch_error hf hi, step_of_fetch_error (s := s.setMem m') hf hfetch]
      exact .recorded _ h
    | ok x =>
      obtain ⟨i, s1⟩ := x
      rw [hi] at hfetch
      have keeps := State.fetchInstr_keeps hi
      rw [step_of_fetch hf hi, step_of_fetch (s := s.setMem m') hf hfetch]
      exact (exec_together (by rw [keeps.mode, keeps.memory]; exact h) i).finishCycle _

/-- Settles O16: the two runs stay side by side through the step. -/
theorem userModeIsolation : Obligations.UserModeIsolation := by
  intro s s' hu h
  obtain ⟨m', hagree, rfl⟩ := AgreeForUser.iff_setMem.1 h
  have together : Together s.mem (step s) (step (s.setMem m')) := step_together ⟨hu, hagree, rfl, fun _ _ => rfl⟩
  generalize step (s.setMem m') = answer at together ⊢
  refine ⟨fun t ht => ?_, fun r m hr => ?_, fun r hr => ?_⟩
  · rw [ht] at together
    cases together with
    | next h ht =>
      subst ht
      exact ⟨_, rfl, AgreeForUser.iff_setMem.2 ⟨_, h.agree, rfl⟩, h.hidden.resource⟩
  · rw [hr] at together
    cases together with
    | recorded _ h => exact ⟨_, rfl, AgreeForUser.iff_setMem.2 ⟨_, h.agree, rfl⟩, h.hidden.resource⟩
  · rw [hr] at together
    cases together with
    | stopped _ => rfl

end Sys2Proof.Machine
end

section
/-! PROOFS. The statements of 30_encoding.md about the opcodes with no decode branch: a step on a rejected opcode stops
with its `InstructionException` (R145, R146, R147); and the words written out. -/

namespace Sys2Proof

/-! ## The bytes each map rejects -/

/-- The unprefixed map rejects a byte only where the last quarter of the map has no row, by the byte's own value. -/
theorem decodeBase_eq_error {p : Config.Parameters} {o : Byte} {r : OpcodeReject} :
    decodeBase p o = .error r ↔ 3 ≤ fieldX o ∧ decodeX3 (fieldY o) (fieldZ o) = none ∧ r = .undecodable o := by
  unfold decodeBase
  split
  case h_4 _ h0 h1 h2 =>
    rw [imp_false] at h0 h1 h2
    have hx : 3 ≤ fieldX o := by omega
    cases decodeX3 (fieldY o) (fieldZ o) <;> simp [hx, eq_comm]
  all_goals simp_all

/-- The illegal unprefixed opcodes (30_encoding.md R145). -/
def illegalOpcodeBytes : List Byte := [0xD3#8, 0xDB#8, 0xE3#8, 0xE4#8, 0xEB#8, 0xEC#8, 0xED#8, 0xF4#8]

theorem isPreOpcode_false_of_illegal : ∀ o ∈ illegalOpcodeBytes, isPreOpcode o = false := by decide

/-- The last quarter of the unprefixed map lacks the illegal opcodes and the pre-opcodes. -/
theorem decodeX3_eq_none_iff (o : Byte) : 3 ≤ fieldX o ∧ decodeX3 (fieldY o) (fieldZ o) = none ↔
    o ∈ illegalOpcodeBytes ∨ isPreOpcode o = true := by
  rw [← Option.isNone_iff_eq_none]
  revert o
  decide

theorem decodeOpcode_undecodable_iff (p : Config.Parameters) {o : Byte} (ho : isPreOpcode o = false) :
    decodeOpcode p 0x00#8 o = .error (.undecodable o) ↔ o ∈ illegalOpcodeBytes := by
  calc decodeOpcode p 0x00#8 o = .error (.undecodable o)
    _ ↔ decodeBase p o = .error (.undecodable o) := Iff.rfl
    _ ↔ 3 ≤ fieldX o ∧ decodeX3 (fieldY o) (fieldZ o) = none := by simp [decodeBase_eq_error]
    _ ↔ o ∈ illegalOpcodeBytes := by rw [decodeX3_eq_none_iff, ho, or_iff_left Bool.false_ne_true]

theorem indexBase?_eq_none {p : Config.Parameters} {pre o : Byte}
    (h : ∀ row, row ∈ p.indexTable → row.preOpcode = pre → row.opcode ≠ o) : p.indexBase? pre o = none := by
  rw [Config.Parameters.indexBase?, Option.map_eq_none_iff, List.find?_eq_none]
  intro row hrow
  simpa using h row hrow

theorem gbxBase?_eq_none {p : Config.Parameters} {o : Byte} (h : ∀ row, row ∈ p.gbxTable → row.opcode ≠ o) :
    p.gbxBase? o = none := by
  rw [Config.Parameters.gbxBase?, Option.map_eq_none_iff, List.find?_eq_none]
  intro row hrow
  simpa using h row hrow

theorem decodeIndex_of_no_row {p : Config.Parameters} {pre o : Byte} (h : p.indexBase? pre o = none) :
    decodeIndex p pre o = .error (.unmodelled pre o) := by
  rw [decodeIndex, h]

theorem decodeGbx_of_no_row {p : Config.Parameters} {o : Byte} (h : p.gbxBase? o = none) :
    decodeGbx p o = .error (.unmodelled 0xFC#8 o) := by
  rw [decodeGbx, h, Option.bind_none]

namespace Machine

theorem OpcodeRead.beginCycle {s : State} {p o : Byte} {a : Word} (h : OpcodeRead s p o a) :
    OpcodeRead s.beginCycle p o a := by
  cases h with
  | unprefixed _ ho hb => exact .unprefixed o ho hb
  | prefixed _ _ hp hb hb' => exact .prefixed p o hp hb hb'

theorem State.fetchInstr_of_reject {s s1 : State} {r : OpcodeReject} (h : s.fetchOpcode = .ok s1)
    (hd : decodeOpcode s.params (s1.reg .pir) (s1.reg .ir) = .error r) : s.fetchInstr = .error (causeOfReject r) := by
  unfold State.fetchInstr
  simp only [h, hd]

/-- A readable opcode with no decode branch stops the step, with memory as before (40_control_unit.md R174,
60_exceptions.md R475). -/
theorem step_of_reject {s : State} {p o : Byte} {a : Word} {r : OpcodeReject} (hf : s.fault = none)
    (hr : OpcodeRead s p o a) (hd : decodeOpcode s.params p o = .error r) :
    step s = s.stopsAt (causeOfReject r) :=
  step_of_fetch_error hf (State.fetchInstr_of_reject (State.fetchOpcode_read hr.beginCycle) hd)

/-- Settles O7: the unprefixed map lacks exactly these bytes and the pre-opcodes, and the step stops on them. -/
theorem illegalOpcodes : Obligations.IllegalOpcodes := by
  refine ⟨fun p o ho => decodeOpcode_undecodable_iff p ho, fun s o hf ho hb => ⟨?_, rfl⟩, rfl⟩
  have hpre : isPreOpcode o = false := isPreOpcode_false_of_illegal o ho
  exact step_of_reject hf (.unprefixed o hpre hb) ((decodeOpcode_undecodable_iff s.params hpre).2 ho)

/-- Settles O8: without a row the two tables reject the opcode, and the step stops on it. -/
theorem unmodelledOpcodes : Obligations.UnmodelledOpcodes := by
  refine ⟨fun s p o hf hp hb hb' => ⟨?_, rfl⟩, rfl, rfl⟩
  obtain ⟨hp, hrows⟩ | ⟨rfl, hrows⟩ := hp
  · have hd := decodeIndex_of_no_row (indexBase?_eq_none hrows)
    obtain rfl | rfl := hp
    · exact step_of_reject hf (.prefixed _ o rfl hb hb') hd
    · exact step_of_reject hf (.prefixed _ o rfl hb hb') hd
  · exact step_of_reject hf (.prefixed _ o rfl hb hb') (decodeGbx_of_no_row (gbxBase?_eq_none hrows))

/-- Settles O9. -/
theorem decodedWords : Obligations.DecodedWords :=
  ⟨rfl, rfl, rfl, rfl, rfl, rfl, rfl, rfl, rfl⟩

end Machine
end Sys2Proof
end

section
/-! PROOFS. The opcode maps as a relation between opcode bytes and templates, read by the decoder and written by the
encoder: what the encoder writes for every instruction of a template (30_encoding.md R130 to R147). -/

namespace Sys2Proof

/-! ## Opcode bytes and operand bytes -/

/-- The opcode byte with the fields `x`, `y` and `z` (30_encoding.md R131). -/
def opcodeOf (x y z : Nat) : Byte := opByte (64 * x + 8 * y + z)

theorem fieldX_opcodeOf {x y z : Nat} (hx : x < 4) (hy : y < 8) (hz : z < 8) : fieldX (opcodeOf x y z) = x := by
  simp only [fieldX, opcodeOf, opByte, BitVec.toNat_ofNat]
  omega

theorem fieldY_opcodeOf (x : Nat) {y z : Nat} (hy : y < 8) (hz : z < 8) : fieldY (opcodeOf x y z) = y := by
  simp only [fieldY, opcodeOf, opByte, BitVec.toNat_ofNat]
  omega

theorem fieldZ_opcodeOf (x y : Nat) {z : Nat} (hz : z < 8) : fieldZ (opcodeOf x y z) = z := by
  simp only [fieldZ, opcodeOf, opByte, BitVec.toNat_ofNat]
  omega

theorem fieldX_lt (o : Byte) : fieldX o < 4 := by
  unfold fieldX
  omega

theorem fieldY_lt (o : Byte) : fieldY o < 8 := Nat.mod_lt _ (by decide)

theorem fieldZ_lt (o : Byte) : fieldZ o < 8 := Nat.mod_lt _ (by decide)

/-- The values of a 3-bit field. -/
theorem eq_of_lt_eight {y : Nat} (hy : y < 8) :
    y = 0 ∨ y = 1 ∨ y = 2 ∨ y = 3 ∨ y = 4 ∨ y = 5 ∨ y = 6 ∨ y = 7 := by omega

/-- An opcode byte is its three fields. -/
theorem opcodeOf_fields (o : Byte) : opcodeOf (fieldX o) (fieldY o) (fieldZ o) = o := by
  apply BitVec.eq_of_toNat_eq
  simp only [fieldX, fieldY, fieldZ, opcodeOf, opByte, BitVec.toNat_ofNat]
  omega

/-- The operand bytes of the instruction a template becomes with operand `v` (`Template.instr`). -/
def Template.operandBytes : Template → Word → List Byte
  | .done _, _ => []
  | .imm8 _, v => [v.low]
  | .imm16 _, v => wordBytes v

/-- The operand bytes a template takes are those of one operand, which makes its instruction (30_encoding.md R133). -/
theorem takeOperands_eq_ok {t : Template} {bytes rest : List Byte} {i : Instr} :
    takeOperands t bytes = .ok (i, rest) ↔ ∃ v, t.instr v = i ∧ bytes = t.operandBytes v ++ rest := by
  constructor
  · intro h
    unfold takeOperands at h
    split at h
    · cases h
      exact ⟨0, rfl, rfl⟩
    · rename_i f n _
      cases h
      exact ⟨Word.ofBytes 0 n, congrArg f (Machine.Word.low_ofBytes 0 n),
        congrArg (· :: rest) (Machine.Word.low_ofBytes 0 n).symm⟩
    · rename_i f low high _
      cases h
      refine ⟨Word.ofBytes high low, rfl, ?_⟩
      simp [Template.operandBytes, wordBytes]
    · cases h
  · rintro ⟨v, rfl, rfl⟩
    cases t with
    | done i => rfl
    | imm8 f => rfl
    | imm16 f =>
      simp [Template.operandBytes, wordBytes, takeOperands, Template.instr]

/-! ## What the encoder writes for the instructions of a template -/

/-- Every instruction of the template is encoded as these opcode bytes and its operand bytes. -/
def Template.HasOpcode (t : Template) (p : Config.Parameters) (opcode : List Byte) : Prop :=
  ∀ v, encode p (t.instr v) = opcode ++ t.operandBytes v

theorem regCode_of_regField {z : Nat} {r : Reg8} (h : regField z = some r) : regCode r = z := by
  unfold regField at h
  split at h <;> cases h <;> rfl

theorem eq_six_of_regField : ∀ {z : Nat}, z < 8 → regField z = none → z = 6 := by decide

/-- On the operand field, the encoder puts back the field's value: the register's code, or 6 for `(HL)`
(30_encoding.md R136). -/
theorem onOperand_hasOpcode {p : Config.Parameters} {z : Nat} {reg : Reg8 → Instr} {hl : Instr} (hz : z < 8)
    (opcode : Nat → List Byte) (hr : ∀ r, encode p (reg r) = opcode (regCode r)) (hh : encode p hl = opcode 6) :
    (onOperand z reg hl).HasOpcode p (opcode z) := by
  intro v
  unfold onOperand
  cases h : regField z with
  | none => simpa [Template.instr, Template.operandBytes, eq_six_of_regField hz h] using hh
  | some r => simpa [Template.instr, Template.operandBytes, regCode_of_regField h] using hr r

/-- STOP takes its second byte only where `STOP_LENGTH` is 2 (47_system.md R432). -/
theorem stop_hasOpcode (p : Config.Parameters) : (decodeX0 p 2 0).HasOpcode p [0x10#8] := by
  intro v
  cases h : p.stopLength <;> simp [decodeX0, h, encode, Template.instr, Template.operandBytes]

/-- Row by row: the encoder writes each opcode of the first quarter out (30_encoding.md R140). -/
theorem decodeX0_hasOpcode (p : Config.Parameters) {y z : Nat} (hy : y < 8) (hz : z < 8) :
    (decodeX0 p y z).HasOpcode p [opcodeOf 0 y z] := by
  obtain rfl | rfl | rfl | rfl | rfl | rfl | rfl | rfl := eq_of_lt_eight hz
  · obtain rfl | rfl | rfl | rfl | rfl | rfl | rfl | rfl := eq_of_lt_eight hy
    rotate_left 2
    · exact stop_hasOpcode p
    all_goals exact fun _ => rfl
  all_goals
    obtain rfl | rfl | rfl | rfl | rfl | rfl | rfl | rfl := eq_of_lt_eight hy <;>
      exact fun _ => rfl

/-- The loads: the encoder puts both operand fields back, 6 for `(HL)`, and 6 twice is HALT (30_encoding.md R144). -/
theorem decodeX1_hasOpcode (p : Config.Parameters) {y z : Nat} (hy : y < 8) (hz : z < 8) :
    (decodeX1 y z).HasOpcode p [opcodeOf 1 y z] := by
  intro v
  unfold decodeX1
  cases hr : regField y with
  | none =>
    obtain rfl := eq_six_of_regField hy hr
    cases hr' : regField z with
    | none =>
      obtain rfl := eq_six_of_regField hz hr'
      rfl
    | some r' =>
      obtain rfl := regCode_of_regField hr'
      rfl
  | some r =>
    obtain rfl := regCode_of_regField hr
    cases hr' : regField z with
    | none =>
      obtain rfl := eq_six_of_regField hz hr'
      simp [Template.instr, Template.operandBytes, encode, opcodeOf, Nat.add_right_comm]
    | some r' =>
      obtain rfl := regCode_of_regField hr'
      rfl

/-- The ALU operations: the operation in the `y` field, the operand in the `z` field (30_encoding.md R142). -/
theorem decodeX2_hasOpcode (p : Config.Parameters) {y z : Nat} (hy : y < 8) (hz : z < 8) :
    (decodeX2 y z).HasOpcode p [opcodeOf 2 y z] := by
  obtain rfl | rfl | rfl | rfl | rfl | rfl | rfl | rfl := eq_of_lt_eight hy <;>
    exact onOperand_hasOpcode hz (fun z => [opcodeOf 2 _ z]) (fun _ => rfl) rfl

/-- Row by row: the encoder writes each opcode of the last quarter out; an illegal one has no template
(30_encoding.md R140, R145). -/
theorem decodeX3_hasOpcode (p : Config.Parameters) {y z : Nat} (hy : y < 8) (hz : z < 8) :
    ∀ t ∈ decodeX3 y z, t.HasOpcode p [opcodeOf 3 y z] := by
  obtain rfl | rfl | rfl | rfl | rfl | rfl | rfl | rfl := eq_of_lt_eight hz
  all_goals
    obtain rfl | rfl | rfl | rfl | rfl | rfl | rfl | rfl := eq_of_lt_eight hy <;>
      rintro _ ⟨⟩ <;> exact fun _ => rfl

/-- The unprefixed map (30_encoding.md R140). -/
theorem decodeBase_hasOpcode {p : Config.Parameters} {o : Byte} {t : Template} (h : decodeBase p o = .ok t) :
    t.HasOpcode p [o] := by
  have hx := fieldX_lt o
  have hy := fieldY_lt o
  have hz := fieldZ_lt o
  rw [← opcodeOf_fields o]
  unfold decodeBase at h
  split at h
  next h0 =>
    cases h
    rw [h0]
    exact decodeX0_hasOpcode p hy hz
  next h1 =>
    cases h
    rw [h1]
    exact decodeX1_hasOpcode p hy hz
  next h2 =>
    cases h
    rw [h2]
    exact decodeX2_hasOpcode p hy hz
  next h0 h1 h2 =>
    rw [imp_false] at h0 h1 h2
    have h3 : fieldX o = 3 := by omega
    rw [h3]
    split at h
    · cases h
      exact decodeX3_hasOpcode p hy hz t ‹_›
    · cases h

/-- A bit operation's index is the `y` field, so the encoder puts back both fields (30_encoding.md R143). -/
theorem bitOperation_hasOpcode {p : Config.Parameters} (x : Nat) {y z : Nat} (hy : y < 8) (hz : z < 8)
    {reg : BitVec 3 → Reg8 → Instr} {hl : BitVec 3 → Instr}
    (hr : ∀ b r, encode p (reg b r) = [0xCB#8, opByte (64 * x + 8 * b.toNat + regCode r)])
    (hh : ∀ b, encode p (hl b) = [0xCB#8, opByte (64 * x + 6 + 8 * b.toNat)]) :
    (onOperand z (reg (BitVec.ofNat 3 y)) (hl (BitVec.ofNat 3 y))).HasOpcode p [0xCB#8, opcodeOf x y z] := by
  have hb : (BitVec.ofNat 3 y).toNat = y := (BitVec.toNat_ofNat y 3).trans (Nat.mod_eq_of_lt hy)
  refine onOperand_hasOpcode hz (fun z => [0xCB#8, opcodeOf x y z]) (fun r => ?_) ?_
  · rw [hr, hb, opcodeOf]
  · rw [hh, hb, opcodeOf, Nat.add_right_comm]

/-- The `0xCB` map (30_encoding.md R141, R143). -/
theorem decodeCb_hasOpcode (p : Config.Parameters) (o : Byte) : (decodeCb o).HasOpcode p [0xCB#8, o] := by
  suffices h : (decodeCb o).HasOpcode p [0xCB#8, opcodeOf (fieldX o) (fieldY o) (fieldZ o)] by
    rwa [opcodeOf_fields] at h
  have hx := fieldX_lt o
  have hy := fieldY_lt o
  have hz := fieldZ_lt o
  simp only [decodeCb]
  generalize fieldX o = x at *
  obtain rfl | rfl | rfl | rfl : x = 0 ∨ x = 1 ∨ x = 2 ∨ x = 3 := by omega
  · generalize fieldY o = y at *
    obtain rfl | rfl | rfl | rfl | rfl | rfl | rfl | rfl := eq_of_lt_eight hy <;>
      exact onOperand_hasOpcode hz (fun z => [0xCB#8, opcodeOf 0 _ z]) (fun _ => rfl) rfl
  · exact bitOperation_hasOpcode 1 hy hz (fun _ _ => rfl) (fun _ => rfl)
  · exact bitOperation_hasOpcode 2 hy hz (fun _ _ => rfl) (fun _ => rfl)
  · exact bitOperation_hasOpcode 3 hy hz (fun _ _ => rfl) (fun _ => rfl)

/-- A GBX form is encoded through the row of its base opcode (30_encoding.md R147). -/
theorem encode_gbxForm (p : Config.Parameters) (base : Byte) :
    ∀ t ∈ gbxForm base, ∀ v, encode p (t.instr v) = gbxBytes p base (t.operandBytes v) := by
  fun_cases gbxForm base
  case case9 hx =>
    intro t ht v
    obtain ⟨r, hr, rfl⟩ := Option.map_eq_some_iff.1 ht
    have hbase : opByte (0x46 + 8 * regCode r) = base := by
      calc opByte (0x46 + 8 * regCode r)
        _ = opcodeOf 1 (fieldY base) 6 := by rw [regCode_of_regField hr, opcodeOf, Nat.add_right_comm]
        _ = opcodeOf (fieldX base) (fieldY base) (fieldZ base) := by rw [hx.1, hx.2]
        _ = base := opcodeOf_fields base
    exact congrArg (gbxBytes p · []) hbase
  case case10 => rintro _ ⟨⟩
  all_goals
    rintro _ ⟨⟩
    subst base
    exact fun _ => rfl

/-! ## GBX_TABLE in both directions (30_encoding.md R147) -/

/-- Where no two rows share a key, the first row with a key is the row with it. -/
theorem find?_key_of_mem {rows : List Config.GbxRow} {key : Config.GbxRow → Byte} (h : (rows.map key).Nodup)
    {row : Config.GbxRow} (hm : row ∈ rows) : rows.find? (fun row' => key row' == key row) = some row := by
  induction rows with
  | nil => cases hm
  | cons first rows ih =>
    obtain ⟨hfirst, hrows⟩ := List.nodup_cons.1 h
    obtain rfl | hm := List.mem_cons.1 hm
    · exact List.find?_cons_of_pos (beq_self_eq_true _)
    · have hne : key first ≠ key row := fun he => hfirst (he ▸ List.mem_map_of_mem hm)
      rw [List.find?_cons_of_neg (by simpa using hne)]
      exact ih hrows hm

theorem find?_key_eq_some {rows : List Config.GbxRow} {key : Config.GbxRow → Byte} (h : (rows.map key).Nodup)
    {k : Byte} {row : Config.GbxRow} : rows.find? (fun row => key row == k) = some row ↔ row ∈ rows ∧ key row = k := by
  constructor
  · intro hf
    exact ⟨List.mem_of_find?_eq_some hf, by simpa using List.find?_some hf⟩
  · rintro ⟨hm, rfl⟩
    exact find?_key_of_mem h hm

/-- In a one-to-one table the decoder and the encoder find the same row. -/
theorem gbxOpcode?_eq_some_iff {p : Config.Parameters} (hp : p.gbxOneToOne = true) {base o : Byte} :
    p.gbxOpcode? base = some o ↔ p.gbxBase? o = some base := by
  obtain ⟨hopcode, hbase⟩ : (p.gbxTable.map (·.opcode)).Nodup ∧ (p.gbxTable.map (·.base)).Nodup := by
    simpa [Config.Parameters.gbxOneToOne] using hp
  simp only [Config.Parameters.gbxOpcode?, Config.Parameters.gbxBase?, Option.map_eq_some_iff,
    find?_key_eq_some hopcode, find?_key_eq_some hbase]
  constructor <;> rintro ⟨row, ⟨hm, rfl⟩, rfl⟩ <;> exact ⟨row, ⟨hm, rfl⟩, rfl⟩

/-! ## The rows of the maps -/

/-- The opcode bytes that an opcode map less `INDEX_TABLE` gives a template (30_encoding.md R140, R141, R147). -/
inductive OpcodeRow (p : Config.Parameters) : List Byte → Template → Prop where
  | base {o : Byte} {t : Template} : decodeBase p o = .ok t → OpcodeRow p [o] t
  | cb (o : Byte) : OpcodeRow p [0xCB#8, o] (decodeCb o)
  | gbx {o base : Byte} {t : Template} : p.gbxBase? o = some base → gbxForm base = some t → OpcodeRow p [0xFC#8, o] t

theorem OpcodeRow.hasOpcode {p : Config.Parameters} {opcode : List Byte} {t : Template} (hp : p.gbxOneToOne = true)
    (h : OpcodeRow p opcode t) : t.HasOpcode p opcode := by
  cases h with
  | base h => exact decodeBase_hasOpcode h
  | cb o => exact decodeCb_hasOpcode p o
  | gbx hb hf =>
    intro v
    rw [encode_gbxForm p _ t hf, gbxBytes, (gbxOpcode?_eq_some_iff hp).2 hb]
    rfl

theorem isPreOpcode_iff {b : Byte} :
    isPreOpcode b = true ↔ b = 0xCB#8 ∨ b = 0xDD#8 ∨ b = 0xFD#8 ∨ b = 0xFC#8 := by
  simp [isPreOpcode, or_assoc]

/-- The unprefixed map has no row for a pre-opcode (30_encoding.md R134). -/
theorem isPreOpcode_false_of_decodeBase {p : Config.Parameters} {o : Byte} {t : Template} (h : decodeBase p o = .ok t) :
    isPreOpcode o = false := by
  cases ho : isPreOpcode o with
  | false => rfl
  | true =>
    obtain ⟨hx, hn⟩ := (decodeX3_eq_none_iff o).2 (.inr ho)
    cases h.symm.trans (decodeBase_eq_error.2 ⟨hx, hn, rfl⟩)

theorem decodeFrom_eq_ok {p : Config.Parameters} {pre o : Byte} {bytes rest : List Byte} {i : Instr} :
    decodeFrom p pre o bytes = .ok (i, rest) ↔
      ∃ t, decodeOpcode p pre o = .ok t ∧ ∃ v, t.instr v = i ∧ bytes = t.operandBytes v ++ rest := by
  unfold decodeFrom
  cases decodeOpcode p pre o with
  | error r => simp
  | ok t => simp [takeOperands_eq_ok]

/-- The decoder reads the instructions of a row after its opcode bytes (30_encoding.md R130, R134). -/
theorem OpcodeRow.decode {p : Config.Parameters} {opcode : List Byte} {t : Template} (h : OpcodeRow p opcode t)
    (v : Word) (rest : List Byte) : decode p (opcode ++ t.operandBytes v ++ rest) = .ok (t.instr v, rest) := by
  cases h with
  | base h =>
    have hb := isPreOpcode_false_of_decodeBase h
    simp only [List.cons_append, List.nil_append, Sys2Proof.decode, hb, Bool.false_eq_true, if_false]
    exact decodeFrom_eq_ok.2 ⟨t, h, v, rfl, rfl⟩
  | cb o => exact decodeFrom_eq_ok.2 ⟨decodeCb o, show decodeOpcode p 0xCB#8 o = _ from rfl, v, rfl, rfl⟩
  | @gbx o base _ hb hf =>
    have ht : decodeOpcode p 0xFC#8 o = .ok t := by
      change decodeGbx p o = .ok t
      rw [decodeGbx, hb, Option.bind_some, hf]
    exact decodeFrom_eq_ok.2 ⟨t, ht, v, rfl, rfl⟩

theorem decodeGbx_eq_ok {p : Config.Parameters} {o : Byte} {t : Template} (h : decodeGbx p o = .ok t) :
    ∃ base, p.gbxBase? o = some base ∧ gbxForm base = some t := by
  unfold decodeGbx at h
  split at h
  · rename_i ht
    cases h
    exact Option.bind_eq_some_iff.1 ht
  · cases h

theorem decodeIndex_eq_ok {p : Config.Parameters} {pre o : Byte} {t : Template} (h : decodeIndex p pre o = .ok t) :
    ∃ base, p.indexBase? pre o = some base ∧ decodeBase p base = .ok t := by
  unfold decodeIndex at h
  split at h
  · cases h
  · split at h
    · cases h
      exact ⟨_, ‹_›, ‹_›⟩
    · cases h

/-- Bytes that decode start with the opcode bytes of a row, or with a word that a row of `INDEX_TABLE` gives the
template of an unprefixed opcode (30_encoding.md R134, R146). -/
theorem exists_row_of_decode {p : Config.Parameters} {bytes rest : List Byte} {i : Instr}
    (h : decode p bytes = .ok (i, rest)) : ∃ t v opcode, t.instr v = i ∧ bytes = opcode ++ t.operandBytes v ++ rest ∧
      (OpcodeRow p opcode t ∨ ∃ pre o base, opcode = [pre, o] ∧ (pre = 0xDD#8 ∨ pre = 0xFD#8) ∧
        p.indexBase? pre o = some base ∧ decodeBase p base = .ok t) := by
  unfold decode at h
  split at h
  · cases h
  · rename_i b tail
    split at h
    · rename_i hb
      split at h
      · cases h
      · rename_i o tail
        obtain ⟨t, ht, v, hi, rfl⟩ := decodeFrom_eq_ok.1 h
        refine ⟨t, v, [b, o], hi, rfl, ?_⟩
        obtain rfl | rfl | rfl | rfl := isPreOpcode_iff.1 hb
        · cases ht
          exact .inl (.cb o)
        · obtain ⟨base, hbase, ht⟩ := decodeIndex_eq_ok ht
          exact .inr ⟨_, o, base, rfl, .inl rfl, hbase, ht⟩
        · obtain ⟨base, hbase, ht⟩ := decodeIndex_eq_ok ht
          exact .inr ⟨_, o, base, rfl, .inr rfl, hbase, ht⟩
        · obtain ⟨base, hbase, hf⟩ := decodeGbx_eq_ok ht
          exact .inl (.gbx hbase hf)
    · obtain ⟨t, ht, v, hi, rfl⟩ := decodeFrom_eq_ok.1 h
      exact ⟨t, v, [b], hi, rfl, .inl (.base ht)⟩

theorem OpcodeRow.wf {p : Config.Parameters} {opcode : List Byte} {t : Template} (h : OpcodeRow p opcode t) : t.wf := by
  cases h with
  | base h => exact decodeBase_wf h
  | cb o => exact decodeCb_wf o
  | gbx _ hf => exact gbxForm_wf _ t hf

end Sys2Proof
end

section
/-! PROOFS. Every well-formed instruction stands in an opcode map, with which decoding and encoding are inverse to each
other (30_encoding.md R130 to R147). -/

namespace Sys2Proof

/-! ## The values of the operand fields (30_encoding.md R136 to R138) -/

theorem regField_regCode {r : Reg8} (h : r.isOperand = true) : regField (regCode r) = some r := by
  cases r
  case f | ir | pir => cases h
  all_goals rfl

theorem regField_six : regField 6 = none := rfl

theorem regCode_lt (r : Reg8) : regCode r < 8 := by
  cases r <;> decide

theorem onOperand_regCode {r : Reg8} (h : r.isOperand = true) (reg : Reg8 → Instr) (hl : Instr) :
    onOperand (regCode r) reg hl = .done (reg r) := by
  rw [onOperand, regField_regCode h]

theorem Reg16.isAluPair_iff {rr : Reg16} : rr.isAluPair = true ↔ rr = .bc ∨ rr = .de ∨ rr = .hl ∨ rr = .sp := by
  cases rr <;> decide

theorem Reg16.isStackPair_iff {qq : Reg16} : qq.isStackPair = true ↔ qq = .bc ∨ qq = .de ∨ qq = .hl ∨ qq = .af := by
  cases qq <;> decide

theorem decodeBase_opcodeOf_zero (p : Config.Parameters) {y z : Nat} (hy : y < 8) (hz : z < 8) :
    decodeBase p (opcodeOf 0 y z) = .ok (decodeX0 p y z) := by
  simp only [decodeBase, fieldX_opcodeOf (by decide : 0 < 4) hy hz, fieldY_opcodeOf 0 hy hz, fieldZ_opcodeOf 0 y hz]

theorem decodeBase_opcodeOf_one (p : Config.Parameters) {y z : Nat} (hy : y < 8) (hz : z < 8) :
    decodeBase p (opcodeOf 1 y z) = .ok (decodeX1 y z) := by
  simp only [decodeBase, fieldX_opcodeOf (by decide : 1 < 4) hy hz, fieldY_opcodeOf 1 hy hz, fieldZ_opcodeOf 1 y hz]

theorem decodeBase_opcodeOf_two (p : Config.Parameters) {y z : Nat} (hy : y < 8) (hz : z < 8) :
    decodeBase p (opcodeOf 2 y z) = .ok (decodeX2 y z) := by
  simp only [decodeBase, fieldX_opcodeOf (by decide : 2 < 4) hy hz, fieldY_opcodeOf 2 hy hz, fieldZ_opcodeOf 2 y hz]

theorem decodeBase_opcodeOf_rst (p : Config.Parameters) (t : BitVec 3) :
    decodeBase p (opcodeOf 3 t.toNat 7) = .ok (.done (.rst t)) := by
  have hy : t.toNat < 8 := t.isLt
  simp [decodeBase, fieldX_opcodeOf (by decide : 3 < 4) hy, fieldY_opcodeOf 3 hy, fieldZ_opcodeOf, decodeX3]

theorem decodeBase_stop_one {p : Config.Parameters} (hs : p.stopLength = .one) :
    decodeBase p 0x10#8 = .ok (.done (.stop 0#8)) := by
  change Except.ok (decodeX0 p 2 0) = _
  simp [decodeX0, hs]

theorem decodeBase_stop_two {p : Config.Parameters} (hs : p.stopLength = .two) :
    decodeBase p 0x10#8 = .ok (.imm8 .stop) := by
  change Except.ok (decodeX0 p 2 0) = _
  simp [decodeX0, hs]

/-- No other GBX form has a base opcode among the loads (30_encoding.md R147). -/
theorem gbxForm_load {base : Byte} (hx : fieldX base = 1) (hz : fieldZ base = 6) :
    gbxForm base = (regField (fieldY base)).map fun r => .done (.lduRHl r) := by
  fun_cases gbxForm base
  case case9 => rfl
  case case10 hn => exact absurd ⟨hx, hz⟩ hn
  all_goals
    subst base
    cases hx

/-! ## The place of every instruction in the maps -/

/-- The instruction is of a row of the opcode maps, or the GBX form of a base opcode, which has a row where `GBX_TABLE`
gives it an opcode. -/
inductive InMaps (p : Config.Parameters) : Instr → Prop where
  | row {opcode : List Byte} {t : Template} (v : Word) : OpcodeRow p opcode t → InMaps p (t.instr v)
  | gbx {base : Byte} {t : Template} (v : Word) : gbxForm base = some t → InMaps p (t.instr v)

namespace InMaps

variable {p : Config.Parameters}

theorem done {i : Instr} (o : Byte) (h : decodeBase p o = .ok (.done i)) : InMaps p i := .row 0 (.base h)

theorem imm8 {f : Byte → Instr} {n : Byte} (o : Byte) (h : decodeBase p o = .ok (.imm8 f)) : InMaps p (f n) :=
  Machine.Word.low_ofBytes 0 n ▸ .row (Word.ofBytes 0 n) (.base h)

theorem imm16 {f : Word → Instr} {nn : Word} (o : Byte) (h : decodeBase p o = .ok (.imm16 f)) : InMaps p (f nn) :=
  .row nn (.base h)

/-- An opcode of the first quarter of the unprefixed map with its register in the `y` field. -/
theorem regX0 {r : Reg8} {reg : Reg8 → Instr} {hl : Instr} (z : Nat) (hr : r.isOperand = true)
    (h : ∀ y, decodeX0 p y z = onOperand y reg hl) (hz : z < 8 := by decide) : InMaps p (reg r) :=
  .done (opcodeOf 0 (regCode r) z) <| by
    rw [decodeBase_opcodeOf_zero p (regCode_lt r) hz, h, onOperand_regCode hr]

/-- An ALU operation on a register (30_encoding.md R142). -/
theorem regX2 {r : Reg8} {reg : Reg8 → Instr} {hl : Instr} (y : Nat) (hr : r.isOperand = true)
    (h : ∀ z, decodeX2 y z = onOperand z reg hl) (hy : y < 8 := by decide) : InMaps p (reg r) :=
  .done (opcodeOf 2 y (regCode r)) <| by
    rw [decodeBase_opcodeOf_two p hy (regCode_lt r), h, onOperand_regCode hr]

theorem cbDone {i : Instr} (o : Byte) (h : decodeCb o = .done i) : InMaps p i := by
  have hi := InMaps.row (p := p) 0 (.cb o)
  rwa [h] at hi

/-- A row of the `0xCB` map on a register (30_encoding.md R141, R143). -/
theorem cbReg {r : Reg8} {reg : Reg8 → Instr} (x y : Nat) (hl : Instr) (hr : r.isOperand = true)
    (hx : x < 4 := by decide) (hy : y < 8 := by decide)
    (h : ∀ o, fieldX o = x → fieldY o = y → decodeCb o = onOperand (fieldZ o) reg hl := by
      intro o hx hy
      simp [decodeCb, hx, hy]) : InMaps p (reg r) :=
  cbDone (opcodeOf x y (regCode r)) <| by
    have hz := regCode_lt r
    rw [h _ (fieldX_opcodeOf hx hy hz) (fieldY_opcodeOf x hy hz), fieldZ_opcodeOf x y hz, onOperand_regCode hr]

/-- A row of the `0xCB` map on `(HL)` (30_encoding.md R141, R143). -/
theorem cbHl {hl : Instr} (x y : Nat) (reg : Reg8 → Instr) (hx : x < 4 := by decide) (hy : y < 8 := by decide)
    (h : ∀ o, fieldX o = x → fieldY o = y → decodeCb o = onOperand (fieldZ o) reg hl := by
      intro o hx hy
      simp [decodeCb, hx, hy]) : InMaps p hl :=
  cbDone (opcodeOf x y 6) <| by
    have hz : 6 < 8 := by decide
    rw [h _ (fieldX_opcodeOf hx hy hz) (fieldY_opcodeOf x hy hz), fieldZ_opcodeOf x y hz]
    rfl

theorem gbxImm8 {f : Byte → Instr} {n : Byte} (base : Byte) (h : gbxForm base = some (.imm8 f)) : InMaps p (f n) :=
  Machine.Word.low_ofBytes 0 n ▸ .gbx (Word.ofBytes 0 n) h

theorem stop {x : Byte} (h : p.stopLength = .two ∨ x = 0#8) : InMaps p (.stop x) := by
  cases hs : p.stopLength with
  | two => exact .imm8 0x10#8 (decodeBase_stop_two hs)
  | one =>
    obtain rfl : x = 0#8 := h.resolve_left (by simp [hs])
    exact .done 0x10#8 (decodeBase_stop_one hs)

theorem ldRN {r : Reg8} {n : Byte} (hr : r.isOperand = true) : InMaps p (.ldRN r n) :=
  .imm8 (opcodeOf 0 (regCode r) 6) <| by
    simp [decodeBase_opcodeOf_zero p (regCode_lt r), decodeX0, regField_regCode hr]

theorem ldRR {r r' : Reg8} (h : (Instr.ldRR r r').wf = true) : InMaps p (.ldRR r r') := by
  obtain ⟨hr, hr'⟩ := Bool.and_eq_true_iff.1 h
  refine .done (opcodeOf 1 (regCode r) (regCode r')) ?_
  rw [decodeBase_opcodeOf_one p (regCode_lt r) (regCode_lt r'), decodeX1, regField_regCode hr, regField_regCode hr']

theorem ldRHl {r : Reg8} (hr : r.isOperand = true) : InMaps p (.ldRHl r) :=
  .done (opcodeOf 1 (regCode r) 6) <| by
    simp [decodeBase_opcodeOf_one p (regCode_lt r), decodeX1, regField_regCode hr, regField_six]

theorem ldHlR {r : Reg8} (hr : r.isOperand = true) : InMaps p (.ldHlR r) :=
  .done (opcodeOf 1 6 (regCode r)) <| by
    simp [decodeBase_opcodeOf_one p _ (regCode_lt r), decodeX1, regField_regCode hr, regField_six]

theorem lduRHl {r : Reg8} (hr : r.isOperand = true) : InMaps p (.lduRHl r) :=
  .gbx (base := opcodeOf 1 (regCode r) 6) (t := .done (.lduRHl r)) 0 <| by
    have hy := regCode_lt r
    have hz : 6 < 8 := by decide
    rw [gbxForm_load (fieldX_opcodeOf (by decide) hy hz) (fieldZ_opcodeOf 1 _ hz), fieldY_opcodeOf 1 hy hz,
      regField_regCode hr, Option.map_some]

/-- Every well-formed instruction stands in the maps; STOP has an ignored byte other than 0 only where it is fetched. -/
theorem of_wf : ∀ i : Instr, i.wf = true →
    (∀ x, i = .stop x → p.stopLength = .two ∨ x = 0#8) → InMaps p i
  | .nop, _, _ => .done 0x00#8 rfl
  | .ldRrNn rr _, h, _ => .imm16 (opByte (0x01 + 16 * pairCode rr))
    (by obtain rfl | rfl | rfl | rfl := Reg16.isAluPair_iff.1 h <;> rfl)
  | .ldBcA, _, _ => .done 0x02#8 rfl
  | .ldDeA, _, _ => .done 0x12#8 rfl
  | .ldHliA, _, _ => .done 0x22#8 rfl
  | .ldHldA, _, _ => .done 0x32#8 rfl
  | .ldABc, _, _ => .done 0x0A#8 rfl
  | .ldADe, _, _ => .done 0x1A#8 rfl
  | .ldAHli, _, _ => .done 0x2A#8 rfl
  | .ldAHld, _, _ => .done 0x3A#8 rfl
  | .incRr rr, h, _ => .done (opByte (0x03 + 16 * pairCode rr))
    (by obtain rfl | rfl | rfl | rfl := Reg16.isAluPair_iff.1 h <;> rfl)
  | .decRr rr, h, _ => .done (opByte (0x0B + 16 * pairCode rr))
    (by obtain rfl | rfl | rfl | rfl := Reg16.isAluPair_iff.1 h <;> rfl)
  | .incR _, h, _ => .regX0 4 h fun _ => rfl
  | .incHl, _, _ => .done 0x34#8 rfl
  | .decR _, h, _ => .regX0 5 h fun _ => rfl
  | .decHl, _, _ => .done 0x35#8 rfl
  | .ldRN _ _, h, _ => ldRN h
  | .ldHlN _, _, _ => .imm8 0x36#8 rfl
  | .rlca, _, _ => .done 0x07#8 rfl
  | .rrca, _, _ => .done 0x0F#8 rfl
  | .rla, _, _ => .done 0x17#8 rfl
  | .rra, _, _ => .done 0x1F#8 rfl
  | .ldNnSp _, _, _ => .imm16 0x08#8 rfl
  | .addHlRr rr, h, _ => .done (opByte (0x09 + 16 * pairCode rr))
    (by obtain rfl | rfl | rfl | rfl := Reg16.isAluPair_iff.1 h <;> rfl)
  | .stop _, _, hx => stop (hx _ rfl)
  | .jr _, _, _ => .imm8 0x18#8 rfl
  | .jrCc cc _, _, _ => .imm8 (opByte (0x20 + 8 * condCode cc)) (by cases cc <;> rfl)
  | .daa, _, _ => .done 0x27#8 rfl
  | .cpl, _, _ => .done 0x2F#8 rfl
  | .scf, _, _ => .done 0x37#8 rfl
  | .ccf, _, _ => .done 0x3F#8 rfl
  | .ldRR _ _, h, _ => ldRR h
  | .ldRHl _, h, _ => ldRHl h
  | .ldHlR _, h, _ => ldHlR h
  | .halt, _, _ => .done 0x76#8 rfl
  | .addR _, h, _ => .regX2 0 h fun _ => rfl
  | .addHl, _, _ => .done 0x86#8 rfl
  | .addN _, _, _ => .imm8 0xC6#8 rfl
  | .adcR _, h, _ => .regX2 1 h fun _ => rfl
  | .adcHl, _, _ => .done 0x8E#8 rfl
  | .adcN _, _, _ => .imm8 0xCE#8 rfl
  | .subR _, h, _ => .regX2 2 h fun _ => rfl
  | .subHl, _, _ => .done 0x96#8 rfl
  | .subN _, _, _ => .imm8 0xD6#8 rfl
  | .sbcR _, h, _ => .regX2 3 h fun _ => rfl
  | .sbcHl, _, _ => .done 0x9E#8 rfl
  | .sbcN _, _, _ => .imm8 0xDE#8 rfl
  | .andR _, h, _ => .regX2 4 h fun _ => rfl
  | .andHl, _, _ => .done 0xA6#8 rfl
  | .andN _, _, _ => .imm8 0xE6#8 rfl
  | .xorR _, h, _ => .regX2 5 h fun _ => rfl
  | .xorHl, _, _ => .done 0xAE#8 rfl
  | .xorN _, _, _ => .imm8 0xEE#8 rfl
  | .orR _, h, _ => .regX2 6 h fun _ => rfl
  | .orHl, _, _ => .done 0xB6#8 rfl
  | .orN _, _, _ => .imm8 0xF6#8 rfl
  | .cpR _, h, _ => .regX2 7 h fun _ => rfl
  | .cpHl, _, _ => .done 0xBE#8 rfl
  | .cpN _, _, _ => .imm8 0xFE#8 rfl
  | .retCc cc, _, _ => .done (opByte (0xC0 + 8 * condCode cc)) (by cases cc <;> rfl)
  | .ret, _, _ => .done 0xC9#8 rfl
  | .reti, _, _ => .done 0xD9#8 rfl
  | .pop qq, h, _ => .done (opByte (0xC1 + 16 * pairCode qq))
    (by obtain rfl | rfl | rfl | rfl := Reg16.isStackPair_iff.1 h <;> rfl)
  | .push qq, h, _ => .done (opByte (0xC5 + 16 * pairCode qq))
    (by obtain rfl | rfl | rfl | rfl := Reg16.isStackPair_iff.1 h <;> rfl)
  | .jpCc cc _, _, _ => .imm16 (opByte (0xC2 + 8 * condCode cc)) (by cases cc <;> rfl)
  | .jp _, _, _ => .imm16 0xC3#8 rfl
  | .jpHl, _, _ => .done 0xE9#8 rfl
  | .callCc cc _, _, _ => .imm16 (opByte (0xC4 + 8 * condCode cc)) (by cases cc <;> rfl)
  | .call _, _, _ => .imm16 0xCD#8 rfl
  | .rst t, _, _ => .done (opcodeOf 3 t.toNat 7) (decodeBase_opcodeOf_rst p t)
  | .ldhNA _, _, _ => .imm8 0xE0#8 rfl
  | .ldhAN _, _, _ => .imm8 0xF0#8 rfl
  | .ldCA, _, _ => .done 0xE2#8 rfl
  | .ldAC, _, _ => .done 0xF2#8 rfl
  | .addSpE _, _, _ => .imm8 0xE8#8 rfl
  | .ldHlSpE _, _, _ => .imm8 0xF8#8 rfl
  | .ldSpHl, _, _ => .done 0xF9#8 rfl
  | .ldNnA _, _, _ => .imm16 0xEA#8 rfl
  | .ldANn _, _, _ => .imm16 0xFA#8 rfl
  | .di, _, _ => .done 0xF3#8 rfl
  | .ei, _, _ => .done 0xFB#8 rfl
  | .rlcR _, h, _ => .cbReg 0 0 .rlcHl h
  | .rlcHl, _, _ => .cbHl 0 0 .rlcR
  | .rrcR _, h, _ => .cbReg 0 1 .rrcHl h
  | .rrcHl, _, _ => .cbHl 0 1 .rrcR
  | .rlR _, h, _ => .cbReg 0 2 .rlHl h
  | .rlHl, _, _ => .cbHl 0 2 .rlR
  | .rrR _, h, _ => .cbReg 0 3 .rrHl h
  | .rrHl, _, _ => .cbHl 0 3 .rrR
  | .slaR _, h, _ => .cbReg 0 4 .slaHl h
  | .slaHl, _, _ => .cbHl 0 4 .slaR
  | .sraR _, h, _ => .cbReg 0 5 .sraHl h
  | .sraHl, _, _ => .cbHl 0 5 .sraR
  | .swapR _, h, _ => .cbReg 0 6 .swapHl h
  | .swapHl, _, _ => .cbHl 0 6 .swapR
  | .srlR _, h, _ => .cbReg 0 7 .srlHl h
  | .srlHl, _, _ => .cbHl 0 7 .srlR
  | .bitR b _, h, _ => .cbReg 1 b.toNat (.bitHl b) h (hy := b.isLt)
  | .bitHl b, _, _ => .cbHl 1 b.toNat (.bitR b) (hy := b.isLt)
  | .resR b _, h, _ => .cbReg 2 b.toNat (.resHl b) h (hy := b.isLt)
  | .resHl b, _, _ => .cbHl 2 b.toNat (.resR b) (hy := b.isLt)
  | .setR b _, h, _ => .cbReg 3 b.toNat (.setHl b) h (hy := b.isLt)
  | .setHl b, _, _ => .cbHl 3 b.toNat (.setR b) (hy := b.isLt)
  | .jpu nn, _, _ => .gbx nn (base := 0xC3#8) rfl
  | .lduRHl _, h, _ => lduRHl h
  | .lduABc, _, _ => .gbx 0 (base := 0x0A#8) rfl
  | .lduADe, _, _ => .gbx 0 (base := 0x1A#8) rfl
  | .lduAHli, _, _ => .gbx 0 (base := 0x2A#8) rfl
  | .lduAHld, _, _ => .gbx 0 (base := 0x3A#8) rfl
  | .lduANn nn, _, _ => .gbx nn (base := 0xFA#8) rfl
  | .ldhuAN _, _, _ => .gbxImm8 0xF0#8 rfl
  | .lduAC, _, _ => .gbx 0 (base := 0xF2#8) rfl

end InMaps

/-! ## The round trips -/

theorem Instr.encodable_iff {p : Config.Parameters} {i : Instr} : i.encodable p = true ↔
    i.wf = true ∧ encode p i ≠ [] ∧ ∀ x, i = .stop x → p.stopLength = .two ∨ x = 0#8 := by
  unfold Instr.encodable
  split
  · simp [and_assoc]
  · rename_i hns
    have hs : ∀ x, i = .stop x → p.stopLength = .two ∨ x = 0#8 := fun x h => (hns x h).elim
    simp only [Bool.and_true, Bool.and_eq_true, bne_iff_ne, and_iff_left hs]

theorem OpcodeRow.opcode_ne_nil {p : Config.Parameters} {opcode : List Byte} {t : Template} (h : OpcodeRow p opcode t) :
    opcode ≠ [] := by
  cases h <;> exact List.cons_ne_nil _ _

/-- Only the row of the opcode 0x10 is STOP's, and it takes the byte where `STOP_LENGTH` is 2 (47_system.md R432). -/
theorem OpcodeRow.stop {p : Config.Parameters} {opcode : List Byte} {t : Template} (h : OpcodeRow p opcode t)
    (hc : t.HasOpcode p opcode) {v : Word} {x : Byte} (hx : t.instr v = .stop x) :
    p.stopLength = .two ∨ x = 0#8 := by
  have hcode := hc v
  rw [hx] at hcode
  cases h with
  | base h =>
    obtain ⟨rfl, -⟩ := List.cons.inj hcode
    cases hs : p.stopLength with
    | two => exact .inl rfl
    | one =>
      cases h.symm.trans (decodeBase_stop_one hs)
      cases hx
      exact .inr rfl
  | cb o => exact absurd (List.cons.inj hcode).1 (by decide)
  | gbx _ _ => exact absurd (List.cons.inj hcode).1 (by decide)

/-- The instructions of a row have an encoding. -/
theorem OpcodeRow.encodable {p : Config.Parameters} {opcode : List Byte} {t : Template} (hp : p.gbxOneToOne = true)
    (h : OpcodeRow p opcode t) (v : Word) : (t.instr v).encodable p = true := by
  have hc := h.hasOpcode hp
  refine Instr.encodable_iff.2 ⟨h.wf v, ?_, fun x hx => h.stop hc hx⟩
  rw [hc v]
  exact List.append_ne_nil_of_left_ne_nil h.opcode_ne_nil _

/-- An instruction with an encoding is of a row of the maps: `GBX_TABLE` gives an encodable GBX form its opcode. -/
theorem exists_row_of_encodable {p : Config.Parameters} {i : Instr} (hp : p.gbxOneToOne = true)
    (h : i.encodable p = true) : ∃ opcode t v, OpcodeRow p opcode t ∧ t.instr v = i := by
  obtain ⟨hw, hne, hs⟩ := Instr.encodable_iff.1 h
  cases InMaps.of_wf i hw hs with
  | row v hr => exact ⟨_, _, v, hr, rfl⟩
  | @gbx base t v hf =>
    rw [encode_gbxForm p base t hf, gbxBytes] at hne
    cases ho : p.gbxOpcode? base with
    | none => simp [ho] at hne
    | some o => exact ⟨_, _, v, .gbx ((gbxOpcode?_eq_some_iff hp).1 ho) hf, rfl⟩

theorem decode_encode {p : Config.Parameters} {i : Instr} (hp : p.gbxOneToOne = true) (h : i.encodable p = true)
    (rest : List Byte) : decode p (encode p i ++ rest) = .ok (i, rest) := by
  obtain ⟨opcode, t, v, hr, rfl⟩ := exists_row_of_encodable hp h
  rw [hr.hasOpcode hp v]
  exact hr.decode v rest

/-- The default `GBX_TABLE` has a row for every GBX form (30_encoding.md R147). -/
theorem gbxOpcode?_default : ∀ base : Byte, (gbxForm base).isSome = true →
    Machine.Params.default.gbxOpcode? base = some base := by decide

theorem encodable_default {i : Instr} (h : i.wf = true) : i.encodable Machine.Params.default = true := by
  cases InMaps.of_wf (p := Machine.Params.default) i h fun _ _ => .inl rfl with
  | row v hr => exact hr.encodable rfl v
  | @gbx base t v hf =>
    have ho := gbxOpcode?_default base (hf ▸ rfl)
    exact OpcodeRow.encodable rfl (.gbx ((gbxOpcode?_eq_some_iff rfl).1 ho) hf) v

/-- Settles O10: an encodable instruction is of a row of the maps, which the encoder writes and the decoder reads. -/
theorem decodeEncode : Obligations.DecodeEncode :=
  ⟨fun _ _ rest hp h => decode_encode hp h rest, rfl, fun _ h => encodable_default h⟩

/-- Settles O11: bytes that decode start with the opcode bytes of a row, which the encoder writes, or with a word of
`INDEX_TABLE`. -/
theorem encodeDecode : Obligations.EncodeDecode := by
  intro p bytes rest i hp h
  obtain ⟨t, v, opcode, rfl, rfl, hr | ⟨pre, o, base, rfl, hpre, hbase, ht⟩⟩ := exists_row_of_decode h
  · exact ⟨hr.wf v, .inl ⟨hr.encodable hp v, by rw [hr.hasOpcode hp v]⟩⟩
  · exact ⟨decodeBase_wf ht v, .inr ⟨pre, o, base, t.operandBytes v ++ rest, rfl, hpre, hbase,
      (OpcodeRow.base ht).decode v rest⟩⟩

end Sys2Proof
end

section
/-! PROOFS. The fetch, phase by phase (40_control_unit.md R171 to R178, 20_memory.md R94): which bytes it takes for
an instruction, and where it faults. -/

namespace Sys2Proof

/-! ## The templates of a 16-bit immediate -/

/-- A template that takes two operand bytes makes instructions with a 16-bit immediate (40_control_unit.md R181). -/
def Template.WordOperand (p : Config.Parameters) (t : Template) : Prop :=
  ∀ f, t = .imm16 f → ∀ nn, Machine.hasWordOperand p (f nn) = true

section
variable {p : Config.Parameters}

theorem onOperand_wordOperand (z : Nat) (reg : Reg8 → Instr) (hl : Instr) : (onOperand z reg hl).WordOperand p := by
  unfold onOperand
  split <;> rintro _ ⟨⟩

theorem decodeX0_wordOperand (y z : Nat) : (decodeX0 p y z).WordOperand p := by
  fun_cases decodeX0 p y z
  case case19 | case20 => exact onOperand_wordOperand _ _ _
  all_goals rintro _ ⟨⟩ <;> exact fun _ => rfl

theorem decodeX1_wordOperand (y z : Nat) : (decodeX1 y z).WordOperand p := by
  fun_cases decodeX1 y z <;> rintro _ ⟨⟩

theorem decodeX2_wordOperand (y z : Nat) : (decodeX2 y z).WordOperand p := by
  fun_cases decodeX2 y z <;> exact onOperand_wordOperand _ _ _

theorem decodeX3_wordOperand (y z : Nat) : ∀ t ∈ decodeX3 y z, t.WordOperand p := by
  fun_cases decodeX3 y z <;> rintro _ ⟨⟩ _ ⟨⟩ <;> exact fun _ => rfl

theorem decodeBase_wordOperand {o : Byte} {t : Template} (h : decodeBase p o = .ok t) : t.WordOperand p := by
  unfold decodeBase at h
  split at h
  · cases h
    exact decodeX0_wordOperand _ _
  · cases h
    exact decodeX1_wordOperand _ _
  · cases h
    exact decodeX2_wordOperand _ _
  · split at h
    · cases h
      exact decodeX3_wordOperand _ _ t ‹_›
    · cases h

theorem decodeCb_wordOperand (o : Byte) : (decodeCb o).WordOperand p := by
  fun_cases decodeCb o <;> exact onOperand_wordOperand _ _ _

theorem gbxForm_wordOperand (base : Byte) : ∀ t ∈ gbxForm base, t.WordOperand p := by
  fun_cases gbxForm base
  case case9 =>
    intro t ht
    obtain ⟨r, -, rfl⟩ := Option.map_eq_some_iff.1 ht
    rintro _ ⟨⟩
  all_goals rintro _ ⟨⟩ _ ⟨⟩ <;> exact fun _ => rfl

theorem decodeOpcode_wordOperand {pre o : Byte} {t : Template} (h : decodeOpcode p pre o = .ok t) :
    t.WordOperand p := by
  unfold decodeOpcode at h
  split at h
  · cases h
    exact decodeCb_wordOperand o
  · split at h
    · obtain ⟨base, -, ht⟩ := decodeGbx_eq_ok h
      exact gbxForm_wordOperand base t ht
    · split at h
      · obtain ⟨base, -, ht⟩ := decodeIndex_eq_ok h
        exact decodeBase_wordOperand ht
      · exact decodeBase_wordOperand h

end

namespace Machine

/-! ## The bytes at PC -/

/-- The opcode bytes of pre-opcode `pre` (0 if there is none) and opcode `o` (30_encoding.md R134). -/
inductive OpcodeBytes : Byte → Byte → List Byte → Prop
  | unprefixed (o : Byte) : isPreOpcode o = false → OpcodeBytes 0x00#8 o [o]
  | prefixed (pre o : Byte) : isPreOpcode pre = true → OpcodeBytes pre o [pre, o]

/-- Bytes that decode are opcode bytes and the operand bytes of their template (30_encoding.md R130, R134). -/
theorem exists_opcodeBytes_of_decode {p : Config.Parameters} {bytes rest : List Byte} {i : Instr}
    (h : decode p bytes = .ok (i, rest)) : ∃ pre o opcode t v, OpcodeBytes pre o opcode ∧
      decodeOpcode p pre o = .ok t ∧ t.instr v = i ∧ bytes = opcode ++ (t.operandBytes v ++ rest) := by
  unfold decode at h
  split at h
  · cases h
  · split at h
    · split at h
      · cases h
      · obtain ⟨t, ht, v, hi, rfl⟩ := decodeFrom_eq_ok.1 h
        exact ⟨_, _, _, t, v, .prefixed _ _ ‹_›, ht, hi, rfl⟩
    · obtain ⟨t, ht, v, hi, rfl⟩ := decodeFrom_eq_ok.1 h
      exact ⟨_, _, _, t, v, .unprefixed _ (Bool.eq_false_iff.2 ‹_›), ht, hi, rfl⟩

theorem Word.add_ofNat_add (a : Word) (m n : Nat) :
    a + BitVec.ofNat 16 (m + n) = a + BitVec.ofNat 16 m + BitVec.ofNat 16 n := by
  rw [BitVec.ofNat_add, BitVec.add_assoc]

/-- The first of the bytes at PC are at PC, the rest are where PC is after them. -/
theorem State.bytesAtPc_append {s : State} {xs ys : List Byte} (h : s.bytesAtPc (xs ++ ys)) :
    s.bytesAtPc xs ∧ (s.setPair .pc (s.pair .pc + BitVec.ofNat 16 xs.length)).bytesAtPc ys := by
  constructor
  · intro k hk
    rw [h k (by rw [List.length_append]; omega), List.getElem?_append_left hk]
  · intro k hk
    have hk' := h (xs.length + k) (by rw [List.length_append]; omega)
    rw [Word.add_ofNat_add, List.getElem?_append_right (Nat.le_add_right _ _), Nat.add_sub_cancel_left] at hk'
    exact hk'

/-- The first of the bytes at PC is readable there. -/
theorem State.bytesAtPc_cons {s : State} {b : Byte} {rest : List Byte} (h : s.bytesAtPc (b :: rest)) :
    s.mem.peek s.mode (s.pair .pc) = some b ∧ (s.setPair .pc (s.pair .pc + 1)).bytesAtPc rest := by
  obtain ⟨hb, hrest⟩ := State.bytesAtPc_append (xs := [b]) h
  have hstart : s.pair .pc + BitVec.ofNat 16 0 = s.pair .pc := BitVec.add_zero _
  exact ⟨hstart ▸ hb 0 Nat.one_pos, hrest⟩

/-- Opcode bytes at PC are what the opcode fetch reads. -/
theorem OpcodeBytes.read {s : State} {pre o : Byte} {opcode : List Byte} (h : OpcodeBytes pre o opcode)
    (hb : s.bytesAtPc opcode) : OpcodeRead s pre o (s.pair .pc + BitVec.ofNat 16 opcode.length) := by
  obtain ⟨_, ho⟩ | ⟨_, _, hp⟩ := h
  · exact .unprefixed o ho (State.bytesAtPc_cons hb).1
  · obtain ⟨hpre, hrest⟩ := State.bytesAtPc_cons hb
    exact .prefixed pre o hp hpre (State.bytesAtPc_cons hrest).1

/-- What the fetch writes before Execute: PC, PIR, IR, and `IsExecutionAborted`. -/
theorem OpcodeBytes.atExecute {pre o : Byte} {opcode : List Byte} (h : OpcodeBytes pre o opcode) (s : State)
    (operands : List Byte) : s.atExecute (opcode ++ operands) =
      ((s.beginCycle.setPair .pc (s.pair .pc + BitVec.ofNat 16 (opcode ++ operands).length)).setReg .pir pre).setReg
        .ir o := by
  obtain ⟨_, ho⟩ | ⟨_, _, hp⟩ := h
  · cases operands with
    | nil => rfl
    | cons => simp [State.atExecute, State.beginCycle, ho]
  · simp [State.atExecute, State.beginCycle, hp]

theorem State.unstraddled.straddleCheck {s : State} {a : Word} (h : s.unstraddled a) (k : AccessKind) :
    s.mem.straddleCheck s.params.straddleFault s.mode a k = none := by
  cases hb : s.params.straddleFault with
  | false => rfl
  | true => exact Memory.straddleCheck_pair true k (h hb)

/-- Operand bytes at PC that pass the straddle check are taken, with PC past them (40_control_unit.md R176). -/
theorem State.fetchOperands_read {s : State} {t : Template} {v : Word} (hb : s.bytesAtPc (t.operandBytes v))
    (hs : ∀ f, t = .imm16 f → s.unstraddled (s.pair .pc)) :
    s.fetchOperands t =
      .ok (t.instr v, s.setPair .pc (s.pair .pc + BitVec.ofNat 16 (t.operandBytes v).length)) := by
  cases t with
  | done i =>
    have hend : s.pair .pc = s.pair .pc + BitVec.ofNat 16 0 := (BitVec.add_zero _).symm
    exact congrArg (fun a => Except.ok (i, s.setPair .pc a)) hend
  | imm8 f =>
    unfold State.fetchOperands
    rw [State.fetchByte_peek (State.bytesAtPc_cons hb).1]
    rfl
  | imm16 f =>
    obtain ⟨hlow, hrest⟩ := State.bytesAtPc_cons hb
    have hhigh := (State.bytesAtPc_cons hrest).1
    unfold State.fetchOperands
    simp only [(hs f rfl).straddleCheck, State.fetchByte_peek hlow, State.fetchByte_peek hhigh]
    have hend : s.pair .pc + 1 + 1 = s.pair .pc + BitVec.ofNat 16 2 := BitVec.add_assoc _ _ _
    rw [Word.ofBytes_high_low]
    exact congrArg (fun a => Except.ok (f v, s.setPair .pc a)) hend

/-- With a readable opcode that decodes, the fetch goes on to the operand bytes. -/
theorem State.fetchInstr_read {s : State} {pre o : Byte} {a : Word} {t : Template} (hr : OpcodeRead s pre o a)
    (hd : decodeOpcode s.params pre o = .ok t) :
    s.fetchInstr = (((s.setPair .pc a).setReg .pir pre).setReg .ir o).fetchOperands t := by
  unfold State.fetchInstr
  rw [State.fetchOpcode_read hr]
  simp [hd]

/-- Settles O4: bytes that decode are opcode bytes and operand bytes, which the fetch reads one after the other. -/
theorem stepRunsDecoded : Obligations.StepRunsDecoded := by
  intro s i bytes hf _ hd hb hs
  obtain ⟨pre, o, opcode, t, v, hop, ht, rfl, rfl⟩ := exists_opcodeBytes_of_decode hd
  rw [List.append_nil] at hb hs ⊢
  obtain ⟨hcode, hoperands⟩ := State.bytesAtPc_append hb
  have hfetch := State.fetchInstr_read (hop.read hcode).beginCycle ht
  refine step_of_fetch hf (hfetch.trans ((State.fetchOperands_read
    (s := ((s.beginCycle.setPair .pc _).setReg .pir pre).setReg .ir o) hoperands ?_).trans ?_))
  · rintro f rfl
    have hstart := hs (decodeOpcode_wordOperand ht f rfl v)
    rw [List.length_append] at hstart
    exact hstart
  · rw [hop.atExecute, List.length_append, Word.add_ofNat_add]
    rfl

/-! ## Where the fetch faults -/

theorem State.fetchOperands_of_straddleCheck {s : State} (f : Word → Instr) {c : FaultCause}
    (h : s.mem.straddleCheck s.params.straddleFault s.mode (s.pair .pc) .fetch = some c) :
    s.fetchOperands (.imm16 f) = .error c := by
  simp only [State.fetchOperands, h]

/-- Every one-byte immediate faults where its address is unmapped (40_control_unit.md R176). -/
theorem faultsOnByte (f : Byte → Instr) : FaultsOnByte f := by
  intro s h
  simp only [State.fetchOperands, State.fetchByte_unmapped h]

/-- Every two-byte immediate faults where it is unmapped or straddles (20_memory.md R94, 40_control_unit.md R176). -/
theorem faultsOnWord (f : Word → Instr) : FaultsOnWord f := by
  refine ⟨fun s h => ?_, fun s hb hw hc hp => ?_, fun s low hb hl h => ?_⟩
  · cases hb : s.params.straddleFault with
    | true =>
      exact State.fetchOperands_of_straddleCheck f (hb ▸ Memory.straddleCheck_unmapped .fetch h)
    | false =>
      simp only [State.fetchOperands, hb, State.fetchByte_unmapped h]
      rfl
  · exact State.fetchOperands_of_straddleCheck f (hb ▸ Memory.straddleCheck_straddle hw .fetch hc hp)
  · have hpass : s.unstraddled (s.pair .pc) := fun ht => absurd (hb.symm.trans ht) Bool.false_ne_true
    simp only [State.fetchOperands, hpass.straddleCheck, State.fetchByte_peek hl]
    rw [State.fetchByte_unmapped (s := s.setPair .pc (s.pair .pc + 1)) h]
    rfl

/-- A byte that nothing covers is in no entry with the byte before it (20_memory.md R94). -/
theorem Memory.pairInOneEntry_of_not_covers {m : Memory} {d : Domain} {a : Word} (h : m.covers d (a + 1) = false) :
    m.pairInOneEntry d a = false := by
  refine Bool.eq_false_iff.2 fun hp => ?_
  obtain ⟨e, _, hr, -, -, hc, -⟩ := Memory.target_of_pairInOneEntry hp
  have howner := List.find?_some hr
  rw [Bool.and_eq_true, beq_iff_eq] at howner
  exact Bool.eq_false_iff.1 h (Memory.covers_iff.2 ⟨e, List.mem_of_find?_eq_some hr, howner.1, hc⟩)

theorem Memory.target_isSome_of_peek {m : Memory} {d : Domain} {a : Word} {v : Byte} (h : m.peek d a = some v) :
    (m.target d a).isNone = false := by
  unfold Memory.peek Memory.readByte at h
  cases ht : m.target d a with
  | none => simp [ht] at h
  | some x => rfl

/-- The second byte of a checked pair is reported as a straddle if nothing covers it (20_memory.md R94). -/
theorem Memory.straddleCheck_of_not_covers_next {m : Memory} {d : Domain} {a : Word} {low : Byte} (k : AccessKind)
    (hl : m.peek d a = some low) (h : m.covers d (a + 1) = false) :
    m.straddleCheck true d a k = some (.straddle a d) := by
  simp [Memory.straddleCheck, Memory.target_isSome_of_peek hl, Memory.pairInOneEntry_of_not_covers h]

theorem State.fetchInstr_of_fetchOpcode {s : State} {c : FaultCause} (h : s.fetchOpcode = .error c) :
    s.fetchInstr = .error c := by
  unfold State.fetchInstr
  rw [h]

theorem State.fetchOpcode_unmapped {s : State} (h : s.mem.covers s.mode (s.pair .pc) = false) :
    s.fetchOpcode = .error (.unmapped (s.pair .pc) s.mode .fetch) := by
  unfold State.fetchOpcode
  rw [State.fetchByte_unmapped h]

theorem State.fetchOpcode_unmapped_opcode {s : State} {pre : Byte} (hp : isPreOpcode pre = true)
    (hb : s.mem.peek s.mode (s.pair .pc) = some pre) (h : s.mem.covers s.mode (s.pair .pc + 1) = false) :
    s.fetchOpcode = .error (.unmapped (s.pair .pc + 1) s.mode .fetch) := by
  unfold State.fetchOpcode
  rw [State.fetchByte_peek hb]
  simp only [hp, if_true]
  rw [State.fetchByte_unmapped (s := (s.setPair .pc (s.pair .pc + 1)).setReg .pir pre) h]
  rfl

/-- The second byte of a two-byte immediate unmapped: a straddle of the two under the check, else its own fault. -/
theorem State.fetchOperands_unmapped_second {s : State} (f : Word → Instr) {low : Byte}
    (hl : s.mem.peek s.mode (s.pair .pc) = some low) (h : s.mem.covers s.mode (s.pair .pc + 1) = false) :
    s.fetchOperands (.imm16 f) = .error (if s.params.straddleFault then .straddle (s.pair .pc) s.mode
      else .unmapped (s.pair .pc + 1) s.mode .fetch) := by
  cases hb : s.params.straddleFault with
  | true =>
    refine State.fetchOperands_of_straddleCheck f ?_
    rw [hb]
    exact Memory.straddleCheck_of_not_covers_next .fetch hl h
  | false =>
    obtain ⟨-, -, second⟩ := faultsOnWord f
    exact second s low hb hl h

/-- Settles O6: each phase of the fetch faults where its byte is unmapped. -/
theorem fetchFaults : Obligations.FetchFaults := by
  refine ⟨fun s hf h => ?_, fun s p hf hp hb h => ?_, fun s p o a hf hr => ⟨fun f hd h => ?_, fun f hd =>
    ⟨fun h => ?_, fun low hl h => ?_⟩⟩, fun _ _ => ⟨rfl, rfl⟩⟩
  · exact step_of_fetch_error hf (State.fetchInstr_of_fetchOpcode (State.fetchOpcode_unmapped (s := s.beginCycle) h))
  · exact step_of_fetch_error hf
      (State.fetchInstr_of_fetchOpcode (State.fetchOpcode_unmapped_opcode (s := s.beginCycle) hp hb h))
  · exact step_of_fetch_error hf ((State.fetchInstr_read hr.beginCycle hd).trans (faultsOnByte f _ h))
  · obtain ⟨first, -⟩ := faultsOnWord f
    exact step_of_fetch_error hf ((State.fetchInstr_read hr.beginCycle hd).trans (first _ h))
  · exact step_of_fetch_error hf
      ((State.fetchInstr_read hr.beginCycle hd).trans (State.fetchOperands_unmapped_second f hl h))

end Machine
end Sys2Proof
end

section
/-! PROOFS. The post-cycle step, HALT, STOP (40_control_unit.md R179, R185): a set `HaltSignal` or `StopSignal` passes
unseen through each phase of a step. -/

namespace Sys2Proof.Machine

/-! ## The post-cycle step -/

theorem State.postCycle_mode (t : State) :
    t.postCycle.mode = if t.signals.userModeRequested then .user else t.mode := by
  unfold State.postCycle
  split <;> rfl

theorem State.postCycle_signals (t : State) : t.postCycle.signals =
    { t.signals with userModeRequested := false, userModeSourceOperandRequested := false } := by
  unfold State.postCycle
  split
  · rfl
  · rename_i h
    rw [← Bool.eq_false_iff.2 h]
    rfl

@[simp] theorem State.postCycle_alt (t : State) : t.postCycle.alt = t.alt := by
  unfold State.postCycle
  split <;> rfl

@[simp] theorem State.postCycle_draws (t : State) : t.postCycle.draws = t.draws := by
  unfold State.postCycle
  split <;> rfl

/-- Settles O5: one lemma for each field the post-cycle step writes, one for each it leaves. -/
theorem postCycleStep : Obligations.PostCycleStep :=
  ⟨fun _ t => ⟨t.postCycle, rfl, t.postCycle_mode, t.postCycle_signals, t.postCycle_regs, t.postCycle_alt,
    t.postCycle_mem, t.postCycle_fault, t.postCycle_draws, t.postCycle_params⟩, fun _ _ _ => rfl⟩

/-! ## HaltSignal and StopSignal -/

/-- The state with `HaltSignal` set where `halt` says so, and `StopSignal` where `stop` does. -/
def State.orSignals (s : State) (halt stop : Bool) : State :=
  { s with signals :=
    { s.signals with haltSignal := halt || s.signals.haltSignal, stopSignal := stop || s.signals.stopSignal } }

section
variable (halt stop : Bool) (s : State)

@[simp] theorem State.orSignals_mem : (s.orSignals halt stop).mem = s.mem := rfl
@[simp] theorem State.orSignals_mode : (s.orSignals halt stop).mode = s.mode := rfl
@[simp] theorem State.orSignals_params : (s.orSignals halt stop).params = s.params := rfl
@[simp] theorem State.orSignals_userModeRequested :
    (s.orSignals halt stop).signals.userModeRequested = s.signals.userModeRequested := rfl
@[simp] theorem State.orSignals_reg (r : Reg8) : (s.orSignals halt stop).reg r = s.reg r := rfl
@[simp] theorem State.orSignals_pair (rr : Reg16) : (s.orSignals halt stop).pair rr = s.pair rr := rfl
@[simp] theorem State.orSignals_flag (f : Flag) : (s.orSignals halt stop).flag f = s.flag f := rfl
@[simp] theorem State.orSignals_cond (cc : Cond) : (s.orSignals halt stop).cond cc = s.cond cc := by cases cc <;> rfl
@[simp] theorem State.orSignals_setReg (r : Reg8) (v : Byte) :
    (s.orSignals halt stop).setReg r v = (s.setReg r v).orSignals halt stop := rfl
@[simp] theorem State.orSignals_setPair (rr : Reg16) (v : Word) :
    (s.orSignals halt stop).setPair rr v = (s.setPair rr v).orSignals halt stop := rfl
@[simp] theorem State.orSignals_writeFlag (f : Flag) (b : Bool) :
    (s.orSignals halt stop).writeFlag f b = (s.writeFlag f b).orSignals halt stop := rfl
@[simp] theorem State.orSignals_writeFlags (z n h cy : Bool) :
    (s.orSignals halt stop).writeFlags z n h cy = (s.writeFlags z n h cy).orSignals halt stop := by
  simp [State.writeFlags]

end

/-- The answers agree but for the two signals, set in the next state of the first. -/
def SameButSignals (halt stop : Bool) (r' r : Result) : Prop := r' = mapNext (fun t => t.orSignals halt stop) r

section
variable {halt stop : Bool} {s : State}

theorem SameButSignals.next {t t' : State} (h : t' = t.orSignals halt stop) :
    SameButSignals halt stop (.next t') (.next t) := congrArg _ h

theorem SameButSignals.readIn {d : Domain} {a : Word} {k k' : Byte → Result}
    (hk : ∀ v, SameButSignals halt stop (k' v) (k v)) :
    SameButSignals halt stop ((s.orSignals halt stop).readIn d a k') (s.readIn d a k) := readIn_mapNext rfl hk

theorem SameButSignals.write {a : Word} {v : Byte} {k k' : State → Result}
    (hk : ∀ t : State, SameButSignals halt stop (k' (t.orSignals halt stop)) (k t)) :
    SameButSignals halt stop ((s.orSignals halt stop).write a v k') (s.write a v k) :=
  write_mapNext rfl rfl fun m => hk { s with mem := m }

theorem SameButSignals.write16 {a v : Word} {k k' : State → Result}
    (hk : ∀ t : State, SameButSignals halt stop (k' (t.orSignals halt stop)) (k t)) :
    SameButSignals halt stop ((s.orSignals halt stop).write16 a v k') (s.write16 a v k) :=
  checkStraddle_mapNext rfl rfl rfl (SameButSignals.write fun _ => SameButSignals.write hk)

theorem SameButSignals.push16 {v : Word} {k k' : State → Result}
    (hk : ∀ t : State, SameButSignals halt stop (k' (t.orSignals halt stop)) (k t)) :
    SameButSignals halt stop ((s.orSignals halt stop).push16 v k') (s.push16 v k) :=
  checkStraddle_mapNext rfl rfl rfl (SameButSignals.write fun _ => SameButSignals.write fun t => hk (t.setPair .sp _))

theorem SameButSignals.pop16 {k k' : Word → State → Result}
    (hk : ∀ v (t : State), SameButSignals halt stop (k' v (t.orSignals halt stop)) (k v t)) :
    SameButSignals halt stop ((s.orSignals halt stop).pop16 k') (s.pop16 k) :=
  checkStraddle_mapNext rfl rfl rfl
    (SameButSignals.readIn fun _ => SameButSignals.readIn fun _ => hk _ (s.setPair .sp (s.pair .sp + 2)))

theorem SameButSignals.callTo (a : Word) : SameButSignals halt stop ((s.orSignals halt stop).callTo a) (s.callTo a) :=
  .push16 fun _ => .next rfl

theorem SameButSignals.returnThen {k k' : State → Result}
    (hk : ∀ t : State, SameButSignals halt stop (k' (t.orSignals halt stop)) (k t)) :
    SameButSignals halt stop ((s.orSignals halt stop).returnThen k') (s.returnThen k) :=
  .pop16 fun v t => hk (t.jump v)

theorem SameButSignals.storeAStep (delta : Word) :
    SameButSignals halt stop ((s.orSignals halt stop).storeAStep delta) (s.storeAStep delta) := by
  unfold State.storeAStep State.writeBack
  exact .write fun _ => .next rfl

theorem SameButSignals.modifyHl {f f' : Byte → Byte × State}
    (hf : ∀ m, f' m = ((f m).1, (f m).2.orSignals halt stop)) :
    SameButSignals halt stop ((s.orSignals halt stop).modifyHl f') (s.modifyHl f) := by
  refine SameButSignals.readIn fun m => ?_
  rw [hf]
  exact SameButSignals.write fun _ => .next rfl

theorem SameButSignals.conditionally {cc : Cond} {r r' : Result} (hr : SameButSignals halt stop r' r) :
    SameButSignals halt stop ((s.orSignals halt stop).conditionally cc r') (s.conditionally cc r) :=
  conditionally_mapNext (s.orSignals_cond halt stop cc) hr rfl

end

section
variable (halt stop : Bool) (s : State)

/-- No instruction reads `HaltSignal` or `StopSignal` (40_control_unit.md R185). -/
theorem exec_orSignals (i : Instr) : SameButSignals halt stop (exec i (s.orSignals halt stop)) (exec i s) := by
  cases i
  case halt | stop => exact .next (by simp [State.orSignals, State.setHalt, State.setStop])
  case jrCc | jpCc => exact .conditionally (.next rfl)
  case callCc => exact .conditionally (.callTo _)
  case retCc => exact .conditionally (.returnThen fun _ => .next rfl)
  case call | rst => exact .callTo _
  case push => exact .push16 fun _ => .next rfl
  case ret => exact .returnThen fun _ => .next rfl
  case reti => exact show SameButSignals _ _ (execReti _) (execReti s) from .returnThen fun _ => .next rfl
  case pop qq => exact show SameButSignals _ _ (execPop qq _) (execPop qq s) from .pop16 fun _ _ => .next rfl
  case ldNnSp => exact .write16 fun _ => .next rfl
  case ldHliA | ldHldA => exact .storeAStep _
  case ldBcA | ldDeA | ldHlN | ldHlR | ldhNA | ldCA | ldNnA => exact .write fun _ => .next rfl
  case ldABc | ldADe | ldAHli | ldAHld | ldRHl | ldhAN | ldAC | ldANn | lduRHl | lduABc | lduADe | lduAHli | lduAHld
    | lduANn | ldhuAN | lduAC => exact readIn_mapNext rfl fun _ => rfl
  case addHl | adcHl | subHl | sbcHl | andHl | xorHl | orHl | cpHl | bitHl =>
    exact .readIn fun _ => .next (by
      simp [State.addA, State.subA, State.cpA, State.logicA, State.bitFlags, State.flagsOf])
  case incHl | decHl | rlcHl | rrcHl | rlHl | rrHl | slaHl | sraHl | swapHl | srlHl | resHl | setHl =>
    exact .modifyHl fun _ => by simp [State.incFlags, State.decFlags, State.shiftFlags]
  case nop | di | ei | jr | jp | jpHl | jpu => exact .next rfl
  all_goals exact .next (by
    simp [State.addA, State.subA, State.cpA, State.logicA, State.bitFlags, State.flagsOf, State.incFlags,
      State.decFlags, State.shiftReg, State.shiftFlags, State.rotateA, State.spFlags])

theorem State.fetchByte_orSignals :
    (s.orSignals halt stop).fetchByte = s.fetchByte.map fun x => (x.1, x.2.orSignals halt stop) := by
  unfold State.fetchByte
  rw [State.orSignals_mem, State.orSignals_mode, State.orSignals_pair]
  cases s.mem.readByte s.mode (s.pair .pc) .fetch <;> rfl

theorem State.fetchOpcode_orSignals :
    (s.orSignals halt stop).fetchOpcode = s.fetchOpcode.map fun t => t.orSignals halt stop := by
  unfold State.fetchOpcode
  rw [State.fetchByte_orSignals]
  cases s.fetchByte with
  | error c => rfl
  | ok x =>
    obtain ⟨b, s1⟩ := x
    simp only [Except.map]
    split
    · rw [State.orSignals_setReg, State.fetchByte_orSignals]
      cases (s1.setReg .pir b).fetchByte <;> rfl
    · rfl

theorem State.fetchOperands_orSignals (t : Template) : (s.orSignals halt stop).fetchOperands t =
    (s.fetchOperands t).map fun x => (x.1, x.2.orSignals halt stop) := by
  cases t with
  | done i => rfl
  | imm8 f =>
    unfold State.fetchOperands
    simp only [State.fetchByte_orSignals]
    cases s.fetchByte <;> rfl
  | imm16 f =>
    unfold State.fetchOperands
    simp only [State.fetchByte_orSignals, State.orSignals_mem, State.orSignals_mode, State.orSignals_params,
      State.orSignals_pair]
    cases s.mem.straddleCheck s.params.straddleFault s.mode (s.pair .pc) .fetch with
    | some c => rfl
    | none =>
      cases s.fetchByte with
      | error c => rfl
      | ok x =>
        simp only [Except.map, State.fetchByte_orSignals]
        cases x.2.fetchByte <;> rfl

/-- Nor does the fetch. -/
theorem State.fetchInstr_orSignals :
    (s.orSignals halt stop).fetchInstr = s.fetchInstr.map fun x => (x.1, x.2.orSignals halt stop) := by
  unfold State.fetchInstr
  rw [State.fetchOpcode_orSignals]
  cases s.fetchOpcode with
  | error c => rfl
  | ok s1 =>
    simp only [Except.map, State.orSignals_params, State.orSignals_reg]
    cases decodeOpcode s.params (s1.reg .pir) (s1.reg .ir) with
    | error r => rfl
    | ok t => exact s1.fetchOperands_orSignals halt stop t

theorem State.postCycle_orSignals : (s.orSignals halt stop).postCycle = s.postCycle.orSignals halt stop := by
  unfold State.postCycle
  rw [State.orSignals_userModeRequested]
  split <;> rfl

end

/-- Nor does the step. -/
theorem step_orSignals (halt stop : Bool) {s t : State} (h : step s = .next t) :
    step (s.orSignals halt stop) = .next (t.orSignals halt stop) := by
  obtain ⟨hf, i, s1, t1, hi, ht, rfl⟩ := step_next h
  have hfetch : (s.orSignals halt stop).beginCycle.fetchInstr = .ok (i, s1.orSignals halt stop) :=
    (s.beginCycle.fetchInstr_orSignals halt stop).trans (congrArg _ hi)
  have hexec : exec i (s1.orSignals halt stop) = .next (t1.orSignals halt stop) :=
    (exec_orSignals halt stop s1 i).trans (congrArg _ ht)
  rw [step_of_fetch (s := s.orSignals halt stop) hf hfetch, hexec, ← State.postCycle_orSignals]
  rfl

/-- Settles O21: HALT and STOP only set their signal, and no phase of a step reads either signal. -/
theorem haltAndStopDoNotBlock : Obligations.HaltAndStopDoNotBlock :=
  ⟨fun s => ⟨s.setHalt true, rfl, rfl⟩, fun s _ => ⟨s.setStop true, rfl, rfl⟩,
    fun _ _ h => ⟨step_orSignals true false h, step_orSignals false true h⟩⟩

end Sys2Proof.Machine
end

section
/-! PROOFS. The addressing-mode table bounds what each instruction does to memory and to PC, and where it can fault
(40_control_unit.md R177, R181, R182). -/

namespace Sys2Proof.Machine

/-- An instruction whose mode has no write-back step leaves memory. -/
theorem exec_memory {i : Instr} {s : State}
    (hm : (addressingModeFormat (addressingMode s.params i)).writesMemory = false) :
    Ensures (fun t => t.mem = s.mem) (exec i s) := by
  cases i
  case ldBcA | ldDeA | ldHliA | ldHldA | ldHlN | ldHlR | ldhNA | ldCA | ldNnA | ldNnSp | push | call | callCc | rst
    | incHl | decHl | rlcHl | rrcHl | rlHl | rrHl | slaHl | sraHl | swapHl | srlHl | resHl | setHl =>
    cases hm
  case jrCc | jpCc => exact .conditionally (fun _ => .next rfl) fun _ => rfl
  case retCc => exact .conditionally (fun _ => .returnThen fun _ => .next rfl) fun _ => rfl
  case ret => exact .returnThen fun _ => .next rfl
  case reti => exact show Ensures _ (execReti s) from .returnThen fun _ => .next rfl
  case pop qq => exact show Ensures _ (execPop qq s) from .pop16 fun _ => .next rfl
  case ldABc | ldADe | ldAHli | ldAHld | ldRHl | ldhAN | ldAC | ldANn | addHl | adcHl | subHl | sbcHl | andHl | xorHl
    | orHl | cpHl | bitHl | lduRHl | lduABc | lduADe | lduAHli | lduAHld | lduANn | ldhuAN | lduAC =>
    exact .readIn fun _ => .next rfl
  all_goals exact .next rfl

theorem State.pc_setAluPair (s : State) {rr : Reg16} (h : rr.isAluPair = true) (v : Word) :
    (s.setPair rr v).pair .pc = s.pair .pc := State.pair_pc_setPair_ne s rr v (by rintro rfl; cases h)

theorem State.pc_setStackPair (s : State) {qq : Reg16} (h : qq.isStackPair = true) (v : Word) :
    (s.setPair qq v).pair .pc = s.pair .pc := State.pair_pc_setPair_ne s qq v (by rintro rfl; cases h)

/-- An instruction whose mode does not change PC leaves it at `pc_next`. -/
theorem exec_pc {i : Instr} (hw : i.wf = true) {s : State}
    (hm : (addressingModeFormat (addressingMode s.params i)).changesPC = false) :
    Ensures (fun t => t.pair .pc = s.pair .pc) (exec i s) := by
  cases i
  case jr | jrCc | jp | jpCc | jpHl | jpu | call | callCc | rst | ret | reti | retCc =>
    cases hm
  case push => exact .push16 fun _ => .next rfl
  case pop qq => exact show Ensures _ (execPop qq s) from .pop16 fun _ => .next (State.pc_setStackPair _ hw _)
  case ldRrNn | incRr | decRr => exact .next (s.pc_setAluPair hw _)
  case ldHliA | ldHldA => exact .storeAStep fun _ => rfl
  case ldNnSp => exact .write16 fun _ => .next rfl
  case ldBcA | ldDeA | ldHlN | ldHlR | ldhNA | ldCA | ldNnA => exact .write fun _ => .next rfl
  case ldRHl | lduRHl => exact .readIn fun _ => .next (State.pair_pc_setReg _ _ _)
  case ldABc | ldADe | ldAHli | ldAHld | ldhAN | ldAC | ldANn | addHl | adcHl | subHl | sbcHl | andHl | xorHl
    | orHl | cpHl | bitHl | lduABc | lduADe | lduAHli | lduAHld | lduANn | ldhuAN | lduAC =>
    exact .readIn fun _ => .next rfl
  case incHl | decHl | rlcHl | rrcHl | rlHl | rrHl | slaHl | sraHl | swapHl | srlHl | resHl | setHl =>
    exact .readIn fun _ => .write fun _ => .next rfl
  case incR r | decR r | ldRN r _ | ldRR r _ | rlcR r | rrcR r | rlR r | rrR r | slaR r | sraR r | swapR r | srlR r
    | resR _ r | setR _ r => exact .next (State.pair_pc_setReg s r _)
  all_goals exact .next rfl

theorem State.conditionally_completes {s t : State} (cc : Cond) : ∃ u, s.conditionally cc (.next t) = .next u := by
  unfold State.conditionally
  split <;> exact ⟨_, rfl⟩

/-- An instruction whose mode has no memory step answers a next state. -/
theorem exec_completes {i : Instr} {s : State}
    (hm : (addressingModeFormat (addressingMode s.params i)).writesMemory = false)
    (hr : (addressingModeFormat (addressingMode s.params i)).readsMemory = false) : ∃ t, exec i s = .next t := by
  cases i
  case ldBcA | ldDeA | ldHliA | ldHldA | ldHlN | ldHlR | ldhNA | ldCA | ldNnA | ldNnSp | push | call | callCc | rst
    | incHl | decHl | rlcHl | rrcHl | rlHl | rrHl | slaHl | sraHl | swapHl | srlHl | resHl | setHl =>
    cases hm
  case ldABc | ldADe | ldAHli | ldAHld | ldRHl | ldhAN | ldAC | ldANn | addHl | adcHl | subHl | sbcHl | andHl | xorHl
    | orHl | cpHl | bitHl | lduRHl | lduABc | lduADe | lduAHli | lduAHld | lduANn | ldhuAN | lduAC | pop | ret | reti
    | retCc =>
    cases hr
  case jrCc cc _ | jpCc cc _ => exact State.conditionally_completes cc
  all_goals exact ⟨_, rfl⟩

/-- Settles O20: each instruction takes only the steps its mode has. -/
theorem addressingModeBounds : Obligations.AddressingModeBounds := fun _ _ hw =>
  ⟨fun t h hm => exec_memory hm t h, fun t h hm => exec_pc hw hm t h, exec_completes⟩

end Sys2Proof.Machine
end

section
/-! PROOFS. How `Quiet` and `FlagsAre` grow along the updates of the state, and the two shared shapes of a meaning: an
operation on an 8-bit source operand in its three forms (41_arithmetic.md R205), and the read-modify-write of the byte
at HL (40_control_unit.md R181 mode 11). -/

namespace Sys2Proof.Machine

/-! ## Frames and flags along the updates -/

section
variable {s t : State} {rs : List Reg8} {ws : List Reg16} {fs : List Flag}

theorem Quiet.refl (s : State) (rs : List Reg8) (ws : List Reg16) (fs : List Flag) : Quiet s s rs ws fs :=
  .of_frame (.refl s rs ws fs) rfl rfl

theorem Quiet.setReg (q : Quiet s t rs ws fs) {r : Reg8} (hr : r ∈ rs) (v : Byte) :
    Quiet s (t.setReg r v) rs ws fs := .of_frame (q.frame.setReg hr v) q.signals q.memory.memory

theorem Quiet.setPair (q : Quiet s t rs ws fs) {rr : Reg16} (hh : ∀ r, r ∈ pairHalves rr → r ∈ rs)
    (hw : isWordRegister rr = true → rr ∈ ws) (v : Word) : Quiet s (t.setPair rr v) rs ws fs :=
  .of_frame (q.frame.setPair hh hw v) q.signals q.memory.memory

theorem Quiet.setHl (q : Quiet s t [.h, .l] ws fs) (v : Word) : Quiet s (t.setPair .hl v) [.h, .l] ws fs :=
  q.setPair (rr := .hl) (fun _ => id) nofun v

theorem Quiet.setSp (q : Quiet s t rs [.sp] fs) (v : Word) : Quiet s (t.setPair .sp v) rs [.sp] fs :=
  q.setPair (rr := .sp) (fun _ hr => by cases hr) (fun _ => List.mem_cons_self) v

theorem Quiet.writeFlag (q : Quiet s t rs ws fs) {f : Flag} (hf : f ∈ fs) (b : Bool) :
    Quiet s (t.writeFlag f b) rs ws fs := .of_frame (q.frame.writeFlag hf b) q.signals q.memory.memory

theorem Quiet.writeFlags (q : Quiet s t rs ws [.z, .n, .h, .cy]) (z n h cy : Bool) :
    Quiet s (t.writeFlags z n h cy) rs ws [.z, .n, .h, .cy] :=
  .of_frame (q.frame.writeFlags (by decide) (by decide) (by decide) (by decide) z n h cy) q.signals q.memory.memory

/-- HL is unchanged where no single register may differ. -/
theorem Quiet.pair_hl (q : Quiet s t [] ws fs) : t.pair .hl = s.pair .hl := by
  rw [t.pair_of_halves (rr := .hl) rfl, s.pair_of_halves (rr := .hl) rfl,
    q.frame.registers .h (by decide) List.not_mem_nil, q.frame.registers .l (by decide) List.not_mem_nil]

theorem FlagsAre.writeFlags (s : State) (z n h cy : Bool) : FlagsAre (s.writeFlags z n h cy) z n h cy :=
  ⟨s.flag_writeFlags z n h cy .z, s.flag_writeFlags z n h cy .n, s.flag_writeFlags z n h cy .h,
    s.flag_writeFlags z n h cy .cy⟩

/-- The flags of INC, DEC and BIT: Z, N and H written, CY kept. -/
theorem FlagsAre.writeZnh (s : State) (z n h : Bool) :
    FlagsAre (((s.writeFlag .z z).writeFlag .n n).writeFlag .h h) z n h (s.flag .cy) := by
  constructor <;> simp

theorem Quiet.writeZnh (q : Quiet s t rs ws [.z, .n, .h]) (z n h : Bool) :
    Quiet s (((t.writeFlag .z z).writeFlag .n n).writeFlag .h h) rs ws [.z, .n, .h] :=
  ((q.writeFlag (by decide) z).writeFlag (by decide) n).writeFlag (by decide) h

@[simp] theorem State.pair_hl_writeFlag (s : State) (f : Flag) (b : Bool) :
    (s.writeFlag f b).pair .hl = s.pair .hl := rfl

@[simp] theorem State.pair_hl_writeFlags (s : State) (z n h cy : Bool) :
    (s.writeFlags z n h cy).pair .hl = s.pair .hl := rfl

end

/-! ## An operation on an 8-bit source operand -/

/-- The three instructions compute `f` of the state and their source operand: a register, the byte at HL, an
immediate (41_arithmetic.md R205). -/
structure OnSource8 (reg : Reg8 → Instr) (hl : Instr) (imm : Byte → Instr) (f : State → Byte → State) : Prop where
  register : ∀ s r, exec (reg r) s = .next (f s (s.reg r))
  memory : ∀ s, exec hl s = s.acquireHl fun m => .next (f s m)
  immediate : ∀ s n, exec (imm n) s = .next (f s n)

section
variable {reg : Reg8 → Instr} {hl : Instr} {imm : Byte → Instr} {f : State → Byte → State}

theorem OnSource8.exec_eq (o : OnSource8 reg hl imm f) {s : State} {i : Instr} {v : Byte}
    (src : Source8 s reg hl imm i v) : exec i s = .next (f s v) := by
  cases src with
  | register r => exact o.register s r
  | memory _ hm => exact (o.memory s).trans (State.readIn_peek _ hm)
  | immediate => exact o.immediate s v

theorem OnSource8.faults (o : OnSource8 reg hl imm f) : Source8Faults hl imm :=
  ⟨fun s hu => (o.memory s).trans (State.readIn_unmapped _ hu), faultsOnByte imm⟩

end

/-! ## The read-modify-write of the byte at HL -/

section
variable {s : State} {f : Byte → Byte × State} {fs : List Flag} {m : Byte}

theorem State.modifyHl_of_peek (hm : s.mem.peek s.mode (s.pair .hl) = some m) (q : Quiet s (f m).2 [] [] fs) :
    s.modifyHl f = (f m).2.write (s.pair .hl) (f m).1 .next :=
  (State.readIn_peek _ hm).trans (congrArg (fun a => (f m).2.write a (f m).1 .next) q.pair_hl)

/-- The byte is stored, with the flags written. -/
theorem State.modifyHl_stores {z n h cy : Bool} (hc : CanModify s m) (q : Quiet s (f m).2 [] [] fs)
    (hf : FlagsAre (f m).2 z n h cy) :
    ∃ t, s.modifyHl f = .next t ∧ FlagsAre t z n h cy ∧ Stores s t (s.pair .hl) (f m).1 [] fs := by
  have ram : (f m).2.mem.writable (f m).2.mode (s.pair .hl) = true := by
    rw [q.memory.memory, q.frame.mode]
    exact hc.ram
  obtain ⟨m', hm', hw⟩ := State.write_writable (f m).1 .next ram
  rw [q.memory.memory, q.frame.mode] at hm'
  exact ⟨_, (State.modifyHl_of_peek hc.byte q).trans hw, ⟨hf.z, hf.n, hf.h, hf.cy⟩,
    q.frame.of_regs rfl rfl rfl rfl rfl rfl, q.signals, .of_writeByte hc.wf hm' rfl⟩

/-- The read faults first, then the write. -/
theorem State.modifyHl_faults (q : ∀ m, Quiet s (f m).2 [] [] fs) : ModifyFaults s (s.pair .hl) (s.modifyHl f) := by
  refine ⟨State.readIn_unmapped _, fun m hm hrom => ?_⟩
  have rom : (f m).2.mem.inRom (f m).2.mode (s.pair .hl) := by
    rw [(q m).memory.memory, (q m).frame.mode]
    exact hrom
  rw [State.modifyHl_of_peek hm (q m), State.write_inRom _ _ rom, readOnly, raised, (q m).memory.memory,
    (q m).frame.mode]
  rfl

end

end Sys2Proof.Machine
end

section
/-! PROOFS. The statements of 41_arithmetic.md: the spec's `add8`, `sub8`, `add16`, `addsp` and decimal adjust as
relations on numbers, what each flag-writing operation of the model writes, and the instructions made of them. -/

namespace Sys2Proof.Machine

/-! ## The results in numbers (00_scope.md R14, R15) -/

theorem toNat_eq_bitNat (b : Bool) : b.toNat = bitNat b := by
  cases b <;> rfl

theorem toNat_ofInt_byte (i : Int) : ((BitVec.ofInt 8 i).toNat : Int) = i % 2 ^ 8 := by
  rw [BitVec.toNat_ofInt]
  exact Int.toNat_of_nonneg (Int.emod_nonneg i (by decide))

theorem sum8_add8 (a b : Byte) (c : Bool) : Sum8 a b c (add8 a b c).res (add8 a b c).h (add8 a b c).cy := by
  rw [add8, toNat_eq_bitNat]
  exact ⟨BitVec.toNat_ofNat _ _, rfl, rfl⟩

theorem difference8_sub8 (a b : Byte) (c : Bool) :
    Difference8 a b c (sub8 a b c).res (sub8 a b c).h (sub8 a b c).cy := by
  rw [sub8, toNat_eq_bitNat]
  exact ⟨toNat_ofInt_byte _, rfl, rfl⟩

theorem sum16_add16 (a b : Word) : Sum16 a b (add16 a b).res (add16 a b).h (add16 a b).cy :=
  ⟨BitVec.toNat_ofNat _ _, rfl, rfl⟩

/-- A difference without borrow-in is 0 for equal operands only. -/
theorem Difference8.eq_zero_iff {a b res : Byte} {h cy : Bool} (d : Difference8 a b false res h cy) :
    res = 0 ↔ a = b := by
  have hres := d.result
  have ha := a.isLt
  have hb := b.isLt
  rw [← BitVec.toNat_inj, ← BitVec.toNat_inj]
  simp only [bitNat, Bool.false_eq_true, if_false, BitVec.ofNat_eq_ofNat, BitVec.toNat_ofNat] at hres ⊢
  omega

/-- A difference without borrow-in borrows if the first operand is below the second. -/
theorem Difference8.borrow_iff {a b res : Byte} {h cy : Bool} (d : Difference8 a b false res h cy) :
    cy = true ↔ a.toNat < b.toNat := by
  rw [d.carry, decide_eq_true_iff]
  rfl

/-- `sext_16(e)` is `s8(e)` modulo 2^16 (00_scope.md R15). -/
theorem displaced_sext16 (e : Byte) : Displaced 0#16 e (sext16 e) := by
  have he := e.isLt
  unfold Displaced s8 sext16
  split
  · rw [BitVec.toNat_ofNat, BitVec.toNat_zero]
    omega
  · rw [BitVec.toNat_ofNat, BitVec.toNat_zero]
    omega

/-- Adding a displacement's 16-bit value adds the displacement. -/
theorem Displaced.sum16 {a x res : Word} {e : Byte} {h cy : Bool} (d : Displaced 0#16 e x)
    (sum : Sum16 a x res h cy) : Displaced a e res := by
  have hres := sum.result
  unfold Displaced at *
  rw [BitVec.toNat_zero] at d
  omega

/-! ## ADD, ADC, SUB, SBC, CP -/

theorem FlagsAre.flagsOf (s : State) (o : Alu8) (n : Bool) : FlagsAre (s.flagsOf o n) (o.res == 0) n o.h o.cy :=
  .writeFlags s _ _ _ _

/-- A result written to A with the flags of the add and subtract families (41_arithmetic.md R200). -/
theorem State.setReg_a_flagsOf (s : State) {o : Alu8} (n : Bool) {R : Byte → Bool → Bool → Prop}
    (hR : R o.res o.h o.cy) :
    ∃ h cy, R (((s.setReg .a o.res).flagsOf o n).reg .a) h cy ∧
      FlagsAre ((s.setReg .a o.res).flagsOf o n) (((s.setReg .a o.res).flagsOf o n).reg .a == 0) n h cy ∧
      Quiet s ((s.setReg .a o.res).flagsOf o n) [.a] [] [.z, .n, .h, .cy] := by
  have result : ((s.setReg .a o.res).flagsOf o n).reg .a = o.res := by simp [State.flagsOf]
  rw [result]
  exact ⟨_, _, hR, .flagsOf _ o n, ((Quiet.refl s _ _ _).setReg List.mem_cons_self _).writeFlags _ _ _ _⟩

theorem onSource8_add : OnSource8 .addR .addHl .addN fun s v => s.addA v false :=
  ⟨fun _ _ => rfl, fun _ => rfl, fun _ _ => rfl⟩

theorem onSource8_adc : OnSource8 .adcR .adcHl .adcN fun s v => s.addA v (s.flag .cy) :=
  ⟨fun _ _ => rfl, fun _ => rfl, fun _ _ => rfl⟩

theorem onSource8_sub : OnSource8 .subR .subHl .subN fun s v => s.subA v false :=
  ⟨fun _ _ => rfl, fun _ => rfl, fun _ _ => rfl⟩

theorem onSource8_sbc : OnSource8 .sbcR .sbcHl .sbcN fun s v => s.subA v (s.flag .cy) :=
  ⟨fun _ _ => rfl, fun _ => rfl, fun _ _ => rfl⟩

theorem onSource8_cp : OnSource8 .cpR .cpHl .cpN State.cpA :=
  ⟨fun _ _ => rfl, fun _ => rfl, fun _ _ => rfl⟩

/-- Settles O29: ADD and ADC are `addA` of their source operand, with carry-in 0 and CY. -/
theorem addResult : Obligations.AddResult := by
  refine ⟨fun s i v c hsrc => ?_, onSource8_add.faults, onSource8_adc.faults⟩
  obtain ⟨h, cy, result⟩ := s.setReg_a_flagsOf false (sum8_add8 (s.reg .a) v c)
  refine ⟨s.addA v c, h, cy, ?_, result⟩
  rcases hsrc with ⟨src, rfl⟩ | ⟨src, rfl⟩
  · exact onSource8_add.exec_eq src
  · exact onSource8_adc.exec_eq src

/-- Settles O30: SUB and SBC are `subA` of their source operand, with borrow-in 0 and CY. -/
theorem subtractResult : Obligations.SubtractResult := by
  refine ⟨fun s i v c hsrc => ?_, onSource8_sub.faults, onSource8_sbc.faults⟩
  obtain ⟨h, cy, result⟩ := s.setReg_a_flagsOf true (difference8_sub8 (s.reg .a) v c)
  refine ⟨s.subA v c, h, cy, ?_, result⟩
  rcases hsrc with ⟨src, rfl⟩ | ⟨src, rfl⟩
  · exact onSource8_sub.exec_eq src
  · exact onSource8_sbc.exec_eq src

/-- Settles O31: CP is `cpA` of its source operand, whose Z and CY compare the numbers. -/
theorem compareResult : Obligations.CompareResult := by
  refine ⟨fun s i v src => ?_, onSource8_cp.faults⟩
  have difference := difference8_sub8 (s.reg .a) v false
  have flags : FlagsAre (s.cpA v) _ _ _ _ := .flagsOf s (sub8 (s.reg .a) v false) true
  refine ⟨s.cpA v, _, _, _, onSource8_cp.exec_eq src, difference, flags, ?_, ?_,
    (Quiet.refl s _ _ _).writeFlags _ _ _ _⟩
  · rw [flags.z, beq_iff_eq, difference.eq_zero_iff]
  · rw [flags.cy, difference.borrow_iff]

/-! ## INC and DEC -/

/-- No operand field names F (30_encoding.md R136). -/
theorem Reg8.ne_f_of_isOperand {r : Reg8} (h : r.isOperand = true) : r ≠ .f := by
  rintro rfl
  cases h

/-- A result written to a register with the flags of INC and DEC (41_arithmetic.md R225, R227). -/
theorem State.setReg_writeZnh (s : State) {r : Reg8} (hr : r ≠ .f) {o : Alu8} (n : Bool)
    {R : Byte → Bool → Bool → Prop} (hR : R o.res o.h o.cy) :
    ∃ t h cy, (.next ((((s.setReg r o.res).writeFlag .z (o.res == 0)).writeFlag .n n).writeFlag .h o.h) : Result) =
        .next t ∧
      R (t.reg r) h cy ∧ FlagsAre t (t.reg r == 0) n h (s.flag .cy) ∧ Quiet s t [r] [] [.z, .n, .h] := by
  refine ⟨_, o.h, o.cy, rfl, ?_, ?_, ((Quiet.refl s _ _ _).setReg List.mem_cons_self _).writeZnh _ _ _⟩
  · simpa [hr] using hR
  · simpa [hr] using FlagsAre.writeZnh (s.setReg r o.res) (o.res == 0) n o.h

theorem Word.toNat_sub_one (a : Word) : ((a - 1).toNat : Int) = ((a.toNat : Int) - 1) % 2 ^ 16 := by
  have ha := a.isLt
  simp only [BitVec.toNat_sub, BitVec.ofNat_eq_ofNat, BitVec.toNat_ofNat]
  omega

/-- Settles O32: INC and DEC of a register write the result and three flags, INC and DEC of a pair the pair alone. -/
theorem incDecRegister : Obligations.IncDecRegister := by
  refine ⟨fun s r hr => ?_, fun s rr _ => ?_⟩
  · exact ⟨s.setReg_writeZnh (Reg8.ne_f_of_isOperand hr) false (sum8_add8 (s.reg r) 1 false),
      s.setReg_writeZnh (Reg8.ne_f_of_isOperand hr) true (difference8_sub8 (s.reg r) 1 false)⟩
  · have quiet (v : Word) : Quiet s (s.setPair rr v) (pairHalves rr) [rr] [] :=
      (Quiet.refl s _ _ _).setPair (fun _ => id) (fun _ => List.mem_cons_self) v
    refine ⟨⟨_, rfl, ?_, quiet _⟩, ⟨_, rfl, ?_, quiet _⟩⟩ <;> rw [State.pair_setPair_self]
    · exact BitVec.toNat_add _ _
    · exact Word.toNat_sub_one _

/-- Settles O33: INC and DEC of the byte at HL are read-modify-writes that write three flags. -/
theorem incDecMemory : Obligations.IncDecMemory := by
  have inc (s : State) (m : Byte) : Quiet s (s.incFlags m) [] [] [.z, .n, .h] := (Quiet.refl s _ _ _).writeZnh _ _ _
  have dec (s : State) (m : Byte) : Quiet s (s.decFlags m) [] [] [.z, .n, .h] := (Quiet.refl s _ _ _).writeZnh _ _ _
  refine ⟨fun s m hm => ⟨?_, ?_⟩, fun s => ⟨State.modifyHl_faults (inc s), State.modifyHl_faults (dec s)⟩⟩
  · obtain ⟨t, ht, flags, stores⟩ := State.modifyHl_stores (f := fun m => ((add8 m 1 false).res, s.incFlags m)) hm
      (inc s m) (.writeZnh s _ _ _)
    exact ⟨t, _, _, _, ht, sum8_add8 m 1 false, flags, stores⟩
  · obtain ⟨t, ht, flags, stores⟩ := State.modifyHl_stores (f := fun m => ((sub8 m 1 false).res, s.decFlags m)) hm
      (dec s m) (.writeZnh s _ _ _)
    exact ⟨t, _, _, _, ht, difference8_sub8 m 1 false, flags, stores⟩

/-! ## The 16-bit additions -/

/-- Settles O34: ADD HL,rr writes the sum and all flags but Z. -/
theorem addHlResult : Obligations.AddHlResult := by
  intro s rr _
  refine ⟨_, (add16 (s.pair .hl) (s.pair rr)).h, (add16 (s.pair .hl) (s.pair rr)).cy, rfl, ?_, ?_, ?_⟩
  · simpa using sum16_add16 (s.pair .hl) (s.pair rr)
  · constructor <;> simp
  · exact ((((Quiet.refl s _ _ _).setHl _).writeFlag (by decide) _).writeFlag (by decide) _).writeFlag (by decide) _

theorem addsp_res (rule : Config.SpFlagRule) (a : Word) (e : Byte) :
    (addsp rule a e).res = (add16 a (sext16 e)).res := by
  cases rule <;> rfl

theorem displaced_addsp (rule : Config.SpFlagRule) (a : Word) (e : Byte) : Displaced a e (addsp rule a e).res := by
  rw [addsp_res]
  exact (displaced_sext16 e).sum16 (sum16_add16 a (sext16 e))

theorem spFlags_addsp (rule : Config.SpFlagRule) (a : Word) (e : Byte) :
    SpFlags rule a e (sext16 e) (addsp rule a e).res (addsp rule a e).h (addsp rule a e).cy := by
  cases rule with
  | doc16 => exact sum16_add16 a (sext16 e)
  | byte => exact ⟨rfl, rfl⟩

/-- Settles O35: both instructions write the result of `addsp`, to SP and to HL, and its flags. -/
theorem stackPointerOffset : Obligations.StackPointerOffset := by
  intro s e
  refine ⟨sext16 e, displaced_sext16 e, ⟨_, _, _, rfl, ?_, ?_, .writeFlags _ _ _ _ _, ?_⟩,
    ⟨_, _, _, rfl, ?_, ?_, .writeFlags _ _ _ _ _, ?_⟩⟩
  · simpa [State.spFlags] using displaced_addsp s.params.spFlagRule (s.pair .sp) e
  · simpa [State.spFlags] using spFlags_addsp s.params.spFlagRule (s.pair .sp) e
  · exact ((Quiet.refl s _ _ _).setSp _).writeFlags _ _ _ _
  · simpa [State.spFlags] using displaced_addsp s.params.spFlagRule (s.pair .sp) e
  · simpa [State.spFlags] using spFlags_addsp s.params.spFlagRule (s.pair .sp) e
  · exact ((Quiet.refl s _ _ _).setHl _).writeFlags _ _ _ _

/-! ## DAA -/

/-- The corrections of the two digits, added one after the other and narrowed at the end, in natural numbers. -/
theorem toNat_ofInt_corrected (a : Byte) (high low : Bool) :
    (BitVec.ofInt 8 (if low then (if high then (a.toNat : Int) + 0x60 else a.toNat) + 0x06
      else if high then (a.toNat : Int) + 0x60 else a.toNat)).toNat =
    (a.toNat + (if high then 0x60 else 0) + (if low then 6 else 0)) % 2 ^ 8 := by
  apply Int.natCast_inj.mp
  rw [toNat_ofInt_byte]
  cases high <;> cases low <;> simp [Int.add_assoc, Nat.add_assoc]

/-- The correction after an addition (41_arithmetic.md R233): the two digits' corrections are added to A. -/
theorem daaAdjust_addition (a : Byte) (h cy : Bool) :
    (daaAdjust a false h cy).2 = (cy || decide (a.toNat > 0x99)) ∧
    (daaAdjust a false h cy).1.toNat = (a.toNat + (if (daaAdjust a false h cy).2 then 0x60 else 0) +
      (if h || decide (a.toNat % 16 > 9) then 6 else 0)) % 2 ^ 8 :=
  ⟨congrArg (cy || ·) (decide_eq_decide.mpr Int.ofNat_lt), toNat_ofInt_corrected a _ _⟩

/-- The correction after a subtraction (41_arithmetic.md R233): the two digits' corrections are subtracted from A. -/
theorem daaAdjust_subtraction (a : Byte) (h cy : Bool) :
    (daaAdjust a true h cy).2 = cy ∧
    ((daaAdjust a true h cy).1.toNat : Int) = ((a.toNat : Int) - (if cy then 0x60 else 0) -
      (if h then 6 else 0)) % 2 ^ 8 := by
  refine ⟨rfl, (toNat_ofInt_byte _).trans ?_⟩
  cases cy <;> cases h <;> simp

/-- Settles O36: DAA writes A and CY as the decimal adjust under N says, Z of the new A, and H 0. -/
theorem decimalAdjust : Obligations.DecimalAdjust := by
  intro s
  have adjusted : Quiet s (s.setReg .a (daaAdjust (s.reg .a) (s.flag .n) (s.flag .h) (s.flag .cy)).1)
    [.a] [] [.z, .h, .cy] := (Quiet.refl s _ _ _).setReg List.mem_cons_self _
  refine ⟨_, rfl, by simp, by simp,
    ((adjusted.writeFlag (by decide) _).writeFlag (by decide) _).writeFlag (by decide) _, fun hn => ?_, fun hn => ?_⟩
  · simpa [hn] using daaAdjust_addition (s.reg .a) (s.flag .h) (s.flag .cy)
  · simpa [hn] using daaAdjust_subtraction (s.reg .a) (s.flag .h) (s.flag .cy)

end Sys2Proof.Machine
end

section
/-! PROOFS. The statements of 42_logical.md: AND, XOR and OR act on each bit of A and of their source operand
(R260 to R269), CPL complements A, SCF and CCF write the carry (R270 to R272). -/

namespace Sys2Proof.Machine

/-! ## AND, XOR, OR -/

theorem bitOf_and (a b : Byte) (k : Nat) : bitOf (a &&& b) k = (bitOf a k && bitOf b k) := by
  simp only [bitOf_eq_getLsbD, BitVec.getLsbD_and]

theorem bitOf_xor (a b : Byte) (k : Nat) : bitOf (a ^^^ b) k = (bitOf a k ^^ bitOf b k) := by
  simp only [bitOf_eq_getLsbD, BitVec.getLsbD_xor]

theorem bitOf_or (a b : Byte) (k : Nat) : bitOf (a ||| b) k = (bitOf a k || bitOf b k) := by
  simp only [bitOf_eq_getLsbD, BitVec.getLsbD_or]

@[simp] theorem State.reg_a_logicA (s : State) (v : Byte) (h : Bool) : (s.logicA v h).reg .a = v := by
  simp [State.logicA]

theorem FlagsAre.logicA (s : State) (v : Byte) (h : Bool) : FlagsAre (s.logicA v h) (v == 0) false h false :=
  .writeFlags (s.setReg .a v) _ _ _ _

theorem Quiet.logicA (s : State) (v : Byte) (h : Bool) : Quiet s (s.logicA v h) [.a] [] [.z, .n, .h, .cy] :=
  ((Quiet.refl s _ _ _).setReg List.mem_cons_self v).writeFlags _ _ _ _

theorem onSource8_and : OnSource8 .andR .andHl .andN fun s v => s.logicA (s.reg .a &&& v) true :=
  ⟨fun _ _ => rfl, fun _ => rfl, fun _ _ => rfl⟩

theorem onSource8_xor : OnSource8 .xorR .xorHl .xorN fun s v => s.logicA (s.reg .a ^^^ v) false :=
  ⟨fun _ _ => rfl, fun _ => rfl, fun _ _ => rfl⟩

theorem onSource8_or : OnSource8 .orR .orHl .orN fun s v => s.logicA (s.reg .a ||| v) false :=
  ⟨fun _ _ => rfl, fun _ => rfl, fun _ _ => rfl⟩

/-- An operation `op` that acts on each bit as `bit` writes A bit by bit and the flags of R260, in its three forms. -/
theorem OnSource8.logic_result {reg : Reg8 → Instr} {hl : Instr} {imm : Byte → Instr} {op : Byte → Byte → Byte}
    {h : Bool} (o : OnSource8 reg hl imm fun s v => s.logicA (op (s.reg .a) v) h) {bit : Bool → Bool → Bool}
    (bitwise : ∀ a b k, bitOf (op a b) k = bit (bitOf a k) (bitOf b k)) (s : State) (i : Instr) (v : Byte)
    (src : Source8 s reg hl imm i v) :
    ∃ t, exec i s = .next t ∧ (∀ k, bitOf (t.reg .a) k = bit (bitOf (s.reg .a) k) (bitOf v k)) ∧
      FlagsAre t (t.reg .a == 0) false h false ∧ Quiet s t [.a] [] [.z, .n, .h, .cy] := by
  refine ⟨_, o.exec_eq src, ?_⟩
  rw [State.reg_a_logicA]
  exact ⟨bitwise _ _, .logicA s _ h, .logicA s _ h⟩

/-- Settles O37: the three operations are `logicA` of A and their source operand, and act bit by bit. -/
theorem logicResult : Obligations.LogicResult :=
  ⟨onSource8_and.logic_result bitOf_and, onSource8_xor.logic_result bitOf_xor, onSource8_or.logic_result bitOf_or,
    onSource8_and.faults, onSource8_xor.faults, onSource8_or.faults⟩

/-! ## CPL, SCF, CCF -/

theorem FlagsAre.writeNh (s : State) (n h : Bool) :
    FlagsAre ((s.writeFlag .n n).writeFlag .h h) (s.flag .z) n h (s.flag .cy) := by
  constructor <;> simp

/-- The flags of SCF and CCF: N, H and CY written, Z kept. -/
theorem FlagsAre.writeNhc (s : State) (n h cy : Bool) :
    FlagsAre (((s.writeFlag .n n).writeFlag .h h).writeFlag .cy cy) (s.flag .z) n h cy := by
  constructor <;> simp

theorem Quiet.writeNhc (s : State) (n h cy : Bool) :
    Quiet s (((s.writeFlag .n n).writeFlag .h h).writeFlag .cy cy) [] [] [.n, .h, .cy] :=
  (((Quiet.refl s _ _ _).writeFlag (by decide) n).writeFlag (by decide) h).writeFlag (by decide) cy

/-- Settles O38: CPL writes the complement of A, N and H; SCF and CCF write N, H and the carry. -/
theorem complementAndCarry : Obligations.ComplementAndCarry := by
  intro s
  refine ⟨⟨_, rfl, ?_, ?_, ?_⟩, ⟨_, rfl, .writeNhc s _ _ _, .writeNhc s _ _ _⟩,
    ⟨_, rfl, .writeNhc s _ _ _, .writeNhc s _ _ _⟩⟩
  · simp [BitVec.toNat_not]
  · simpa using FlagsAre.writeNh (s.setReg .a (~~~(s.reg .a))) true true
  · exact (((Quiet.refl s _ _ _).setReg List.mem_cons_self _).writeFlag (by decide) _).writeFlag (by decide) _

end Sys2Proof.Machine
end

section
/-! PROOFS. The statements of 43_bit_rotate.md: the spec's shift functions (R280) as functions on numbers, the rotates
and shifts of A, of a register and of the byte at HL, and the instructions on one bit (R301 to R306). -/

namespace Sys2Proof.Machine

/-! ## Bits in numbers -/

@[simp] theorem toNat_bitByte (b : Bool) : (bitByte b).toNat = bitNat b := by
  cases b <;> rfl

theorem bitNat_lt_two (b : Bool) : bitNat b < 2 := by
  cases b <;> decide

/-- A bit of a byte, as a number. -/
theorem bitNat_getLsbD (v : Byte) (k : Nat) : bitNat (v.getLsbD k) = v.toNat / 2 ^ k % 2 := by
  rw [← bitOf_eq_getLsbD, bitOf]
  rcases Nat.mod_two_eq_zero_or_one (v.toNat / 2 ^ k) with h | h <;> rw [h] <;> rfl

/-- Bit 7 is the byte's quotient by 128. -/
theorem bitNat_getLsbD_seven (v : Byte) : bitNat (v.getLsbD 7) = v.toNat / 128 := by
  have hv := v.isLt
  rw [bitNat_getLsbD]
  omega

/-- A byte shifted left leaves room for `w` below: the union is the sum. -/
theorem toNat_shiftLeft_or {i : Nat} (hi : i ≤ 8) (v : Byte) {w : Byte} (hw : w.toNat < 2 ^ i) :
    (v <<< i ||| w).toNat = v.toNat * 2 ^ i % 256 + w.toNat := by
  have room : 2 ^ i ∣ v.toNat * 2 ^ i % 256 :=
    (Nat.dvd_mod_iff (Nat.pow_dvd_pow 2 hi)).mpr (Nat.dvd_mul_left _ _)
  obtain ⟨a, ha⟩ := room
  rw [BitVec.toNat_or, BitVec.toNat_shiftLeft, Nat.shiftLeft_eq, show 2 ^ 8 = 256 from rfl, ha,
    Nat.two_pow_add_eq_or_of_lt hw]

/-- A bit shifted into place 7, over a byte shifted right by 1. -/
theorem toNat_shiftRight_or_bit (v : Byte) (b : Bool) :
    (v >>> 1 ||| bitByte b <<< 7).toNat = v.toNat / 2 + bitNat b * 128 := by
  have hv := v.isLt
  have hb := bitNat_lt_two b
  have half : (v >>> 1).toNat = v.toNat / 2 := by simp [Nat.shiftRight_eq_div_pow]
  rw [BitVec.or_comm, toNat_shiftLeft_or (by decide) _ (by omega), toNat_bitByte, half]
  omega

/-- A bit shifted into place 0, under a byte shifted left by 1. -/
theorem toNat_shiftLeft_or_bit (v : Byte) (b : Bool) :
    (v <<< 1 ||| bitByte b).toNat = v.toNat * 2 % 256 + bitNat b := by
  rw [toNat_shiftLeft_or (by decide) _ (by simpa using bitNat_lt_two b), toNat_bitByte, Nat.pow_one]

/-- The part of a byte that SRA keeps is its bit 7, in its place. -/
theorem and_bit_seven (v : Byte) : v &&& 0x80#8 = bitByte (v.getLsbD 7) <<< 7 := by
  revert v
  decide

/-! ## The shift functions in numbers (R280) -/

/-- The spec's shift function of each kind. -/
def ShiftKind.apply (k : ShiftKind) (v : Byte) (c : Bool) : ShiftOut :=
  match k with
  | .rlc => Machine.rlc v
  | .rrc => Machine.rrc v
  | .rl => Machine.rl v c
  | .rr => Machine.rr v c
  | .sla => Machine.sla v
  | .sra => Machine.sra v
  | .swap => Machine.swap v
  | .srl => Machine.srl v

theorem ShiftKind.toNat_apply_res (k : ShiftKind) (v : Byte) (c : Bool) :
    (k.apply v c).res.toNat = k.result v.toNat c := by
  have hv := v.isLt
  cases k with
  | rlc => exact (toNat_shiftLeft_or_bit v _).trans (congrArg _ (bitNat_getLsbD_seven v))
  | rrc =>
    refine (toNat_shiftRight_or_bit v _).trans ?_
    rw [bitNat_getLsbD, Nat.pow_zero, Nat.div_one]
    rfl
  | rl => exact toNat_shiftLeft_or_bit v c
  | rr => exact (toNat_shiftRight_or_bit v c).trans (by cases c <;> rfl)
  | sla => simp [apply, Machine.sla, result, Nat.shiftLeft_eq]
  | sra =>
    refine (congrArg (fun w => (v >>> 1 ||| w).toNat) (and_bit_seven v)).trans ?_
    rw [toNat_shiftRight_or_bit, bitNat_getLsbD_seven]
    rfl
  | swap =>
    have high : (v >>> 4).toNat = v.toNat / 16 := by simp [Nat.shiftRight_eq_div_pow]
    refine (toNat_shiftLeft_or (by decide) v (by omega)).trans ?_
    rw [high, result]
    omega
  | srl => simp [apply, Machine.srl, result, Nat.shiftRight_eq_div_pow]

theorem getLsbD_seven_eq (v : Byte) : v.getLsbD 7 = (v.toNat / 128 == 1) := by
  have quotient : v.toNat / 128 < 2 := by
    have hv := v.isLt
    omega
  exact (bitOf_eq_getLsbD v 7).symm.trans (congrArg (· == 1) (Nat.mod_eq_of_lt quotient))

theorem getLsbD_zero_eq (v : Byte) : v.getLsbD 0 = (v.toNat % 2 == 1) := by
  rw [← bitOf_eq_getLsbD, bitOf, Nat.pow_zero, Nat.div_one]

theorem ShiftKind.apply_out (k : ShiftKind) (v : Byte) (c : Bool) : (k.apply v c).out = k.out v.toNat := by
  cases k with
  | rlc | rl | sla => exact getLsbD_seven_eq v
  | rrc | rr | sra | srl => exact getLsbD_zero_eq v
  | swap => rfl

/-! ## Rotates and shifts -/

/-- The meaning of the four accumulator rotates (R281 to R284). -/
theorem exec_rotateA {i : Instr} {k : ShiftKind}
    (h : (i, k) ∈ [(Instr.rlca, ShiftKind.rlc), (.rrca, .rrc), (.rla, .rl), (.rra, .rr)]) (s : State) :
    exec i s = .next (s.rotateA (k.apply (s.reg .a) (s.flag .cy))) := by
  simp only [List.mem_cons, Prod.mk.injEq, List.not_mem_nil, or_false] at h
  rcases h with ⟨rfl, rfl⟩ | ⟨rfl, rfl⟩ | ⟨rfl, rfl⟩ | ⟨rfl, rfl⟩ <;> rfl

/-- The meaning of the eight shifts of a register (R285 to R299). -/
theorem ShiftKind.exec_onRegister (k : ShiftKind) (r : Reg8) (s : State) :
    exec (k.onRegister r) s = .next (s.shiftReg r (k.apply (s.reg r) (s.flag .cy))) := by
  cases k <;> rfl

/-- The meaning of the eight shifts of the byte at HL (R286 to R300). -/
theorem ShiftKind.exec_onHl (k : ShiftKind) (s : State) :
    exec k.onHl s = s.shiftHl fun m => k.apply m (s.flag .cy) := by
  cases k <;> rfl

/-- Settles O39: each of the four is `rotateA` of its shift function, which writes A and the four flags. -/
theorem accumulatorRotates : Obligations.AccumulatorRotates := by
  intro s i k hk
  refine ⟨_, exec_rotateA hk s, ?_, ?_, ((Quiet.refl s _ _ _).setReg List.mem_cons_self _).writeFlags _ _ _ _⟩
  · simpa [State.rotateA] using k.toNat_apply_res (s.reg .a) (s.flag .cy)
  · rw [← k.apply_out (s.reg .a) (s.flag .cy)]
    exact .writeFlags _ _ _ _ _

/-- Settles O40: each of the eight is `shiftReg` of its shift function, which writes the register and the four flags. -/
theorem shiftRegister : Obligations.ShiftRegister := by
  intro s k r hr
  have result (o : ShiftOut) : (s.shiftReg r o).reg r = o.res := by
    simp [State.shiftReg, State.shiftFlags, Reg8.ne_f_of_isOperand hr]
  refine ⟨_, k.exec_onRegister r s, ?_, ?_, ((Quiet.refl s _ _ _).setReg List.mem_cons_self _).writeFlags _ _ _ _⟩
  · rw [result, k.toNat_apply_res]
  · rw [result, ← k.apply_out (s.reg r) (s.flag .cy)]
    exact .writeFlags _ _ _ _ _

/-- Settles O41: each of the eight is a read-modify-write of its shift function that writes the four flags. -/
theorem shiftMemory : Obligations.ShiftMemory := by
  have quiet (s : State) (o : ShiftOut) : Quiet s (s.shiftFlags o) [] [] [.z, .n, .h, .cy] :=
    (Quiet.refl s _ _ _).writeFlags _ _ _ _
  refine ⟨fun s k m hm => ?_, fun s k => ?_⟩
  · obtain ⟨t, ht, flags, stores⟩ := State.modifyHl_stores
      (f := fun m => ((k.apply m (s.flag .cy)).res, s.shiftFlags (k.apply m (s.flag .cy)))) hm
      (quiet s _) (.writeFlags s _ _ _ _)
    rw [k.apply_out] at flags
    exact ⟨t, _, (k.exec_onHl s).trans ht, k.toNat_apply_res m (s.flag .cy), flags, stores⟩
  · rw [k.exec_onHl]
    exact State.modifyHl_faults fun m => quiet s _

/-! ## BIT -/

theorem FlagsAre.bitFlags (s : State) (v : Byte) (b : BitVec 3) :
    FlagsAre (s.bitFlags v b) (!bitOf v b.toNat) false true (s.flag .cy) := by
  rw [bitOf_eq_getLsbD]
  exact .writeZnh s _ _ _

theorem Quiet.bitFlags (s : State) (v : Byte) (b : BitVec 3) : Quiet s (s.bitFlags v b) [] [] [.z, .n, .h] :=
  (Quiet.refl s _ _ _).writeZnh _ _ _

/-- Settles O42: both forms write Z, N and H by `bitFlags` of the operand, and the `(HL)` form only reads memory. -/
theorem bitTest : Obligations.BitTest :=
  ⟨fun s b r => ⟨_, rfl, .bitFlags s (s.reg r) b, .bitFlags s (s.reg r) b⟩,
    fun s b m hm => ⟨_, State.readIn_peek _ hm, .bitFlags s m b, .bitFlags s m b⟩,
    fun _ _ => State.readIn_unmapped _⟩

/-! ## RES and SET -/

theorem bitOf_bitMask (b : BitVec 3) (k : Nat) : bitOf (bitMask b) k = (k == b.toNat) := by
  have hb := b.isLt
  rw [bitOf_eq_getLsbD, bitMask, ← BitVec.twoPow_eq, BitVec.getLsbD_twoPow, decide_eq_true hb, Bool.true_and]
  exact decide_eq_decide.mpr eq_comm

/-- RES clears its bit (R303). -/
theorem bitOf_reset (v : Byte) (b : BitVec 3) (k : Nat) :
    bitOf (v &&& ~~~(bitMask b)) k = (bitOf v k && k != b.toNat) := by
  rw [bitOf_and, bne, ← bitOf_bitMask]
  simp only [bitOf_eq_getLsbD, BitVec.getLsbD_not]
  by_cases hk : k < 8
  · simp [hk]
  · simp [hk, BitVec.getLsbD_of_ge v k (by omega)]

/-- SET sets its bit (R305). -/
theorem bitOf_set (v : Byte) (b : BitVec 3) (k : Nat) :
    bitOf (v ||| bitMask b) k = (bitOf v k || k == b.toNat) := by
  rw [bitOf_or, bitOf_bitMask]

/-- A read-modify-write that writes no flag stores the byte, and nothing else. -/
theorem State.modifyHl_stores_byte {s : State} {m : Byte} (hm : CanModify s m) {f : Byte → Byte} {bit : Nat → Bool}
    (hf : ∀ k, bitOf (f m) k = bit k) :
    ∃ t v, s.modifyHl (fun m => (f m, s)) = .next t ∧ (∀ k, bitOf v k = bit k) ∧
      Stores s t (s.pair .hl) v [] [] := by
  obtain ⟨t, ht, -, stores⟩ := State.modifyHl_stores (f := fun m => (f m, s)) hm (.refl s _ _ _) ⟨rfl, rfl, rfl, rfl⟩
  exact ⟨t, f m, ht, hf, stores⟩

/-- Settles O43: RES and SET write the operand with one bit changed, and no flag. -/
theorem resetAndSetBit : Obligations.ResetAndSetBit := by
  have quiet (s : State) (r : Reg8) (v : Byte) : Quiet s (s.setReg r v) [r] [] [] :=
    (Quiet.refl s _ _ _).setReg List.mem_cons_self v
  refine ⟨fun s b r _ => ⟨⟨_, rfl, ?_, quiet s r _⟩, ⟨_, rfl, ?_, quiet s r _⟩⟩, fun s b m hm => ⟨?_, ?_⟩,
    fun s _ => ⟨State.modifyHl_faults fun _ => .refl s _ _ [], State.modifyHl_faults fun _ => .refl s _ _ []⟩⟩
  · rw [State.reg_setReg_self]
    exact bitOf_reset (s.reg r) b
  · rw [State.reg_setReg_self]
    exact bitOf_set (s.reg r) b
  · exact State.modifyHl_stores_byte hm (bitOf_reset m b)
  · exact State.modifyHl_stores_byte hm (bitOf_set m b)

end Sys2Proof.Machine
end

section
/-! PROOFS. The statements of 44_control_flow.md: each instruction is a jump, a call or a return, run in every case or
only if its condition holds (R320 to R331). -/

namespace Sys2Proof.Machine

/-! ## Conditional execution (40_control_unit.md R183) -/

theorem State.cond_iff_condHolds (s : State) (cc : Cond) : s.cond cc = true ↔ condHolds cc s := by
  cases cc <;> simp [State.cond, condHolds]

theorem State.conditionally_of_condHolds {s : State} {cc : Cond} (h : condHolds cc s) (taken : Result) :
    s.conditionally cc taken = taken := if_pos ((s.cond_iff_condHolds cc).mpr h)

theorem NotTaken.setAborted (s : State) : NotTaken s (s.setAborted true) :=
  ⟨(Frame.refl s [] [] []).of_regs rfl rfl rfl rfl rfl rfl, rfl, .of_eq rfl⟩

theorem State.conditionally_of_not_condHolds {s : State} {cc : Cond} (h : ¬ condHolds cc s) (taken : Result) :
    ∃ t, s.conditionally cc taken = .next t ∧ NotTaken s t :=
  ⟨_, if_neg (mt (s.cond_iff_condHolds cc).mp h), .setAborted s⟩

/-! ## Jumps -/

theorem Quiet.jump (s : State) (target : Word) : Quiet s (s.jump target) [] [.pc] [] :=
  .of_frame ((Frame.refl s _ _ _).jump List.mem_cons_self target) rfl rfl

/-- `pc_next + sext_16(e)` is `pc_next` displaced by `e` (R320). -/
theorem State.displaced_relativeTarget (s : State) (e : Byte) : Displaced (s.pair .pc) e (s.relativeTarget e) :=
  (displaced_sext16 e).sum16 ⟨BitVec.toNat_add _ _, rfl, rfl⟩

/-- Settles O44: each of the three is `jump` to its target. -/
theorem jumpResult : Obligations.JumpResult :=
  ⟨fun s nn => ⟨_, rfl, s.jump_pc nn, .jump s nn⟩, fun s => ⟨_, rfl, s.jump_pc _, .jump s _⟩,
    fun s e => ⟨_, rfl, s.displaced_relativeTarget e, .jump s _⟩, faultsOnWord .jp, faultsOnByte .jr⟩

/-- Settles O45: the jump runs if the condition holds, else the abort signal is set. -/
theorem conditionalJump : Obligations.ConditionalJump :=
  ⟨fun s _ nn h => ⟨_, State.conditionally_of_condHolds h _, s.jump_pc nn, .jump s nn⟩,
    fun s _ e h => ⟨_, State.conditionally_of_condHolds h _, s.displaced_relativeTarget e, .jump s _⟩,
    fun _ _ _ _ h => ⟨State.conditionally_of_not_condHolds h _, State.conditionally_of_not_condHolds h _⟩,
    fun cc => faultsOnWord (.jpCc cc), fun cc => faultsOnByte (.jrCc cc)⟩

/-! ## Calls -/

theorem Frame.setSp {s t : State} {rs : List Reg8} {ws : List Reg16} {fs : List Flag} (h : Frame s t rs ws fs)
    (hw : .sp ∈ ws) (v : Word) : Frame s (t.setPair .sp v) rs ws fs :=
  h.setPair (fun _ hr => by cases hr) (fun _ => hw) v

/-- A call whose push can be stored (R326). -/
theorem State.callTo_called {s : State} (h : CanPush s) (target : Word) :
    ∃ t, s.callTo target = .next t ∧ Called s t target := by
  obtain ⟨m, -, hpush, stored, -⟩ := State.push16_ok h (s.pair .pc) fun s1 => .next (s1.jump target)
  have unchanged : Frame s { s with mem := m } [] [.sp, .pc] [] := (Frame.refl s _ _ _).of_regs rfl rfl rfl rfl rfl rfl
  exact ⟨_, hpush, rfl, rfl, stored _ rfl, (unchanged.setSp (by decide) _).jump (by decide) target, rfl⟩

/-- A call faults as its push does. -/
theorem State.callTo_faults (s : State) (target : Word) : PushFaults s (s.pair .pc) (s.callTo target) :=
  s.push16_faults (s.pair .pc) _

/-- The target of RST is `8 * t` (R331). -/
theorem zext16_restart (t : BitVec 3) :
    zext16 (BitVec.ofNat 8 (t.toNat * 8)) = BitVec.ofNat 16 (t.toNat * 8) := by
  revert t
  decide

/-- Settles O46: both are `callTo` of their target. -/
theorem callResult : Obligations.CallResult := by
  refine ⟨fun s h => ⟨State.callTo_called h, fun t => ?_⟩, fun s _ _ => ⟨s.callTo_faults _, s.callTo_faults _⟩,
    faultsOnWord .call⟩
  rw [← zext16_restart]
  exact State.callTo_called h _

/-! ## Returns -/

theorem Word.toNat_ofBytes (high low : Byte) : (Word.ofBytes high low).toNat = 256 * high.toNat + low.toNat := by
  have hh := high.isLt
  have hl := low.isLt
  rw [Word.ofBytes, BitVec.toNat_ofNat]
  omega

/-- A return whose stack can be read goes on with PC popped and SP raised by 2. -/
theorem State.returnThen_ok {s : State} {high low : Byte} (h : CanPop s high low) (k : State → Result) :
    s.returnThen k = k ((s.setPair .sp (s.pair .sp + 2)).jump (Word.ofBytes high low)) := State.pop16_ok h _

/-- The state a return goes on with (R328). -/
theorem Returned.jump_popped (s : State) (high low : Byte) :
    Returned s ((s.setPair .sp (s.pair .sp + 2)).jump (Word.ofBytes high low)) high low :=
  ⟨Word.toNat_ofBytes high low, rfl, ((Frame.refl s _ _ _).setSp (by decide) _).jump (by decide) _, .of_eq rfl⟩

/-- A return faults as its pop does. -/
theorem State.returnThen_faults (s : State) (k : State → Result) : PopFaults s (s.returnThen k) :=
  s.pop16_faults _

/-- Settles O48: RET is `returnThen` with nothing after it. -/
theorem returnResult : Obligations.ReturnResult :=
  ⟨fun s high low h => ⟨_, State.returnThen_ok h _, .jump_popped s high low, rfl⟩,
    fun s => s.returnThen_faults _⟩

/-- Settles O47: the call or the return runs if the condition holds, else the abort signal is set. -/
theorem conditionalCallAndReturn : Obligations.ConditionalCallAndReturn := by
  obtain ⟨returned, returnFaults⟩ := returnResult
  refine ⟨fun s cc nn h => ?_, fun s cc h => ?_,
    fun _ _ _ h => ⟨State.conditionally_of_not_condHolds h _, State.conditionally_of_not_condHolds h _⟩,
    fun cc => faultsOnWord (.callCc cc)⟩
  · rw [show exec (.callCc cc nn) s = s.callTo nn from State.conditionally_of_condHolds h _]
    exact ⟨fun hpush => State.callTo_called hpush nn, s.callTo_faults nn⟩
  · rw [show exec (.retCc cc) s = exec .ret s from State.conditionally_of_condHolds h _]
    exact ⟨returned s, returnFaults s⟩

end Sys2Proof.Machine
end

section
/-! PROOFS. The statements of 45_load_store.md: a load or store of one byte is one read or one write at its form's
address (R360), the stepping forms move HL after it, and `LD (nn),SP` is one 16-bit store. -/

namespace Sys2Proof.Machine

/-! ## Loads of a register -/

/-- Settles O49: each of the four is one register write. -/
theorem registerLoad : Obligations.RegisterLoad := by
  have single (s : State) (r : Reg8) (v : Byte) : Quiet s (s.setReg r v) [r] [] [] :=
    (Quiet.refl s _ _ _).setReg List.mem_cons_self v
  have pair (s : State) (rr : Reg16) (v : Word) : Quiet s (s.setPair rr v) (pairHalves rr) [rr] [] :=
    (Quiet.refl s _ _ _).setPair (fun _ => id) (fun _ => List.mem_cons_self) v
  exact ⟨fun s r _ => ⟨_, rfl, s.reg_setReg_self r _, single s r _⟩,
    fun s r n => ⟨_, rfl, s.reg_setReg_self r n, single s r n⟩,
    fun s rr nn => ⟨_, rfl, s.pair_setPair_self rr nn, pair s rr nn⟩,
    fun s => ⟨_, rfl, s.pair_setPair_self .sp _, pair s .sp _⟩,
    fun r => faultsOnByte (.ldRN r), fun rr => faultsOnWord (.ldRrNn rr)⟩

/-! ## Loads from memory -/

/-- Every form reads the byte at its address in the current domain, and writes it to its register (R360). -/
theorem LoadForm.exec_eq {s : State} {i : Instr} {r : Reg8} {a : Word} (form : LoadForm s i r a) :
    exec i s = s.readIn s.mode a fun m => .next (s.setReg r m) := by
  cases form <;> rfl

/-- The last page starts at `0xFF00`, and no offset leaves it (R360). -/
theorem toNat_lastPage (n : Byte) : (0xFF00#16 + zext16 n).toNat = 0xFF00 + n.toNat := by
  have hn := n.isLt
  simp only [zext16, BitVec.toNat_add, BitVec.toNat_ofNat]
  omega

/-- Settles O50: each form is one read at its address. -/
theorem memoryLoad : Obligations.MemoryLoad := by
  refine ⟨fun s i r a m form hm => ?_, fun s i r a form unmapped => ?_,
    fun s => ⟨rfl, rfl, rfl, fun _ => rfl, toNat_lastPage, toNat_lastPage _⟩,
    faultsOnWord .ldANn, faultsOnByte .ldhAN⟩
  · exact ⟨_, form.exec_eq.trans (State.readIn_peek _ hm), s.reg_setReg_self r m,
      (Quiet.refl s _ _ _).setReg List.mem_cons_self m⟩
  · exact form.exec_eq.trans (State.readIn_unmapped _ unmapped)

/-! ## Loads that step HL -/

/-- `xp[HL] - 1` as a number (00_scope.md R15). -/
theorem Word.toNat_add_neg_one (a : Word) : ((a + -1).toNat : Int) = ((a.toNat : Int) - 1) % 2 ^ 16 := by
  rw [← BitVec.sub_eq_add_neg]
  exact Word.toNat_sub_one a

/-- A readable byte at HL goes to A, and HL moves by `delta` (R372, R373). -/
theorem State.loadAStep_loads {s : State} {d : Domain} {m : Byte} (hm : s.mem.peek d (s.pair .hl) = some m)
    (delta : Word) : ∃ t, s.loadAStep d delta = .next t ∧ t.reg .a = m ∧ t.pair .hl = s.pair .hl + delta ∧
      Quiet s t [.a, .h, .l] [] [] := by
  refine ⟨_, State.readIn_peek _ hm, ?_, State.pair_setPair_self _ _ _, ?_⟩
  · rw [State.reg_setPair_ne _ .hl _ .a (by decide), State.reg_setReg_self]
  · exact ((Quiet.refl s _ _ _).setReg (by decide) m).setPair (rr := .hl) (fun _ => List.mem_cons_of_mem _) nofun _

/-- Settles O51: both are `loadAStep`, by 1 and by -1. -/
theorem steppingLoad : Obligations.SteppingLoad := by
  refine ⟨fun s m hm => ⟨?_, ?_⟩, fun s => ⟨State.readIn_unmapped _, State.readIn_unmapped _⟩⟩
  · obtain ⟨t, ht, ha, hhl, quiet⟩ := State.loadAStep_loads hm 1
    refine ⟨t, ht, ha, ?_, quiet⟩
    rw [hhl]
    exact BitVec.toNat_add _ 1
  · obtain ⟨t, ht, ha, hhl, quiet⟩ := State.loadAStep_loads hm (-1)
    refine ⟨t, ht, ha, ?_, quiet⟩
    rw [hhl]
    exact Word.toNat_add_neg_one _

/-! ## Stores to memory -/

/-- Every form writes its value at its address, and nothing after it (R360). -/
theorem StoreForm.exec_eq {s : State} {i : Instr} {a : Word} {v : Byte} (form : StoreForm s i a v) :
    exec i s = s.write a v .next := by
  cases form <;> rfl

/-- A write to a RAM byte goes on with that byte stored, and nothing else. -/
theorem State.write_stores {s : State} {a : Word} (hwf : s.mem.wf = true) (ram : s.mem.writable s.mode a = true)
    (v : Byte) (k : State → Result) (rs : List Reg8) : ∃ t, s.write a v k = k t ∧ Stores s t a v rs [] := by
  obtain ⟨m, hm, hwrite⟩ := State.write_writable v k ram
  exact ⟨_, hwrite, (Frame.refl s _ _ _).of_regs rfl rfl rfl rfl rfl rfl, rfl, .of_writeByte hwf hm rfl⟩

/-- A write faults at an unmapped address and in a ROM. -/
theorem State.write_faults (s : State) (a : Word) (v : Byte) (k : State → Result) : StoreFaults s a (s.write a v k) :=
  ⟨State.write_unmapped v k, State.write_inRom v k⟩

/-- Settles O52: each form is one write at its address. -/
theorem memoryStore : Obligations.MemoryStore := by
  refine ⟨fun s i a v form hwf ram => ?_, fun s i a v form => ?_, faultsOnByte .ldHlN, faultsOnWord .ldNnA,
    faultsOnByte .ldhNA⟩
  · obtain ⟨t, ht, stores⟩ := State.write_stores hwf ram v .next []
    exact ⟨t, form.exec_eq.trans ht, stores⟩
  · rw [form.exec_eq]
    exact s.write_faults a v .next

/-! ## Stores that step HL -/

theorem Stores.setHl {s t : State} {a : Word} {v : Byte} {fs : List Flag} (stores : Stores s t a v [.h, .l] fs)
    (w : Word) : Stores s (t.setPair .hl w) a v [.h, .l] fs :=
  ⟨stores.frame.setPair (rr := .hl) (fun _ => id) nofun w, stores.signals,
    stores.memory.stored, stores.memory.others, stores.memory.table⟩

/-- A is stored in the RAM byte at the old HL, and HL moves by `delta` (R374, R375). -/
theorem State.storeAStep_stores {s : State} (hwf : s.mem.wf = true) (ram : s.mem.writable s.mode (s.pair .hl) = true)
    (delta : Word) : ∃ t, s.storeAStep delta = .next t ∧ t.pair .hl = s.pair .hl + delta ∧
      Stores s t (s.pair .hl) (s.reg .a) [.h, .l] [] := by
  obtain ⟨t, hwrite, stores⟩ := State.write_stores hwf ram (s.reg .a)
    (fun s1 => .next (s1.setPair .hl (s.pair .hl + delta))) [.h, .l]
  exact ⟨_, hwrite, State.pair_setPair_self _ _ _, stores.setHl _⟩

theorem State.storeAStep_faults (s : State) (delta : Word) : StoreFaults s (s.pair .hl) (s.storeAStep delta) :=
  s.write_faults (s.pair .hl) (s.reg .a) fun s1 => .next (s1.setPair .hl (s.pair .hl + delta))

/-- Settles O53: both are `storeAStep`, by 1 and by -1, and fault as their write does. -/
theorem steppingStore : Obligations.SteppingStore := by
  refine ⟨fun s hwf ram => ⟨?_, ?_⟩, fun s => ⟨s.storeAStep_faults 1, s.storeAStep_faults (-1)⟩⟩
  · obtain ⟨t, ht, hhl, stores⟩ := State.storeAStep_stores hwf ram 1
    refine ⟨t, ht, ?_, stores⟩
    rw [hhl]
    exact BitVec.toNat_add _ 1
  · obtain ⟨t, ht, hhl, stores⟩ := State.storeAStep_stores hwf ram (-1)
    refine ⟨t, ht, ?_, stores⟩
    rw [hhl]
    exact Word.toNat_add_neg_one _

/-! ## The store of SP -/

/-- The byte at the last address is in no entry with the byte after it (20_memory.md R94). -/
theorem Memory.pairInOneEntry_last (m : Memory) (d : Domain) : m.pairInOneEntry d 0xFFFF#16 = false := by
  refine Bool.eq_false_iff.mpr fun h => ?_
  obtain ⟨e, r, -, -, -, -, -, notLast⟩ := Memory.target_of_pairInOneEntry h
  exact notLast rfl

/-- Settles O54: the instruction is one `write16` of SP. -/
theorem stackPointerStore : Obligations.StackPointerStore := by
  refine ⟨fun s nn h => ?_, fun s nn => s.write16_faults nn _ _, fun s hb hwf hc => ?_, faultsOnWord .ldNnSp⟩
  · obtain ⟨m, -, hwrite, stored⟩ := State.write16_ok h (s.pair .sp) .next
    exact ⟨_, hwrite, stored _ rfl, (Frame.refl s _ _ _).of_regs rfl rfl rfl rfl rfl rfl, rfl⟩
  · exact State.checkStraddle_straddle _ _ hb hwf hc (s.mem.pairInOneEntry_last s.mode)

end Sys2Proof.Machine
end

section
/-! PROOFS. The statements of 46_stack.md: PUSH is one `push16` of its pair (R411), POP one `pop16` into its pair
(R412), and what a push stored a pop can read (R413). -/

namespace Sys2Proof.Machine

/-! ## PUSH -/

/-- A PUSH whose two bytes can be stored (R411); it also keeps which pairs of bytes straddle. -/
theorem exec_push_pushed {s : State} (h : CanPush s) (qq : Reg16) :
    ∃ t, exec (.push qq) s = .next t ∧ PushedWord s t (s.pair qq) ∧ t.pair .sp = s.pair .sp - 2 ∧
      Frame s t [] [.sp] [] ∧ t.signals = s.signals ∧
      ∀ d a, t.mem.pairInOneEntry d a = s.mem.pairInOneEntry d a := by
  obtain ⟨m, -, hpush, stored, samePairs⟩ := State.push16_ok h (s.pair qq) .next
  have unchanged : Frame s { s with mem := m } [] [.sp] [] := (Frame.refl s _ _ _).of_regs rfl rfl rfl rfl rfl rfl
  exact ⟨_, hpush, stored _ rfl, rfl, unchanged.setSp List.mem_cons_self _, rfl, samePairs⟩

/-- Settles O55: PUSH is `push16` of its pair, and faults as that does. -/
theorem pushResult : Obligations.PushResult := by
  refine ⟨fun s qq h => ?_, fun s qq => s.push16_faults (s.pair qq) .next⟩
  obtain ⟨t, hpush, pushed, hsp, frame, signals, -⟩ := exec_push_pushed h qq
  exact ⟨t, hpush, pushed, hsp, frame, signals⟩

/-! ## POP -/

/-- The meaning of POP (R412). -/
theorem exec_pop (qq : Reg16) (s : State) : exec (.pop qq) s = s.pop16 fun v s1 => .next (s1.setPair qq v) := rfl

/-- A POP whose two bytes can be read loads its pair with them, SP raised by 2 (R412). -/
theorem exec_pop_popped {s : State} {high low : Byte} (h : CanPop s high low) (qq : Reg16) :
    exec (.pop qq) s = .next ((s.setPair .sp (s.pair .sp + 2)).setPair qq (Word.ofBytes high low)) :=
  (exec_pop qq s).trans (State.pop16_ok h _)

/-- A stack pair is two single registers, no 16-bit one (10_state.md R30). -/
theorem Reg16.not_isWordRegister_of_isStackPair {qq : Reg16} (h : qq.isStackPair = true) :
    ¬ isWordRegister qq = true := by
  obtain rfl | rfl | rfl | rfl := Reg16.isStackPair_iff.mp h <;> decide

/-- Loading a stack pair keeps SP. -/
theorem State.sp_setStackPair (s : State) {qq : Reg16} (h : qq.isStackPair = true) (v : Word) :
    (s.setPair qq v).pair .sp = s.pair .sp := s.pair_sp_setPair_ne qq v (by rintro rfl; cases h)

/-- Settles O56: POP is `pop16` into its pair, so AF takes all of F (R412), and it faults as that does. -/
theorem popResult : Obligations.PopResult := by
  refine ⟨fun s qq high low hqq h => ⟨_, exec_pop_popped h qq, ?_, ?_, ?_, ?_⟩, fun s qq => ?_⟩
  · rw [State.pair_setPair_self, Word.toNat_ofBytes]
  · rw [State.sp_setStackPair _ hqq, State.pair_setPair_self]
  · rintro rfl
    rw [State.reg_setPair_af_low, Word.low_ofBytes]
  · exact (Quiet.refl s _ _ _).setSp _ |>.setPair (fun _ => id)
      (fun word => absurd word (Reg16.not_isWordRegister_of_isStackPair hqq)) _
  · rw [exec_pop]
    exact s.pop16_faults _

/-! ## PUSH and then POP -/

/-- The two bytes a push stores are two places: the straddle check puts them in one entry, and where it is off
`apart` says so (R413). -/
theorem CanPush.locate_ne {s : State} (h : CanPush s)
    (apart : s.params.straddleFault = false →
      s.mem.locate s.mode (s.pair .sp - 2) ≠ s.mem.locate s.mode (s.pair .sp - 1)) :
    s.mem.locate s.mode (s.pair .sp - 2) ≠ s.mem.locate s.mode (s.pair .sp - 1) := by
  cases hb : s.params.straddleFault with
  | false => exact apart hb
  | true =>
    obtain ⟨-, distinct⟩ := Memory.pair_writable h.wf (h.unstraddled hb) h.lower
    rwa [Word.sub_two_succ] at distinct

/-- A value pushed into two places can be popped where SP then points. -/
theorem PushedWord.canPop {s t : State} {v : Word} (pushed : PushedWord s t v) (h : CanPush s)
    (apart : s.mem.locate s.mode (s.pair .sp - 2) ≠ s.mem.locate s.mode (s.pair .sp - 1))
    (hsp : t.pair .sp = s.pair .sp - 2) (frame : Frame s t [] [.sp] [])
    (samePairs : ∀ d a, t.mem.pairInOneEntry d a = s.mem.pairInOneEntry d a) : CanPop t v.high v.low := by
  refine ⟨fun hb => ?_, ?_, ?_⟩
  · rw [hsp, frame.mode, samePairs]
    exact h.unstraddled (frame.parameters ▸ hb)
  · rw [hsp, frame.mode]
    exact pushed.second _ _ rfl
  · rw [hsp, frame.mode, Word.sub_two_succ]
    exact pushed.first _ _ rfl apart.symm

/-- Settles O57: the POP reads the two bytes the PUSH stored, and SP goes 2 down and 2 up. -/
theorem pushPopRoundTrip : Obligations.PushPopRoundTrip := by
  intro s qq qq' _ hqq' h apart
  obtain ⟨t, hpush, pushed, hsp, frame, -, samePairs⟩ := exec_push_pushed h qq
  have readable := pushed.canPop h (h.locate_ne apart) hsp frame samePairs
  refine ⟨t, _, hpush, exec_pop_popped readable qq', ?_, ?_⟩
  · rw [State.pair_setPair_self, Word.ofBytes_high_low]
  · rw [State.sp_setStackPair _ hqq', State.pair_setPair_self, hsp, BitVec.sub_add_cancel]

end Sys2Proof.Machine
end

section
/-! PROOFS. The statement of 47_system.md: NOP, HALT, STOP, DI and EI write at most signals (R430 to R434), RETI is a
return and then a write of signals (44_control_flow.md R330), and STOP_LENGTH decides what STOP decodes to. -/

namespace Sys2Proof.Machine

/-! ## Instructions that write signals alone -/

/-- The four instructions whose whole effect is their signals (47_system.md R431 to R434). -/
theorem exec_signals_only (s : State) {x : Byte} {i : Instr} (h : i ∈ [Instr.halt, .stop x, .di, .ei]) :
    exec i s = .next { s with signals := signalsAfter i s } := by
  simp only [List.mem_cons, List.not_mem_nil, or_false] at h
  obtain rfl | rfl | rfl | rfl := h <;> rfl

/-- Signals are outside every frame. -/
theorem Frame.withSignals {s t : State} {rs : List Reg8} {ws : List Reg16} {fs : List Flag} (h : Frame s t rs ws fs)
    (g : Signals) : Frame s { t with signals := g } rs ws fs := h.of_regs rfl rfl rfl rfl rfl rfl

/-! ## RETI -/

/-- Signals are no part of what a return leaves (44_control_flow.md R328). -/
theorem Returned.withSignals {s t : State} {high low : Byte} (h : Returned s t high low) (g : Signals) :
    Returned s { t with signals := g } high low := ⟨h.pc, h.sp, h.frame.withSignals g, .of_eq h.memory.memory⟩

/-- RETI is a return and then the two interrupt signals (44_control_flow.md R330). -/
theorem exec_reti (s : State) : exec .reti s = s.returnThen fun t => .next (t.setInterruptSignals true false) := rfl

/-- A RETI whose stack can be read returns as RET does and enables interrupts. -/
theorem exec_reti_returned {s : State} {high low : Byte} (h : CanPop s high low) :
    ∃ t, exec .reti s = .next t ∧ Returned s t high low ∧
      t.signals = { s.signals with interruptMasterEnable := true, clearInterruptStatusSignal := false } :=
  ⟨_, (exec_reti s).trans (State.returnThen_ok h _), (Returned.jump_popped s high low).withSignals _, rfl⟩

/-- Settles O58: the four write their signals alone, and RETI faults as its return does. -/
theorem systemInstructions : Obligations.SystemInstructions := by
  refine ⟨fun _ => rfl, fun s x i hi => ?_, fun _ _ _ => exec_reti_returned, fun s => ?_, faultsOnByte .stop,
    fun _ => ⟨decodeBase_stop_two, decodeBase_stop_one⟩⟩
  · exact ⟨_, exec_signals_only s hi, rfl, (Frame.refl s _ _ _).withSignals _, .of_eq rfl⟩
  · rw [exec_reti]
    exact s.returnThen_faults _

end Sys2Proof.Machine
end

section
/-! PROOFS. The statements of 48_gbx_privilege.md: JPU is a jump that requests the switch to User mode (R450), which no
other instruction requests and no step undoes (R451); the LDU forms are the base loads on a User byte (R452 to R460). -/

namespace Sys2Proof.Machine

/-! ## The mode -/

/-- Only JPU sets the request (10_state.md R51). -/
theorem signalsAfter_userModeRequested {i : Instr} {s : State}
    (h : (signalsAfter i s).userModeRequested = true) :
    s.signals.userModeRequested = true ∨ ∃ nn, i = .jpu nn := by
  cases i
  case jpu nn => exact .inr ⟨nn, rfl⟩
  all_goals exact .inl h

/-- Settles O15: `exec` keeps the mode, and the post-cycle step writes only User to it. -/
theorem modeChangesOnlyByJpu : Obligations.ModeChangesOnlyByJpu := by
  refine ⟨fun s t i h => ⟨(exec_next h).mode, fun hreq => ?_⟩, fun s t h hu => ?_⟩
  · rw [exec_signals i s t h] at hreq
    exact signalsAfter_userModeRequested hreq
  · obtain ⟨-, _, _, _, hi, ht, rfl⟩ := step_next h
    have fetched := (State.fetchInstr_keeps hi).mode
    exact State.postCycle_user ((exec_next ht).mode.trans (fetched.trans hu))

/-! ## JPU -/

/-- Settles O59: JPU is JP and the request, which the post-cycle step serves. -/
theorem systemJump : Obligations.SystemJump :=
  ⟨fun s nn => ⟨(s.jump nn).setUserModeRequested true, rfl, rfl, rfl,
    (Quiet.jump s nn).frame.withSignals _, .of_eq rfl, rfl, rfl⟩, faultsOnWord .jpu⟩

/-! ## LDU -/

/-- What an instruction leaves unchanged after its request for a User byte (R452). -/
theorem Quiet.of_requestUserSource {s t : State} {rs : List Reg8} {ws : List Reg16} {fs : List Flag}
    (q : Quiet s.requestUserSource t rs ws fs) : Frame s t rs ws fs ∧ SameMemory s t ∧
      t.signals = { s.signals with userModeSourceOperandRequested := true } :=
  ⟨q.frame.from_regs rfl rfl rfl rfl rfl rfl, .of_eq q.memory.memory, q.signals⟩

/-- Every form requests a User byte, reads the one at its address, and writes it to its register (R452). -/
theorem UserLoadForm.exec_eq {s : State} {i : Instr} {r : Reg8} {a : Word} (form : UserLoadForm s i r a) :
    exec i s = s.requestUserSource.readIn .user a fun m => .next (s.requestUserSource.setReg r m) := by
  cases form <;> rfl

/-- The stepping forms move HL as LD does, after the request (R456, R457). -/
theorem State.loadAStep_requestUserSource {s : State} {m : Byte} (hm : s.mem.peek .user (s.pair .hl) = some m)
    (delta : Word) : ∃ t, s.requestUserSource.loadAStep .user delta = .next t ∧ t.reg .a = m ∧
      t.pair .hl = s.pair .hl + delta ∧ Frame s t [.a, .h, .l] [] [] ∧ SameMemory s t ∧
      t.signals = { s.signals with userModeSourceOperandRequested := true } := by
  obtain ⟨t, ht, ha, hhl, quiet⟩ := State.loadAStep_loads (s := s.requestUserSource) hm delta
  exact ⟨t, ht, ha, hhl, quiet.of_requestUserSource⟩

/-- Settles O60: each form is one read in the User domain, and the stepping forms are `loadAStep` by 1 and by -1. -/
theorem userLoad : Obligations.UserLoad := by
  refine ⟨fun s i r a form => ⟨fun m hm => ?_, fun unmapped => ?_⟩, fun s m hm => ⟨?_, ?_⟩,
    fun s => ⟨State.readIn_unmapped (s := s.requestUserSource) _, State.readIn_unmapped (s := s.requestUserSource) _⟩,
    faultsOnWord .lduANn, faultsOnByte .ldhuAN⟩
  · exact ⟨_, form.exec_eq.trans (State.readIn_peek _ hm), State.reg_setReg_self _ r m,
      ((Quiet.refl s.requestUserSource _ _ _).setReg List.mem_cons_self m).of_requestUserSource⟩
  · exact form.exec_eq.trans (State.readIn_unmapped _ unmapped)
  · obtain ⟨t, ht, ha, hhl, kept⟩ := State.loadAStep_requestUserSource hm 1
    refine ⟨t, ht, ha, ?_, kept⟩
    rw [hhl]
    exact BitVec.toNat_add _ 1
  · obtain ⟨t, ht, ha, hhl, kept⟩ := State.loadAStep_requestUserSource hm (-1)
    refine ⟨t, ht, ha, ?_, kept⟩
    rw [hhl]
    exact Word.toNat_add_neg_one _

end Sys2Proof.Machine
end

section
/-! PROOFS. The statement of 60_exceptions.md about a fault's record and memory (R471, R476): a property of the raised
cause and memory is carried through each shared operation once, and the two stores of a 16-bit value apart. -/

namespace Sys2Proof.Machine

/-! ## The causes a `RunCycle` can reach -/

/-- The causes of R471 that a `RunCycle` raises. -/
def FaultCause.OfRunCycle (c : FaultCause) : Prop :=
  (∃ a d, c = .readOnlyWrite a d) ∨ (∃ a d k, c = .unmapped a d k) ∨ (∃ a d, c = .straddle a d) ∨
    (∃ o, c = .undecodable o) ∨ (∃ p o, c = .unmodelled p o)

theorem FaultCause.OfRunCycle.readOnlyWrite (a : Word) (d : Domain) : (FaultCause.readOnlyWrite a d).OfRunCycle :=
  .inl ⟨a, d, rfl⟩

theorem FaultCause.OfRunCycle.unmapped (a : Word) (d : Domain) (k : AccessKind) :
    (FaultCause.unmapped a d k).OfRunCycle := .inr (.inl ⟨a, d, k, rfl⟩)

theorem FaultCause.OfRunCycle.straddle (a : Word) (d : Domain) : (FaultCause.straddle a d).OfRunCycle :=
  .inr (.inr (.inl ⟨a, d, rfl⟩))

theorem causeOfReject_ofRunCycle (r : OpcodeReject) : (causeOfReject r).OfRunCycle := by
  cases r with
  | undecodable o => exact .inr (.inr (.inr (.inl ⟨o, rfl⟩)))
  | unmodelled p o => exact .inr (.inr (.inr (.inr ⟨p, o, rfl⟩)))

/-- In a well-formed memory nothing covers an address, or it is routed within a resource: no access of one byte is out
of bounds (20_memory.md R90). -/
theorem Memory.covered_or_not {m : Memory} (hwf : m.wf = true) (d : Domain) (a : Word) :
    m.covers d a = false ∨ ∃ n r o, m.target d a = some (n, r, o) ∧ o < r.size := by
  cases hc : m.covers d a with
  | false => exact .inl rfl
  | true =>
    obtain ⟨e, r, -, -, -, -, -, ht, -, ho⟩ := Memory.target_of_covers hwf hc
    exact .inr ⟨_, r, _, ht, ho⟩

theorem Memory.readByte_ofRunCycle {m : Memory} (hwf : m.wf = true) {d : Domain} {a : Word} {k : AccessKind}
    {c : FaultCause} (h : m.readByte d a k = .error c) : c.OfRunCycle := by
  obtain hc | ⟨n, r, o, ht, ho⟩ := Memory.covered_or_not hwf d a
  · rw [Memory.readByte_of_not_covers k hc] at h
    cases h
    exact .unmapped a d k
  · simp [Memory.readByte, ht, Resource.readByte, ho] at h

theorem Memory.writeByte_ofRunCycle {m : Memory} (hwf : m.wf = true) {d : Domain} {a : Word} {v : Byte}
    {c : FaultCause} (h : m.writeByte d a v = .error c) : c.OfRunCycle := by
  obtain hc | ⟨n, r, o, ht, ho⟩ := Memory.covered_or_not hwf d a
  · rw [Memory.writeByte_of_not_covers v hc] at h
    cases h
    exact .unmapped a d .write
  · by_cases hk : r.kind = .ram
    · simp [Memory.writeByte, ht, Resource.writeByte, hk, ho] at h
    · rw [Memory.writeByte_of_inRom v ⟨n, r, o, ht, hk⟩] at h
      cases h
      exact .readOnlyWrite a d

theorem Memory.straddleCheck_ofRunCycle {m : Memory} {b : Bool} {d : Domain} {a : Word} {k : AccessKind}
    {c : FaultCause} (h : m.straddleCheck b d a k = some c) : c.OfRunCycle := by
  obtain ⟨-, rfl | rfl⟩ := Memory.straddleCheck_some h
  · exact .unmapped a d k
  · exact .straddle a d

/-! ### The fetch -/

theorem State.fetchByte_ofRunCycle {s : State} (hwf : s.mem.wf = true) {c : FaultCause}
    (h : s.fetchByte = .error c) : c.OfRunCycle := by
  unfold State.fetchByte at h
  split at h
  · cases h
    exact Memory.readByte_ofRunCycle hwf ‹_›
  · cases h

theorem State.fetchOpcode_ofRunCycle {s : State} (hwf : s.mem.wf = true) {c : FaultCause}
    (h : s.fetchOpcode = .error c) : c.OfRunCycle := by
  unfold State.fetchOpcode at h
  split at h
  · cases h
    exact State.fetchByte_ofRunCycle hwf ‹_›
  · rename_i b s1 h1
    have hwf1 : s1.mem.wf = true := (State.fetchByte_keeps h1).memory ▸ hwf
    split at h
    · split at h
      · cases h
        exact State.fetchByte_ofRunCycle (s := s1.setReg .pir b) hwf1 ‹_›
      · cases h
    · cases h

theorem State.fetchOperands_ofRunCycle {s : State} (hwf : s.mem.wf = true) {t : Template} {c : FaultCause}
    (h : s.fetchOperands t = .error c) : c.OfRunCycle := by
  unfold State.fetchOperands at h
  split at h
  · cases h
  · split at h
    · cases h
      exact State.fetchByte_ofRunCycle hwf ‹_›
    · cases h
  · split at h
    · cases h
      exact Memory.straddleCheck_ofRunCycle ‹_›
    · split at h
      · cases h
        exact State.fetchByte_ofRunCycle hwf ‹_›
      · rename_i low s1 h1
        have hwf1 : s1.mem.wf = true := (State.fetchByte_keeps h1).memory ▸ hwf
        split at h
        · cases h
          exact State.fetchByte_ofRunCycle hwf1 ‹_›
        · cases h

theorem State.fetchInstr_ofRunCycle {s : State} (hwf : s.mem.wf = true) {c : FaultCause}
    (h : s.fetchInstr = .error c) : c.OfRunCycle := by
  unfold State.fetchInstr at h
  split at h
  · cases h
    exact State.fetchOpcode_ofRunCycle hwf ‹_›
  · rename_i s1 h1
    have hwf1 : s1.mem.wf = true := (State.fetchOpcode_keeps h1).memory ▸ hwf
    split at h
    · cases h
      exact causeOfReject_ofRunCycle _
    · exact State.fetchOperands_ofRunCycle hwf1 h

/-! ## A property of what an instruction raises -/

/-- If the answer is a fault, it is a raise, and its cause and memory have the property. -/
def Raises (P : FaultCause → Memory → Prop) (r : Result) : Prop :=
  ∀ f, r = .fault f → ∃ c m, f = .raised c m ∧ P c m

section
variable {P : FaultCause → Memory → Prop} {s : State}

theorem Raises.next (t : State) : Raises P (.next t) := nofun

theorem Raises.raise {c : FaultCause} (h : P c s.mem) : Raises P (s.raise c) := by
  intro f hf
  cases hf
  exact ⟨c, _, rfl, h⟩

theorem Raises.orRaise {α : Type} {x : Except FaultCause α} {k : α → Result} (herr : ∀ c, x = .error c → P c s.mem)
    (hk : ∀ v, x = .ok v → Raises P (k v)) : Raises P (s.orRaise x k) := by
  cases x with
  | ok v => exact hk v rfl
  | error c => exact .raise (herr c rfl)

theorem Raises.write {a : Word} {v : Byte} {k : State → Result}
    (herr : ∀ c, s.mem.writeByte s.mode a v = .error c → P c s.mem)
    (hk : ∀ m, s.mem.writeByte s.mode a v = .ok m → Raises P (k { s with mem := m })) : Raises P (s.write a v k) :=
  .orRaise herr hk

theorem Raises.checkStraddle {a : Word} {kind : AccessKind} {k : Result}
    (herr : ∀ c, s.mem.straddleCheck s.params.straddleFault s.mode a kind = some c → P c s.mem)
    (hk : s.mem.straddleCheck s.params.straddleFault s.mode a kind = none → Raises P k) :
    Raises P (s.checkStraddle a kind k) := by
  unfold State.checkStraddle
  cases hc : s.mem.straddleCheck s.params.straddleFault s.mode a kind with
  | none => exact hk hc
  | some c => exact .raise (herr c hc)

theorem Raises.conditionally {cc : Cond} {r : Result} (h : s.cond cc = true → Raises P r) :
    Raises P (s.conditionally cc r) := by
  unfold State.conditionally
  split
  · exact h ‹_›
  · exact .next _

theorem Raises.mono {Q : FaultCause → Memory → Prop} {r : Result} (h : Raises P r) (hPQ : ∀ c m, P c m → Q c m) :
    Raises Q r := by
  intro f hf
  obtain ⟨c, m, rfl, hP⟩ := h f hf
  exact ⟨c, m, rfl, hPQ c m hP⟩

/-- A `RunCycle` records the cause that was raised, at the instruction's first byte, with the memory it was raised
with. -/
theorem Raises.finishCycle {r : Result} (h : Raises P r) {start : Word} {f : FaultRecord} {m : Memory}
    (hr : Machine.finishCycle start r = .fault (.recorded f m)) : f.instruction = start ∧ P f.cause m := by
  cases r with
  | next t => cases hr
  | refused q => cases hr
  | fault g =>
    obtain ⟨c, m', rfl, hP⟩ := h g rfl
    cases hr
    exact ⟨rfl, hP⟩

end

/-! ### Instructions that store at most one byte -/

/-- What a raise of `c` with memory `m'` before any store to memory `m` leaves. -/
structure RaisedBefore (m : Memory) (c : FaultCause) (m' : Memory) : Prop where
  cause : c.OfRunCycle
  memory : m' = m

section
variable {m : Memory} {s : State} (hwf : m.wf = true) (hm : s.mem = m)
include hwf hm

theorem RaisedBefore.readIn {d : Domain} {a : Word} {k : Byte → Result} (hk : ∀ v, Raises (RaisedBefore m) (k v)) :
    Raises (RaisedBefore m) (s.readIn d a k) := by
  subst hm
  exact .orRaise (fun _ hc => ⟨Memory.readByte_ofRunCycle hwf hc, rfl⟩) fun v _ => hk v

/-- The last access of an instruction may be a write. -/
theorem RaisedBefore.write {a : Word} {v : Byte} {k : State → Result} (hk : ∀ t, Raises (RaisedBefore m) (k t)) :
    Raises (RaisedBefore m) (s.write a v k) := by
  subst hm
  exact .write (fun _ hc => ⟨Memory.writeByte_ofRunCycle hwf hc, rfl⟩) fun _ _ => hk _

theorem RaisedBefore.storeAStep (delta : Word) : Raises (RaisedBefore m) (s.storeAStep delta) := by
  unfold State.storeAStep State.writeBack
  exact RaisedBefore.write hwf hm fun _ => .next _

theorem RaisedBefore.modifyHl {f : Byte → Byte × State} (hf : ∀ v, (f v).2.mem = m) :
    Raises (RaisedBefore m) (s.modifyHl f) :=
  RaisedBefore.readIn hwf hm fun v => RaisedBefore.write hwf (hf v) fun _ => .next _

theorem RaisedBefore.pop16 {k : Word → State → Result} (hk : ∀ v t, Raises (RaisedBefore m) (k v t)) :
    Raises (RaisedBefore m) (s.pop16 k) := by
  have reads := RaisedBefore.readIn hwf hm (d := s.mode) (a := s.pair .sp) fun low =>
    RaisedBefore.readIn hwf hm (d := s.mode) (a := s.pair .sp + 1) fun high =>
      hk (Word.ofBytes high low) (s.setPair .sp (s.pair .sp + 2))
  subst hm
  exact .checkStraddle (fun _ hc => ⟨Memory.straddleCheck_ofRunCycle hc, rfl⟩) fun _ => reads

theorem RaisedBefore.returnThen {k : State → Result} (hk : ∀ t, Raises (RaisedBefore m) (k t)) :
    Raises (RaisedBefore m) (s.returnThen k) := RaisedBefore.pop16 hwf hm fun v t => hk (t.jump v)

end

/-- An instruction that does not store two bytes raises with memory as before (R476). -/
theorem exec_raises_before {i : Instr} {s : State} (hwf : s.mem.wf = true) (h : ∀ a v, ¬ FirstOfTwoStores s i a v) :
    Raises (RaisedBefore s.mem) (exec i s) := by
  cases i
  case push rr => exact absurd (.push rr) (h _ _)
  case call nn => exact absurd (.call nn) (h _ _)
  case callCc cc nn => exact .conditionally fun hc => absurd (.callCc cc nn hc) (h _ _)
  case rst p => exact absurd (.rst p) (h _ _)
  case ldNnSp nn => exact absurd (.ldNnSp nn) (h _ _)
  case jrCc | jpCc => exact .conditionally fun _ => .next _
  case retCc => exact .conditionally fun _ => RaisedBefore.returnThen hwf rfl fun _ => .next _
  case ret => exact RaisedBefore.returnThen hwf rfl fun _ => .next _
  case reti => exact show Raises _ (execReti s) from RaisedBefore.returnThen hwf rfl fun _ => .next _
  case pop qq => exact show Raises _ (execPop qq s) from RaisedBefore.pop16 hwf rfl fun _ _ => .next _
  case ldHliA | ldHldA => exact RaisedBefore.storeAStep hwf rfl _
  case ldBcA | ldDeA | ldHlN | ldHlR | ldhNA | ldCA | ldNnA => exact RaisedBefore.write hwf rfl fun _ => .next _
  case ldABc | ldADe | ldAHli | ldAHld | ldRHl | ldhAN | ldAC | ldANn | addHl | adcHl | subHl | sbcHl | andHl | xorHl
    | orHl | cpHl | bitHl | lduRHl | lduABc | lduADe | lduAHli | lduAHld | lduANn | ldhuAN | lduAC =>
    exact RaisedBefore.readIn hwf rfl fun _ => .next _
  case incHl | decHl | rlcHl | rrcHl | rlHl | rrHl | slaHl | sraHl | swapHl | srlHl | resHl | setHl =>
    exact RaisedBefore.modifyHl hwf rfl fun _ => rfl
  all_goals exact .next _

/-! ### Instructions that store two bytes -/

theorem Memory.pairInOneEntry_of_straddleCheck {m : Memory} {d : Domain} {a : Word} {k : AccessKind}
    (h : m.straddleCheck true d a k = none) : m.pairInOneEntry d a = true := by
  simp only [Memory.straddleCheck, Bool.not_true, Bool.false_eq_true, if_false] at h
  split at h
  · cases h
  · split at h
    · assumption
    · cases h

theorem Memory.writable_of_writeByte {m m' : Memory} {d : Domain} {a : Word} {v : Byte}
    (h : m.writeByte d a v = .ok m') : m.writable d a = true := by
  obtain ⟨n, r, o, ht, hk, ho, -⟩ := Memory.writeByte_ok h
  simp [Memory.writable, ht, hk, ho]

/-- The two bytes of a pair in one entry are both RAM or both not (20_memory.md R94). -/
theorem Memory.pair_writable_iff {m : Memory} (hwf : m.wf = true) {d : Domain} {a : Word}
    (h : m.pairInOneEntry d a = true) : m.writable d a = m.writable d (a + 1) := by
  obtain ⟨n, r, o, ht, ht', ho⟩ := Memory.pair_target hwf h
  unfold Memory.writable
  rw [ht, ht']
  simp [ho, Nat.lt_of_succ_lt ho]

/-- The one entry that holds both bytes at `b` stores the second if it stored the first, in either order. -/
theorem Memory.writeByte_second {m m1 : Memory} (hwf : m.wf = true) {d : Domain} {x y b : Word} {v : Byte}
    (hp : m.pairInOneEntry d b = true) (hxy : (x = b ∧ y = b + 1) ∨ (x = b + 1 ∧ y = b))
    (h : m.writeByte d x v = .ok m1) (w : Byte) : ∃ m2, m1.writeByte d y w = .ok m2 := by
  have hx := Memory.writable_of_writeByte h
  have both := Memory.pair_writable_iff hwf hp
  refine Memory.writeByte_writable w ?_
  rw [Memory.writable_writeByte h]
  obtain ⟨rfl, rfl⟩ | ⟨rfl, rfl⟩ := hxy <;> exact both ▸ hx

/-- Of a raise of `c` with memory `m` by an instruction that stores `v` at `a` first: if that write completed, it is
what memory holds; if it did not, its fault was raised. -/
structure FirstStoreStays (s : State) (a : Word) (v : Byte) (c : FaultCause) (m : Memory) : Prop where
  stored : ∀ m', s.mem.writeByte s.mode a v = .ok m' → m = m'
  refused : ∀ c', s.mem.writeByte s.mode a v = .error c' → m = s.mem ∧ c = c'

/-- What a raise of `c` with memory `m` by an instruction that stores `v` at `a` first leaves (R476). -/
structure RaisedStoring (s : State) (a : Word) (v : Byte) (c : FaultCause) (m : Memory) : Prop where
  cause : c.OfRunCycle
  checked : s.params.straddleFault = true → m = s.mem
  unchecked : s.params.straddleFault = false → FirstStoreStays s a v c m

/-- Two stores under the straddle check: the check faults before both, or the first store does, or, where nothing was
checked, the second. -/
theorem State.two_stores_raise {s : State} (hwf : s.mem.wf = true) {x y b : Word} {v w : Byte} {k : State → Result}
    (hxy : (x = b ∧ y = b + 1) ∨ (x = b + 1 ∧ y = b)) (hk : ∀ t, Raises (RaisedStoring s x v) (k t)) :
    Raises (RaisedStoring s x v) (s.checkStraddle b .write <| s.write x v fun s1 => s1.write y w k) := by
  refine .checkStraddle (fun c hc => ?_) fun hcheck => .write (fun c hc => ?_) fun m1 h1 =>
    Raises.write (s := { s with mem := m1 }) (fun c hc => ?_) fun _ _ => hk _
  · obtain ⟨hb, -⟩ := Memory.straddleCheck_some hc
    exact ⟨Memory.straddleCheck_ofRunCycle hc, fun _ => rfl, fun hoff => absurd (hb.symm.trans hoff) (by decide)⟩
  · refine ⟨Memory.writeByte_ofRunCycle hwf hc, fun _ => rfl, fun _ => ⟨fun m' h' => ?_, fun c' h' => ⟨rfl, ?_⟩⟩⟩
    · cases hc.symm.trans h'
    · exact Except.error.inj (hc.symm.trans h')
  · refine ⟨Memory.writeByte_ofRunCycle (Memory.writeByte_wf hwf h1) hc, fun hb => ?_,
      fun _ => ⟨fun m' h' => Except.ok.inj (h1.symm.trans h'), fun c' h' => ?_⟩⟩
    · rw [hb] at hcheck
      obtain ⟨m2, h2⟩ := Memory.writeByte_second hwf (Memory.pairInOneEntry_of_straddleCheck hcheck) hxy h1 w
      cases hc.symm.trans h2
    · cases h1.symm.trans h'

theorem State.push16_raises {s : State} (hwf : s.mem.wf = true) (v : Word) {k : State → Result}
    (hk : ∀ t, Raises (RaisedStoring s (s.pair .sp - 1) v.high) (k t)) :
    Raises (RaisedStoring s (s.pair .sp - 1) v.high) (s.push16 v k) :=
  State.two_stores_raise hwf (.inr ⟨(Word.sub_two_succ _).symm, rfl⟩) fun _ => hk _

theorem State.callTo_raises {s : State} (hwf : s.mem.wf = true) (target : Word) :
    Raises (RaisedStoring s (s.pair .sp - 1) (s.pair .pc).high) (s.callTo target) :=
  State.push16_raises hwf _ fun _ => .next _

/-- What an instruction that stores two bytes raises. -/
theorem FirstOfTwoStores.raises {s : State} (hwf : s.mem.wf = true) {i : Instr} {a : Word} {v : Byte}
    (first : FirstOfTwoStores s i a v) : Raises (RaisedStoring s a v) (exec i s) := by
  cases first with
  | push rr => exact State.push16_raises hwf _ .next
  | call nn => exact State.callTo_raises hwf nn
  | callCc cc nn hc => exact .conditionally fun _ => State.callTo_raises hwf nn
  | rst p => exact State.callTo_raises hwf _
  | ldNnSp nn => exact State.two_stores_raise hwf (.inl ⟨rfl, rfl⟩) .next

/-! ## The record and the memory of a step -/

/-- A raise of `c` with memory `m` by instruction `i`, executed in `s`. -/
structure RaisedBy (s : State) (i : Instr) (c : FaultCause) (m : Memory) : Prop where
  cause : c.OfRunCycle
  checked : s.params.straddleFault = true → m = s.mem
  storesOne : (∀ a v, ¬ FirstOfTwoStores s i a v) → m = s.mem
  storesTwo : s.params.straddleFault = false → ∀ a v, FirstOfTwoStores s i a v → FirstStoreStays s a v c m

/-- An instruction stores one first byte at most. -/
theorem FirstOfTwoStores.unique {s : State} {i : Instr} {a a' : Word} {v v' : Byte} (h : FirstOfTwoStores s i a v)
    (h' : FirstOfTwoStores s i a' v') : a' = a ∧ v' = v := by
  cases h <;> cases h' <;> exact ⟨rfl, rfl⟩

/-- What any instruction raises. -/
theorem exec_raises {s : State} (hwf : s.mem.wf = true) (i : Instr) : Raises (RaisedBy s i) (exec i s) := by
  by_cases h : ∃ a v, FirstOfTwoStores s i a v
  · obtain ⟨a, v, first⟩ := h
    refine (first.raises hwf).mono fun c m raised => ⟨raised.cause, raised.checked,
      fun noFirst => absurd first (noFirst a v), fun hb a' v' first' => ?_⟩
    obtain ⟨rfl, rfl⟩ := first.unique first'
    exact raised.unchecked hb
  · have noFirst : ∀ a v, ¬ FirstOfTwoStores s i a v := fun a v first => h ⟨a, v, first⟩
    exact (exec_raises_before hwf noFirst).mono fun c m ⟨cause, same⟩ =>
      ⟨cause, fun _ => same, fun _ => same, fun _ a v first => absurd first (noFirst a v)⟩

/-- All a step that records a fault can do: no fault was recorded, and the fetch faulted or the fetched instruction
raised. -/
theorem step_recorded {s : State} {r : FaultRecord} {m : Memory} (hwf : s.mem.wf = true)
    (h : step s = .fault (.recorded r m)) : s.fault = none ∧ r.instruction = s.pair .pc ∧
      ((s.beginCycle.fetchInstr = .error r.cause ∧ m = s.mem) ∨
        ∃ i s1, s.beginCycle.fetchInstr = .ok (i, s1) ∧ RaisedBy s1 i r.cause m) := by
  cases hf : s.fault with
  | some r0 =>
    rw [step, State.cycle_of_fault hf] at h
    cases h
  | none =>
    refine ⟨rfl, ?_⟩
    cases hi : s.beginCycle.fetchInstr with
    | error c =>
      rw [step_of_fetch_error hf hi] at h
      cases h
      exact ⟨rfl, .inl ⟨rfl, rfl⟩⟩
    | ok x =>
      obtain ⟨i, s1⟩ := x
      rw [step_of_fetch hf hi] at h
      have hwf1 : s1.mem.wf = true := (State.fetchInstr_keeps hi).memory ▸ hwf
      obtain ⟨hpc, raised⟩ := (exec_raises hwf1 i).finishCycle h
      exact ⟨hpc, .inr ⟨i, s1, rfl, raised⟩⟩

/-- Settles O13: the fetch faults with memory as before, and the instruction raises as its shape of accesses does. -/
theorem faultRecordAndMemory : Obligations.FaultRecordAndMemory := by
  intro s r m inv h
  obtain ⟨hf, hpc, fault⟩ := step_recorded inv.memory h
  refine ⟨hf, hpc, congrArg State.mem (State.run_of_recorded h), ?_⟩
  obtain ⟨hfetch, rfl⟩ | ⟨i, s1, hfetch, raised⟩ := fault
  · refine ⟨fun _ => rfl, fun c hc => ⟨rfl, Except.error.inj (hfetch.symm.trans hc)⟩, fun i s1 hi => ?_,
      State.fetchInstr_ofRunCycle (s := s.beginCycle) inv.memory hfetch⟩
    cases hfetch.symm.trans hi
  · obtain ⟨-, -, hmode, hmem, -, -, hparams⟩ := State.fetchInstr_keeps hfetch
    obtain ⟨cause, checked, storesOne, storesTwo⟩ := raised
    rw [hmem] at checked storesOne
    rw [hparams] at checked storesTwo
    refine ⟨checked, fun c hc => ?_, fun i' s1' hi => ?_, cause⟩
    · cases hfetch.symm.trans hc
    · cases hfetch.symm.trans hi
      refine ⟨storesOne, fun hb a v first => ?_⟩
      obtain ⟨stored, refused⟩ := storesTwo hb a v first
      rw [hmem, hmode] at stored refused
      exact ⟨stored, refused⟩

end Sys2Proof.Machine
end
